-- ==== Sys2Proof/Word.lean ====
section
/-! DEFINITION. The fixed-width words of the gift LZW/block codec (00_scope.md R8 and R9). All values are
unsigned (R9), and a number to which the spec gives no width is a `Nat`. -/

namespace Sys2Proof

/-- A byte of a stream, an LZW index (`u8`, 00_scope.md R8: the index width is 8 bits) or a packed byte. -/
abbrev Byte := BitVec 8

/-- A two-byte field of a block record (`u16`, 30_encoding.md R85). -/
abbrev U16 := BitVec 16

/-- A command word (30_encoding.md R90), a STATUS word (10_state.md R31) or the pixel limit (R30). -/
abbrev U32 := BitVec 32

/-- An LZW code, held in 12 bits (00_scope.md R8). -/
abbrev Code := BitVec 12

end Sys2Proof
end

