-- ==== Sys2Proof/Config.lean ====
section
/-! DEFINITION. The parameters of the hardware: those the source fixes (00_scope.md R7), the constant the spec
decides (R8, LEADING_CLEAR), and the OPEN parameters of R8, which a machine holds in a field of its State. -/

namespace Sys2Proof.Config

/-- `M_MIN` (R7): the least LZW min code size. -/
def mMin : Nat := 2

/-- `M_MAX` (R7): the greatest LZW min code size. -/
def mMax : Nat := 8

/-- `W_MAX` (R7): the greatest code width in bits. -/
def wMax : Nat := 12

/-- `DICT_CAP` (R7): the number of codes a full dictionary holds. -/
def dictCap : Nat := 4096

/-- `SUB_MAX` (R7): the greatest length of a data sub-block. -/
def subMax : Nat := 255

/-- `MAX_PIXELS_RESET` (R7): the pixel limit after reset, `2^25`. -/
def maxPixelsReset : U32 := 33554432#32

/-- `LEADING_CLEAR` (R8): LE emits a clear code first. -/
def leadingClear : Bool := true

/-- `FULL_DICT_POLICY` (R8): what LD does with a data code when its dictionary is full (42_lzw_decoder.md R150). -/
inductive FullDictPolicy where
  | freeze
  | fault
deriving DecidableEq, Repr

/-- The OPEN parameters of R8. They are data of one machine, never written by a step, so that a statement about
every state holds for every choice of them (DESIGN CHOICE, log 5). -/
structure Params where
  /-- `FULL_DICT_POLICY`. -/
  fullDictPolicy : FullDictPolicy
  /-- `MAX_BLOCK_BYTES`: `none` is unbounded. -/
  maxBlockBytes  : Option Nat
deriving DecidableEq, Repr

/-- The spec's choice of the OPEN parameters (R8): `Freeze`, and no bound on a block. -/
def Params.spec : Params := { fullDictPolicy := .freeze, maxBlockBytes := none }

end Sys2Proof.Config
end

