-- ==== Sys2Proof/Syntax.lean ====
section
/-! DEFINITION. The syntax: block records (30_encoding.md R85), the data channel and the command request (R90), and
`Instr`, one constructor per row of spec/opcode_table.json: 8 commands, 13 block forms, 7 code classes. -/

namespace Sys2Proof

/-! ### Block records (R85) -/

/-- The version of a Header record. -/
inductive Version where
  | v87a
  | v89a
deriving DecidableEq, Repr

/-- One colour table entry (20_memory.md R54). -/
structure Rgb where
  r : Byte
  g : Byte
  b : Byte
deriving DecidableEq, Repr

/-- LogicalScreenDescriptor (R69, R70). -/
structure ScreenDesc where
  width   : U16
  height  : U16
  packed  : Byte
  bgIndex : Byte
  aspect  : Byte
deriving DecidableEq, Repr

/-- GraphicControlExtension (R72, R73). -/
structure GraphicControl where
  packed : Byte
  delay  : U16
  tindex : Byte
deriving DecidableEq, Repr

/-- ApplicationExtension (R75). Its two fixed strings are lists, because a record that breaks their lengths exists
and is refused (R86, 41_block_framer.md R122). -/
structure AppExt where
  appId : List Byte
  auth  : List Byte
  subs  : List (List Byte)
deriving DecidableEq, Repr

/-- ImageDescriptor (R78, R79). -/
structure ImageDesc where
  left   : U16
  top    : U16
  width  : U16
  height : U16
  packed : Byte
deriving DecidableEq, Repr

/-- ImageData: the min code size byte and the compressed payload (R85, 90_conflicts.md C4). -/
structure ImageData where
  m       : Byte
  payload : List Byte
deriving DecidableEq, Repr

/-- A block record, one constructor per kind of R65. -/
inductive Block where
  | header (version : Version)
  | screenDesc (r : ScreenDesc)
  | globalTable (entries : List Rgb)
  | graphicControl (r : GraphicControl)
  | comment (subs : List (List Byte))
  | appExt (r : AppExt)
  | plainText (subs : List (List Byte))
  | imageDesc (r : ImageDesc)
  | localTable (entries : List Rgb)
  | imageData (r : ImageData)
  | trailer
deriving DecidableEq, Repr

/-! ### Units, phases, requests -/

/-- The four units (00_scope.md R2). -/
inductive UnitId where
  | bp
  | bf
  | ld
  | le
deriving DecidableEq, Repr

/-- `bp.phase` (10_state.md R22). The entry count `n` of `ExpectGCT(n)` and `ExpectLCT(n)` is held as its 3-bit size
field `k`, `n = 2^(k+1)`, so that only the eight legal counts exist (log 15). -/
inductive BpPhase where
  | expectHeader
  | expectScreenDesc
  | expectGlobalTable (k : BitVec 3)
  | expectBody
  | expectLocalTable (k : BitVec 3)
  | expectImageData
  | done
  | failed
deriving DecidableEq, Repr

/-- What the data channel carries beside a command word (R90). -/
inductive Operand where
  | none
  | value (v : U32)
  | record (b : Block)
  | bytes (p : List Byte)
  | indices (x : List Byte)
deriving DecidableEq, Repr

/-- One command as the HOST issues it: the 32-bit word and the operand on the data channel (R90). -/
structure Request where
  word    : U32
  operand : Operand
deriving DecidableEq, Repr

/-! ### Instructions -/

/-- What follows `21 F9`: a size byte that is not 4, after which nothing is read, or the five bytes that a size byte
of 4 announces (40_block_parser.md R104). -/
inductive GceOperand where
  | wrongSize (size : Byte)
  | fields (r : GraphicControl) (terminator : Byte)
deriving DecidableEq, Repr

/-- What follows `21 FF`: a size byte that is not 11, after which nothing is read, or the fields (R106). -/
inductive AppOperand where
  | wrongSize (size : Byte)
  | fields (r : AppExt)
deriving DecidableEq, Repr

/-- The instructions: the rows of spec/opcode_table.json. A command carries its fields and its operand. A block form
carries what BP reads for it, legal or not. A code class carries the code read. -/
inductive Instr where
  -- commands (R91)
  | reset (unit : UnitId) (all : Bool)
  | cfgWrite (v : U32)
  | cfgRead
  | statusRead (unit : UnitId)
  | bpPull
  | bfPush (b : Block)
  | ldRun (m : Byte) (payload : List Byte)
  | leRun (m : Byte) (indices : List Byte)
  -- block forms (R65 to R83)
  | blockHeader (raw : List Byte)
  | blockScreenDesc (r : ScreenDesc)
  | blockGlobalTable (entries : List Rgb)
  | blockLocalTable (entries : List Rgb)
  | blockGraphicControl (op : GceOperand)
  | blockComment (subs : List (List Byte))
  | blockAppExt (op : AppOperand)
  | blockPlainText (subs : List (List Byte))
  | blockUnknownExt (label : Byte)
  | blockImageDesc (r : ImageDesc)
  | blockImageData (m : Byte) (subs : List (List Byte))
  | blockTrailer
  | blockInvalidIntroducer (t : Byte)
  -- code classes (R89)
  | codeClear (c : Code)
  | codeEoi (c : Code)
  | codeRootFirst (c : Code)
  | codeRoot (c : Code)
  | codeDefined (c : Code)
  | codeKwkwk (c : Code)
  | codeUndefined (c : Code)
deriving DecidableEq, Repr

/-- Why a command is refused before any unit sees it (R92; `wrongOperand` is log 10). -/
inductive Reject where
  /-- OP is not in R91. -/
  | unknownOpcode
  /-- A field that R90 says must be 0 is not 0. -/
  | fieldNotZero
  /-- ALL = 1 with a UNIT other than 0. -/
  | allWithUnit
  /-- The data channel does not carry the kind of operand R91 gives this command. -/
  | wrongOperand
deriving DecidableEq, Repr

end Sys2Proof
end

