-- ==== Sys2Proof/WellFormed.lean ====
section
/-! DEFINITION. Well-formedness: of block records (30_encoding.md R86) and of instructions as syntax. -/

namespace Sys2Proof

/-- A data sub-block has length 1 to 255 (R81, R86). -/
def subWf (d : List Byte) : Bool := 1 ≤ d.length && d.length ≤ Config.subMax

/-- Every element of `subs` has length in [1, 255] (R86). -/
def subsWf (subs : List (List Byte)) : Bool := subs.all subWf

/-- `app_id` has exactly 8 bytes, `auth` exactly 3, and the sub-blocks are well formed (R86). -/
def AppExt.wf (r : AppExt) : Bool := r.appId.length == 8 && r.auth.length == 3 && subsWf r.subs

/-- A record is well formed (R86). Numeric ranges and the two versions hold by their types; a colour table's entry
count is not a condition. -/
def Block.wf : Block → Bool
  | .header _ => true
  | .screenDesc _ => true
  | .globalTable _ => true
  | .graphicControl _ => true
  | .comment subs => subsWf subs
  | .appExt r => r.wf
  | .plainText subs => subsWf subs
  | .imageDesc _ => true
  | .localTable _ => true
  | .imageData _ => true
  | .trailer => true

/-- The entry counts a colour table can have (R71): `2^(k+1)` for `k` in [0, 7]. -/
def tableCountLegal (n : Nat) : Bool := [2, 4, 8, 16, 32, 64, 128, 256].contains n

/-- The four extension labels of R67. -/
def knownLabel (l : Byte) : Bool := l == 0xF9#8 || l == 0xFE#8 || l == 0xFF#8 || l == 0x01#8

/-- The three introducers of R67. -/
def knownIntroducer (t : Byte) : Bool := t == 0x21#8 || t == 0x2C#8 || t == 0x3B#8

/-- An instruction is well formed when some word or byte string of its row stands for it. `bfPush` needs no
well-formed record: such a push is an instruction, which BF refuses (R122). -/
def Instr.wf : Instr → Bool
  | .reset u all => !all || u == .bp
  | .cfgWrite _ => true
  | .cfgRead => true
  | .statusRead _ => true
  | .bpPull => true
  | .bfPush _ => true
  | .ldRun _ _ => true
  | .leRun _ _ => true
  | .blockHeader raw => raw.length == 6
  | .blockScreenDesc _ => true
  | .blockGlobalTable es => tableCountLegal es.length
  | .blockLocalTable es => tableCountLegal es.length
  | .blockGraphicControl (.wrongSize s) => s != 4#8
  | .blockGraphicControl (.fields _ _) => true
  | .blockComment subs => subsWf subs
  | .blockAppExt (.wrongSize s) => s != 11#8
  | .blockAppExt (.fields r) => r.wf
  | .blockPlainText subs => subsWf subs
  | .blockUnknownExt l => !knownLabel l
  | .blockImageDesc _ => true
  | .blockImageData _ subs => subsWf subs
  | .blockTrailer => true
  | .blockInvalidIntroducer t => !knownIntroducer t
  | .codeClear _ => true
  | .codeEoi _ => true
  | .codeRootFirst _ => true
  | .codeRoot _ => true
  | .codeDefined _ => true
  | .codeKwkwk _ => true
  | .codeUndefined _ => true

end Sys2Proof
end

