-- ==== Sys2Proof/Decode.lean ====
section
/-! DEFINITION. Decoding and encoding of the three languages of 30_encoding.md: the command word (section 6), the
block layouts (sections 1 and 2) and the LZW code stream (section 5). Decoding is total; what is not decoded is
rejected by name. The encoder after it is written from the same tables. -/

namespace Sys2Proof

/-! ### Byte order and bit order -/

/-- `LE16(b0, b1) = b0 | (b1 << 8)` (00_scope.md R10). -/
def le16 (b0 b1 : Byte) : U16 := b0.setWidth 16 ||| (b1.setWidth 16 <<< 8)

/-- `bytesLE16(v) = [v & 0xFF, v >> 8]` (R10). -/
def bytesLE16 (v : U16) : List Byte := [v.setWidth 8, (v >>> 8).setWidth 8]

/-- Bit `k` of a payload's bit sequence: bit `k mod 8` of byte `floor(k / 8)` (20_memory.md R56). -/
def bitAt (bs : List Byte) (k : Nat) : Bool := (bs.getD (k / 8) 0#8).getLsbD (k % 8)

/-- The value of the `w` bits that start at bit position `p`: `sum over j in [0, w) of bit(p + j) << j` (R56). -/
def codeAt (bs : List Byte) (p : Nat) : Nat → Nat
  | 0 => 0
  | w + 1 => (bitAt bs p).toNat + 2 * codeAt bs (p + 1) w

/-! ### The special codes (00_scope.md R7) -/

/-- `clear(m) = 2^m`. -/
def clearOf (m : Nat) : Nat := 2 ^ m

/-- `eoi(m) = 2^m + 1`. -/
def eoiOf (m : Nat) : Nat := 2 ^ m + 1

/-- The first assignable code, `2^m + 2`. -/
def firstFree (m : Nat) : Nat := 2 ^ m + 2

/-! ### The command language (30_encoding.md R90 to R92) -/

/-- The opcodes of R91. -/
inductive Opcode where
  | reset
  | cfgWrite
  | cfgRead
  | statusRead
  | bpPull
  | bfPush
  | ldRun
  | leRun
deriving DecidableEq, Repr

/-- OP, bits [7:0] (R90). -/
def opField (w : U32) : Byte := w.extractLsb' 0 8

/-- M, bits [15:8] (R90). -/
def mField (w : U32) : Byte := w.extractLsb' 8 8

/-- UNIT, bits [17:16] (R90). -/
def unitField (w : U32) : BitVec 2 := w.extractLsb' 16 2

/-- ALL, bit [18] (R90). -/
def allField (w : U32) : BitVec 1 := w.extractLsb' 18 1

/-- The reserved bits [31:19] (R90). -/
def reservedField (w : U32) : BitVec 13 := w.extractLsb' 19 13

/-- UNIT: 0 = BP, 1 = BF, 2 = LD, 3 = LE (R90). -/
def unitOfBits (u : BitVec 2) : UnitId :=
  if u = 0#2 then .bp else if u = 1#2 then .bf else if u = 2#2 then .ld else .le

/-- The OP values of R91; any other is unknown. -/
def opcodeOf (op : Byte) : Option Opcode :=
  if op = 0x01#8 then some .reset
  else if op = 0x02#8 then some .cfgWrite
  else if op = 0x03#8 then some .cfgRead
  else if op = 0x04#8 then some .statusRead
  else if op = 0x10#8 then some .bpPull
  else if op = 0x20#8 then some .bfPush
  else if op = 0x30#8 then some .ldRun
  else if op = 0x40#8 then some .leRun
  else none

/-- M is used by LD_RUN and LE_RUN only (R90). -/
def Opcode.usesM : Opcode → Bool
  | .ldRun => true
  | .leRun => true
  | _ => false

/-- UNIT is used by RESET and STATUS_READ only (R90). -/
def Opcode.usesUnit : Opcode → Bool
  | .reset => true
  | .statusRead => true
  | _ => false

/-- ALL is used by RESET only (R90). -/
def Opcode.usesAll : Opcode → Bool
  | .reset => true
  | _ => false

/-- A field that must be 0 for this opcode is not 0 (R90, R92). -/
def fieldNotZero (o : Opcode) (w : U32) : Bool :=
  reservedField w != 0#13
    || (!o.usesM && mField w != 0#8)
    || (!o.usesUnit && unitField w != 0#2)
    || (!o.usesAll && allField w != 0#1)

/-- What the decoder answers for a command. -/
inductive CommandDecode where
  | command (i : Instr)
  | reject (r : Reject)
deriving DecidableEq, Repr

/-- A command with no operand. -/
def withNone (i : Instr) : Operand → CommandDecode
  | .none => .command i
  | _ => .reject .wrongOperand

/-- A command with a 32-bit value. -/
def withValue (f : U32 → Instr) : Operand → CommandDecode
  | .value v => .command (f v)
  | _ => .reject .wrongOperand

/-- A command with a block record. -/
def withRecord (f : Block → Instr) : Operand → CommandDecode
  | .record b => .command (f b)
  | _ => .reject .wrongOperand

/-- A command with a byte string. -/
def withBytes (f : List Byte → Instr) : Operand → CommandDecode
  | .bytes p => .command (f p)
  | _ => .reject .wrongOperand

/-- A command with an index list. -/
def withIndices (f : List Byte → Instr) : Operand → CommandDecode
  | .indices x => .command (f x)
  | _ => .reject .wrongOperand

/-- The command that an opcode, its fields and its operand make (R91); the operand has to be of the kind R91 gives
the opcode. -/
def attachOperand (o : Opcode) (w : U32) (d : Operand) : CommandDecode :=
  match o with
  | .reset => withNone (.reset (unitOfBits (unitField w)) (allField w == 1#1)) d
  | .cfgWrite => withValue .cfgWrite d
  | .cfgRead => withNone .cfgRead d
  | .statusRead => withNone (.statusRead (unitOfBits (unitField w))) d
  | .bpPull => withNone .bpPull d
  | .bfPush => withRecord .bfPush d
  | .ldRun => withBytes (.ldRun (mField w)) d
  | .leRun => withIndices (.leRun (mField w)) d

/-- Decode one command (R90 to R92). -/
def decodeCommand (q : Request) : CommandDecode :=
  match opcodeOf (opField q.word) with
  | none => .reject .unknownOpcode
  | some o =>
    if fieldNotZero o q.word then .reject .fieldNotZero
    else if allField q.word == 1#1 && unitField q.word != 0#2 then .reject .allWithUnit
    else attachOperand o q.word q.operand

/-! ### The block language (R65 to R84) -/

/-- What the block decoder answers for the bytes read so far. -/
inductive BlockDecode where
  /-- More bytes are needed. -/
  | incomplete
  /-- The bytes begin with this block form, and these bytes follow it. -/
  | complete (i : Instr) (rest : List Byte)
  /-- No block is expected in this phase (`Done`, `Failed`). -/
  | noBlock
deriving DecidableEq, Repr

/-- The number of entries a size field announces, `2^(k+1)` (R71). -/
def tableEntries (k : BitVec 3) : Nat := 2 ^ (k.toNat + 1)

/-- The first `n` bytes and the rest, if there are `n`: `readN(n)` over the bytes at hand (00_scope.md R13). -/
def takeBytes (n : Nat) (bs : List Byte) : Option (List Byte × List Byte) :=
  if n ≤ bs.length then some (bs.take n, bs.drop n) else none

/-- `readSubs()` (40_block_parser.md R114) over the bytes at hand: the data sub-blocks up to the terminator, and the
bytes after it; `none` when the bytes end before the terminator. The first argument bounds the number of length
bytes; the number of bytes at hand is always enough. -/
def readSubsFuel : Nat → List Byte → Option (List (List Byte) × List Byte)
  | 0, _ => none
  | _ + 1, [] => none
  | fuel + 1, n :: r =>
    if n = 0#8 then some ([], r)
    else
      match takeBytes n.toNat r with
      | none => none
      | some (d, r') =>
        match readSubsFuel fuel r' with
        | none => none
        | some (ds, r'') => some (d :: ds, r'')

/-- `readSubs()` (R114). -/
def readSubs (bs : List Byte) : Option (List (List Byte) × List Byte) := readSubsFuel bs.length bs

/-- RGB triples in stream order (20_memory.md R54). -/
def triples : List Byte → List Rgb
  | r :: g :: b :: rest => { r := r, g := g, b := b } :: triples rest
  | _ => []

/-- The LSD record of seven bytes (R69, 40_block_parser.md R100). -/
def decodeScreenDesc : List Byte → BlockDecode
  | w0 :: w1 :: h0 :: h1 :: p :: bg :: a :: rest =>
    .complete (.blockScreenDesc
      { width := le16 w0 w1, height := le16 h0 h1, packed := p, bgIndex := bg, aspect := a }) rest
  | _ => .incomplete

/-- The nine bytes after 0x2C (R78, 40_block_parser.md R109). -/
def decodeImageDesc : List Byte → BlockDecode
  | l0 :: l1 :: t0 :: t1 :: w0 :: w1 :: h0 :: h1 :: p :: rest =>
    .complete (.blockImageDesc
      { left := le16 l0 l1, top := le16 t0 t1, width := le16 w0 w1, height := le16 h0 h1, packed := p }) rest
  | _ => .incomplete

/-- What follows `21 F9` (R72, 40_block_parser.md R104): a size byte other than 4 ends the form at once. -/
def decodeGraphicControl : List Byte → BlockDecode
  | [] => .incomplete
  | s :: r =>
    if s = 4#8 then
      match r with
      | p :: d0 :: d1 :: t :: z :: rest =>
        .complete (.blockGraphicControl (.fields { packed := p, delay := le16 d0 d1, tindex := t } z)) rest
      | _ => .incomplete
    else .complete (.blockGraphicControl (.wrongSize s)) r

/-- What follows `21 FF` (R75, 40_block_parser.md R106): a size byte other than 11 ends the form at once. -/
def decodeAppExt : List Byte → BlockDecode
  | [] => .incomplete
  | s :: r =>
    if s = 11#8 then
      match takeBytes 8 r with
      | none => .incomplete
      | some (appId, r1) =>
        match takeBytes 3 r1 with
        | none => .incomplete
        | some (auth, r2) =>
          match readSubs r2 with
          | none => .incomplete
          | some (subs, rest) => .complete (.blockAppExt (.fields { appId := appId, auth := auth, subs := subs })) rest
    else .complete (.blockAppExt (.wrongSize s)) r

/-- A form that is a run of sub-blocks and nothing else (R77). -/
def decodeSubsForm (form : List (List Byte) → Instr) (bs : List Byte) : BlockDecode :=
  match readSubs bs with
  | none => .incomplete
  | some (subs, rest) => .complete (form subs) rest

/-- What follows the introducer 0x21: the label selects the form (R67, 40_block_parser.md R103). -/
def decodeExtension : List Byte → BlockDecode
  | [] => .incomplete
  | l :: r =>
    if l = 0xF9#8 then decodeGraphicControl r
    else if l = 0xFE#8 then decodeSubsForm .blockComment r
    else if l = 0xFF#8 then decodeAppExt r
    else if l = 0x01#8 then decodeSubsForm .blockPlainText r
    else .complete (.blockUnknownExt l) r

/-- Phase `ExpectBody`: the introducer selects the form (R67, 40_block_parser.md R102). -/
def decodeBody : List Byte → BlockDecode
  | [] => .incomplete
  | t :: r =>
    if t = 0x21#8 then decodeExtension r
    else if t = 0x2C#8 then decodeImageDesc r
    else if t = 0x3B#8 then .complete .blockTrailer r
    else .complete (.blockInvalidIntroducer t) r

/-- A colour table of `2^(k+1)` entries (R71, 40_block_parser.md R101 and R110). -/
def decodeTable (form : List Rgb → Instr) (k : BitVec 3) (bs : List Byte) : BlockDecode :=
  match takeBytes (3 * tableEntries k) bs with
  | none => .incomplete
  | some (b, rest) => .complete (form (triples b)) rest

/-- The min code size byte, then the payload's sub-blocks (R82, 40_block_parser.md R111). -/
def decodeImageData : List Byte → BlockDecode
  | [] => .incomplete
  | m :: r => decodeSubsForm (.blockImageData m) r

/-- All six bytes of the Header are read before any check (40_block_parser.md R99). -/
def decodeHeader (bs : List Byte) : BlockDecode :=
  match takeBytes 6 bs with
  | none => .incomplete
  | some (raw, rest) => .complete (.blockHeader raw) rest

/-- Decode the bytes BP has read since the pull began; the phase selects the form (40_block_parser.md R96). -/
def decodeBlock (phase : BpPhase) (bs : List Byte) : BlockDecode :=
  match phase with
  | .expectHeader => decodeHeader bs
  | .expectScreenDesc => decodeScreenDesc bs
  | .expectGlobalTable k => decodeTable .blockGlobalTable k bs
  | .expectBody => decodeBody bs
  | .expectLocalTable k => decodeTable .blockLocalTable k bs
  | .expectImageData => decodeImageData bs
  | .done => .noBlock
  | .failed => .noBlock

/-! ### The code language (R88, R89) -/

/-- The class of a code against `ld.m`, `ld.next` and `ld.prev` as they stand before the micro-step (R89,
42_lzw_decoder.md R141). A 12-bit code that equals `next` is at most 4095, so KWKWK's last condition holds. -/
def decodeCode (m next : Nat) (prev : Option Code) (c : Code) : Instr :=
  if c.toNat = clearOf m then .codeClear c
  else if c.toNat = eoiOf m then .codeEoi c
  else
    match prev with
    | none => if c.toNat < clearOf m then .codeRootFirst c else .codeUndefined c
    | some _ =>
      if c.toNat < clearOf m then .codeRoot c
      else if c.toNat < next then .codeDefined c
      else if c.toNat = next then .codeKwkwk c
      else .codeUndefined c

/-! ### All three languages at once -/

/-- The words of an instruction in its own language. -/
inductive Words where
  | request (q : Request)
  | bytes (bs : List Byte)
  | code (c : Code)
deriving DecidableEq, Repr

/-- What the machine expects to read next: a command; a block, in a phase of BP; a code, against LD's registers. -/
inductive Context where
  | command
  | block (phase : BpPhase)
  | code (m next : Nat) (prev : Option Code)
deriving DecidableEq, Repr

/-- The one instruction that these words are, where this context is expected. -/
def decode : Context → Words → Option Instr
  | .command, .request q =>
    match decodeCommand q with
    | .command i => some i
    | .reject _ => none
  | .block phase, .bytes bs =>
    match decodeBlock phase bs with
    | .complete i [] => some i
    | _ => none
  | .code m next prev, .code c => some (decodeCode m next prev c)
  | _, _ => none

/-! ### Encoding -/

/-- The UNIT bits of a unit (R90). -/
def unitBits : UnitId → BitVec 2
  | .bp => 0#2
  | .bf => 1#2
  | .ld => 2#2
  | .le => 3#2

/-- A command word from its fields, reserved bits 0 (R90). -/
def commandWord (op m : Byte) (unit : BitVec 2) (all : BitVec 1) : U32 :=
  (0#13 ++ all ++ unit ++ m ++ op : BitVec 32)

/-- Six Header bytes of a version (R68). -/
def headerBytes : Version → List Byte
  | .v87a => [0x47#8, 0x49#8, 0x46#8, 0x38#8, 0x37#8, 0x61#8]
  | .v89a => [0x47#8, 0x49#8, 0x46#8, 0x38#8, 0x39#8, 0x61#8]

/-- The seven bytes of an LSD (R69). -/
def screenDescBytes (r : ScreenDesc) : List Byte :=
  bytesLE16 r.width ++ bytesLE16 r.height ++ [r.packed, r.bgIndex, r.aspect]

/-- The bytes of a colour table (R71, 20_memory.md R54). -/
def tableBytes (entries : List Rgb) : List Byte := entries.flatMap fun e => [e.r, e.g, e.b]

/-- Introducer, label, size 4, the fields and the byte where the terminator belongs (R72). -/
def graphicControlBytes (r : GraphicControl) (terminator : Byte) : List Byte :=
  [0x21#8, 0xF9#8, 0x04#8, r.packed] ++ bytesLE16 r.delay ++ [r.tindex, terminator]

/-- `writeSubs(subs)` (41_block_framer.md R135): each sub-block after its length byte, then the terminator (R81). -/
def subsBytes : List (List Byte) → List Byte
  | [] => [0x00#8]
  | d :: ds => BitVec.ofNat 8 d.length :: (d ++ subsBytes ds)

/-- Introducer, label, size 11, the two fixed strings and the sub-blocks (R75). -/
def appExtBytes (r : AppExt) : List Byte :=
  [0x21#8, 0xFF#8, 0x0B#8] ++ r.appId ++ r.auth ++ subsBytes r.subs

/-- The ten bytes of an ImageDescriptor (R78). -/
def imageDescBytes (r : ImageDesc) : List Byte :=
  [0x2C#8] ++ bytesLE16 r.left ++ bytesLE16 r.top ++ bytesLE16 r.width ++ bytesLE16 r.height ++ [r.packed]

/-- The words of an instruction: a request, the bytes BP reads, or the code. -/
def encode : Instr → Words
  | .reset u all => .request { word := commandWord 0x01#8 0#8 (unitBits u) (BitVec.ofBool all), operand := .none }
  | .cfgWrite v => .request { word := commandWord 0x02#8 0#8 0#2 0#1, operand := .value v }
  | .cfgRead => .request { word := commandWord 0x03#8 0#8 0#2 0#1, operand := .none }
  | .statusRead u => .request { word := commandWord 0x04#8 0#8 (unitBits u) 0#1, operand := .none }
  | .bpPull => .request { word := commandWord 0x10#8 0#8 0#2 0#1, operand := .none }
  | .bfPush b => .request { word := commandWord 0x20#8 0#8 0#2 0#1, operand := .record b }
  | .ldRun m p => .request { word := commandWord 0x30#8 m 0#2 0#1, operand := .bytes p }
  | .leRun m x => .request { word := commandWord 0x40#8 m 0#2 0#1, operand := .indices x }
  | .blockHeader raw => .bytes raw
  | .blockScreenDesc r => .bytes (screenDescBytes r)
  | .blockGlobalTable es => .bytes (tableBytes es)
  | .blockLocalTable es => .bytes (tableBytes es)
  | .blockGraphicControl (.wrongSize s) => .bytes [0x21#8, 0xF9#8, s]
  | .blockGraphicControl (.fields r z) => .bytes (graphicControlBytes r z)
  | .blockComment subs => .bytes ([0x21#8, 0xFE#8] ++ subsBytes subs)
  | .blockAppExt (.wrongSize s) => .bytes [0x21#8, 0xFF#8, s]
  | .blockAppExt (.fields r) => .bytes (appExtBytes r)
  | .blockPlainText subs => .bytes ([0x21#8, 0x01#8] ++ subsBytes subs)
  | .blockUnknownExt l => .bytes [0x21#8, l]
  | .blockImageDesc r => .bytes (imageDescBytes r)
  | .blockImageData m subs => .bytes (m :: subsBytes subs)
  | .blockTrailer => .bytes [0x3B#8]
  | .blockInvalidIntroducer t => .bytes [t]
  | .codeClear c => .code c
  | .codeEoi c => .code c
  | .codeRootFirst c => .code c
  | .codeRoot c => .code c
  | .codeDefined c => .code c
  | .codeKwkwk c => .code c
  | .codeUndefined c => .code c

/-- A command is expected. -/
def Context.isCommand : Context → Bool
  | .command => true
  | _ => false

/-- A block is expected, in a phase of which the test holds. -/
def Context.inPhase (x : Context) (test : BpPhase → Bool) : Bool :=
  match x with
  | .block phase => test phase
  | _ => false

/-- A code is expected, against registers of which the test holds. -/
def Context.inCode (x : Context) (test : Nat → Nat → Option Code → Bool) : Bool :=
  match x with
  | .code m next prev => test m next prev
  | _ => false

/-- The phase announces a global table of this many entries. -/
def announcesGlobal (n : Nat) : BpPhase → Bool
  | .expectGlobalTable k => n == tableEntries k
  | _ => false

/-- The phase announces a local table of this many entries. -/
def announcesLocal (n : Nat) : BpPhase → Bool
  | .expectLocalTable k => n == tableEntries k
  | _ => false

/-- The contexts in which an instruction can be read: commands when no command runs; a block form in the phase that
selects it, a colour table only with the entry count announced (R66, R67, R71); a code class by the condition of R89. -/
def admits (x : Context) : Instr → Bool
  | .reset _ _ => x.isCommand
  | .cfgWrite _ => x.isCommand
  | .cfgRead => x.isCommand
  | .statusRead _ => x.isCommand
  | .bpPull => x.isCommand
  | .bfPush _ => x.isCommand
  | .ldRun _ _ => x.isCommand
  | .leRun _ _ => x.isCommand
  | .blockHeader _ => x.inPhase (· == .expectHeader)
  | .blockScreenDesc _ => x.inPhase (· == .expectScreenDesc)
  | .blockGlobalTable es => x.inPhase (announcesGlobal es.length)
  | .blockLocalTable es => x.inPhase (announcesLocal es.length)
  | .blockGraphicControl _ => x.inPhase (· == .expectBody)
  | .blockComment _ => x.inPhase (· == .expectBody)
  | .blockAppExt _ => x.inPhase (· == .expectBody)
  | .blockPlainText _ => x.inPhase (· == .expectBody)
  | .blockUnknownExt _ => x.inPhase (· == .expectBody)
  | .blockImageDesc _ => x.inPhase (· == .expectBody)
  | .blockImageData _ _ => x.inPhase (· == .expectImageData)
  | .blockTrailer => x.inPhase (· == .expectBody)
  | .blockInvalidIntroducer _ => x.inPhase (· == .expectBody)
  | .codeClear c => x.inCode fun m _ _ => c.toNat == clearOf m
  | .codeEoi c => x.inCode fun m _ _ => c.toNat == eoiOf m
  | .codeRootFirst c => x.inCode fun m _ prev => decide (c.toNat < clearOf m) && prev.isNone
  | .codeRoot c => x.inCode fun m _ prev => decide (c.toNat < clearOf m) && prev.isSome
  | .codeDefined c => x.inCode fun m next prev =>
    decide (eoiOf m < c.toNat) && decide (c.toNat < next) && prev.isSome
  | .codeKwkwk c => x.inCode fun m next prev =>
    decide (eoiOf m < c.toNat) && c.toNat == next && prev.isSome && decide (next ≤ 4095)
  | .codeUndefined c => x.inCode fun m next prev =>
    decide (eoiOf m < c.toNat) && (prev.isNone || decide (next < c.toNat))

/-! ### The opcode table's numbering of bits -/

/-- The bytes of a number, least significant first, `n` of them. -/
def bytesOfNat : Nat → Nat → List Byte
  | 0, _ => []
  | n + 1, w => BitVec.ofNat 8 w :: bytesOfNat n (w / 256)

/-- The operand of zeros of an opcode: the number 0, the record with no fields, the empty byte string, the empty
index list (log 14). -/
def zeroOperand (w : U32) : Operand :=
  match opcodeOf (opField w) with
  | some .cfgWrite => .value 0#32
  | some .bfPush => .record .trailer
  | some .ldRun => .bytes []
  | some .leRun => .indices []
  | _ => .none

/-- The request of a command row's word, with the operand of zeros. -/
def tableRequest (w : Nat) : Request :=
  { word := BitVec.ofNat 32 w, operand := zeroOperand (BitVec.ofNat 32 w) }

/-- The phase in which a block row's bytes are read: `ExpectHeader` for bytes that begin with "GIF", else
`ExpectBody`, the one phase whose forms carry a tag (log 14). -/
def tablePhase (bs : List Byte) : BpPhase :=
  if bs.take 3 = [0x47#8, 0x49#8, 0x46#8] then .expectHeader else .expectBody

/-- A block row's bytes, followed by zeros to the length of the longest form they can begin. -/
def tableBlockBytes (nbits w : Nat) : List Byte := bytesOfNat (nbits / 8) w ++ List.replicate 16 0#8

/-- The instruction the decoder reads from a row of spec/opcode_table.json: the 32-bit rows are command words, the
others the bytes of a block (log 14). -/
def decodeTableWord (nbits w : Nat) : Option Instr :=
  if nbits = 32 then decode .command (.request (tableRequest w))
  else
    match decodeBlock (tablePhase (tableBlockBytes nbits w)) (tableBlockBytes nbits w) with
    | .complete i _ => some i
    | _ => none

end Sys2Proof
end

