-- ==== Sys2Proof/Machine/State.lean ====
section
/-! DEFINITION. The state of one gift LZW/block codec (10_state.md): four units, one configuration register, and the
interface to the HOST, SRC and SINK. All of it is plain data. Reset values are those of R37; where R37 gives a register
no value, the value here is a DESIGN CHOICE (log 6). -/

namespace Sys2Proof.Machine

/-- The error value `e` of `IoErr(e)`: opaque, passed through unchanged (60_exceptions.md R192, log 4). -/
structure IoError where
  value : Nat
deriving DecidableEq, Repr

/-- The eight error kinds (60_exceptions.md R185). -/
inductive ErrorKind where
  | malformedHeader
  | unexpectedEndOfStream
  | invalidBlockTag
  | invalidColorTableSize
  | lzwCodeOutOfRange
  | lzwMissingEndOfInformation
  | imageTooLarge
  | ioFailure (e : IoError)
deriving DecidableEq, Repr

/-- SRC's answer to one read (00_scope.md R4). -/
inductive SrcAnswer where
  | byte (b : Byte)
  | eof
  | ioErr (e : IoError)
deriving DecidableEq, Repr

/-- SINK's answer to one write (00_scope.md R4). `kept` says whether SINK kept the byte of a failing write, which the
spec leaves open (20_memory.md R52). -/
inductive SinkAnswer where
  | ok
  | ioErr (e : IoError) (kept : Bool)
deriving DecidableEq, Repr

/-- What a command returns to the HOST (30_encoding.md R87, R91). -/
inductive Result where
  | ok
  | value (v : U32)
  | block (b : Block)
  | endOfBlocks
  | fail (k : ErrorKind)
  | indices (x : List Byte)
  | payload (p : List Byte)
deriving DecidableEq, Repr

/-- What the HOST does between commands: issue one (R90), or bind SRC or SINK (70_reset_and_hazards.md R202, log 16). -/
inductive HostAction where
  | command (q : Request)
  | bindSrc (answers : List SrcAnswer)
  | bindSink (answers : List SinkAnswer)
deriving DecidableEq, Repr

/-- The Block Parser (R21 to R24). -/
structure BpUnit where
  phase  : BpPhase
  pos    : Nat
  /-- The transient reassembly buffer (R24): empty when no BP_PULL runs. -/
  buf    : List Byte
  err    : Option ErrorKind
  errPos : Nat
deriving DecidableEq, Repr

/-- `bf.phase` (R25). -/
inductive BfPhase where
  | ready
  | failed
deriving DecidableEq, Repr

/-- The Block Framer (R25). -/
structure BfUnit where
  phase   : BfPhase
  pos     : Nat
  /-- The bytes of the running BF_PUSH not yet written (log 9): empty when no BF_PUSH runs. -/
  pending : List Byte
  err     : Option ErrorKind
  errPos  : Nat
deriving DecidableEq, Repr

/-- `ld.phase` and `le.phase` (R26, R28). -/
inductive LzwPhase where
  | idle
  | running
  | done
  | failed
deriving DecidableEq, Repr

/-- One dictionary entry: its own code, the prefix code and the appended index (R27). -/
structure Entry where
  code       : Code
  prefixCode : Code
  suffix     : Byte
deriving DecidableEq, Repr

/-- The cells of a dictionary that hold a value, newest first: the two arrays of R27, indexed by `code` (log 7). -/
abbrev Arena := List Entry

/-- The LZW Decoder (R26, R27). -/
structure LdUnit where
  phase  : LzwPhase
  m      : BitVec 4
  width  : BitVec 4
  next   : BitVec 13
  prev   : Option Code
  arena  : Arena
  input  : List Byte
  bitpos : Nat
  out    : List Byte
  maxOut : U32
  err    : Option ErrorKind
  errPos : Nat
deriving DecidableEq, Repr

/-- The LZW Encoder (R28, R29). -/
structure LeUnit where
  phase  : LzwPhase
  m      : BitVec 4
  width  : BitVec 4
  next   : BitVec 13
  cand   : Option Code
  dict   : Arena
  input  : List Byte
  inpos  : Nat
  acc    : Nat
  nacc   : Nat
  out    : List Byte
  err    : Option ErrorKind
  errPos : Nat
deriving DecidableEq, Repr

/-- BP after RESET (R37). -/
def BpUnit.reset : BpUnit := { phase := .expectHeader, pos := 0, buf := [], err := none, errPos := 0 }

/-- BF after RESET (R37). -/
def BfUnit.reset : BfUnit := { phase := .ready, pos := 0, pending := [], err := none, errPos := 0 }

/-- LD after RESET (R37). The run registers hold no value there: zero, None and empty are a DESIGN CHOICE (log 6). -/
def LdUnit.reset : LdUnit :=
  { phase := .idle, m := 0#4, width := 0#4, next := 0#13, prev := none, arena := [], input := [], bitpos := 0,
    out := [], maxOut := 0#32, err := none, errPos := 0 }

/-- LE after RESET (R37). The run registers hold no value there: zero, None and empty are a DESIGN CHOICE (log 6). -/
def LeUnit.reset : LeUnit :=
  { phase := .idle, m := 0#4, width := 0#4, next := 0#13, cand := none, dict := [], input := [], inpos := 0,
    acc := 0, nacc := 0, out := [], err := none, errPos := 0 }

/-- The whole machine: the units, the configuration register, and the interface. -/
structure State where
  /-- The OPEN parameters of this machine, never written (00_scope.md R8, log 5). -/
  params      : Config.Params
  bp          : BpUnit
  bf          : BfUnit
  ld          : LdUnit
  le          : LeUnit
  /-- `cfg.max_pixels` (R30). -/
  maxPixels   : U32
  /-- The unit whose command is running, if one is (00_scope.md R5, log 8). -/
  active      : Option UnitId
  /-- What the HOST does next, in order (log 8). -/
  host        : List HostAction
  /-- What the commands returned, oldest first (log 8). -/
  results     : List Result
  /-- SRC's answers to come; after them every read answers Eof (log 2), and so does a SRC never bound (log 26). -/
  src         : List SrcAnswer
  /-- The bytes SINK holds, first byte first (20_memory.md R52, log 3). -/
  sink        : List Byte
  /-- SINK's answers to come; after them every write answers Ok (log 3), and so does a SINK never bound (log 26). -/
  sinkAnswers : List SinkAnswer
deriving DecidableEq, Repr

/-- The machine right after it is created, which is RESET ALL (70_reset_and_hazards.md R200), with the spec's choice of
the OPEN parameters; no command is waiting and nothing has been read or written. The HOST has bound no stream yet (R202):
that BP_PULL then meets a SRC that answers Eof, and BF_PUSH a SINK that answers Ok and keeps the bytes, is a DESIGN CHOICE
(log 26). -/
def State.reset : State :=
  { params := Config.Params.spec, bp := BpUnit.reset, bf := BfUnit.reset, ld := LdUnit.reset, le := LeUnit.reset,
    maxPixels := Config.maxPixelsReset, active := none, host := [], results := [], src := [], sink := [],
    sinkAnswers := [] }

/-- Why the machine stops although an instruction is known. No run from reset reaches one. -/
inductive Fault where
  /-- A unit in phase `Failed` whose `err` register is None was given a command: the failure it would repeat was never
  recorded (10_state.md R23: `err` is Some exactly when the phase is Failed). Raised by the meanings of BP_PULL, BF_PUSH,
  LD_RUN and LE_RUN. Safe: the model stops (log 13). -/
  | noRecordedFailure
deriving DecidableEq, Repr

/-- Why the model gives a step no meaning (00_scope.md R14). -/
inductive Refusal where
  /-- An instruction that has no meaning yet. Raised by an arm of exec alone. Safe: the model stops. -/
  | notModelled (mnemonic : String)
  /-- A command word or operand the decoder rejects (30_encoding.md R92). Raised by the fetch of a command. Safe. -/
  | commandRejected (r : Reject)
  /-- A command given while another command of the same instance runs (70_reset_and_hazards.md R206). Raised by the
  meaning of every command. Safe. -/
  | overlappingCommand
  /-- BF_PUSH of a record that is not well formed (41_block_framer.md R122). Raised by the meaning of BF_PUSH. Safe. -/
  | illFormedRecord
  /-- A block form or code class given outside the context that selects it, which the fetch never does (log 12).
  Raised by the meanings of the block forms and code classes. Safe. -/
  | outOfContext
  /-- BP is active in a phase in which it expects no block; no run reaches this (log 12). Raised by the fetch of a
  block. Safe. -/
  | noBlockExpected
deriving DecidableEq, Repr

end Sys2Proof.Machine
end

