-- ==== Sys2Proof/Machine/Operands.lean ====
section
/-! DEFINITION. Pure functions of the operands: the field accessors of block records (40_block_parser.md R117 to R121),
the arithmetic primitives of 00_scope.md R11, the chunking of a payload (41_block_framer.md R136), the block grammar
(30_encoding.md R66), and the two computations the HOST owes the block (44_host_commands.md R179, R180). -/

namespace Sys2Proof.Machine

/-! ### Arithmetic primitives (00_scope.md R11) -/

/-- `bitlen(n)`: the number of binary digits, 0 for 0. -/
def bitlen (n : Nat) : Nat := if n = 0 then 0 else Nat.log2 n + 1

/-- `ceil_log2(n)`: the least `k` with `2^k >= n`. -/
def ceilLog2 (n : Nat) : Nat := if n ≤ 1 then 0 else Nat.log2 (n - 1) + 1

/-! ### LSD accessors (R117) -/

def gctFlag (r : ScreenDesc) : Bool := r.packed.getLsbD 7
def colorResolution (r : ScreenDesc) : BitVec 3 := r.packed.extractLsb' 4 3
def lsdSortFlag (r : ScreenDesc) : Bool := r.packed.getLsbD 3
def gctSizeField (r : ScreenDesc) : BitVec 3 := r.packed.extractLsb' 0 3
def gctEntries (r : ScreenDesc) : Nat := tableEntries (gctSizeField r)

/-! ### GCE accessors (R118) -/

/-- The disposal methods of 30_encoding.md R74; 4 to 7 are kept as the raw value. -/
inductive Disposal where
  | noAction
  | doNotDispose
  | restoreBackground
  | restorePrevious
  | reserved (d : BitVec 3)
deriving DecidableEq, Repr

/-- `D`, the table of 30_encoding.md R74. -/
def disposalOf (d : BitVec 3) : Disposal :=
  if d = 0#3 then .noAction
  else if d = 1#3 then .doNotDispose
  else if d = 2#3 then .restoreBackground
  else if d = 3#3 then .restorePrevious
  else .reserved d

def disposal (g : GraphicControl) : Disposal := disposalOf (g.packed.extractLsb' 2 3)
def userInput (g : GraphicControl) : Bool := g.packed.getLsbD 1
def transparencyFlag (g : GraphicControl) : Bool := g.packed.getLsbD 0

/-- The gating rule: the index is honoured only when the flag is set. -/
def transparentColor (g : GraphicControl) : Option Byte := if transparencyFlag g then some g.tindex else none

/-! ### ImageDescriptor accessors (R119) -/

def lctFlag (r : ImageDesc) : Bool := r.packed.getLsbD 7
def interlaced (r : ImageDesc) : Bool := r.packed.getLsbD 6
def idSortFlag (r : ImageDesc) : Bool := r.packed.getLsbD 5
def lctSizeField (r : ImageDesc) : BitVec 3 := r.packed.extractLsb' 0 3
def lctEntries (r : ImageDesc) : Nat := tableEntries (lctSizeField r)

/-! ### Colour table and application accessors (R120, R121) -/

/-- `size(t)` of a colour table (R120). -/
def tableSize (entries : List Rgb) : Nat := entries.length

/-- The identifier "NETSCAPE" (30_encoding.md R76). -/
def netscapeId : List Byte := [0x4E#8, 0x45#8, 0x54#8, 0x53#8, 0x43#8, 0x41#8, 0x50#8, 0x45#8]

/-- The authentication code "2.0" (30_encoding.md R76). -/
def netscapeAuth : List Byte := [0x32#8, 0x2E#8, 0x30#8]

/-- `loop_count(a)` (R121): `some 0` means infinite repetition; a block of another shape gives `none`. -/
def loopCount (a : AppExt) : Option U16 :=
  if a.appId = netscapeId ∧ a.auth = netscapeAuth then
    match a.subs with
    | [id, lo, hi] :: _ => if id = 1#8 then some (le16 lo hi) else none
    | _ => none
  else none

/-! ### Chunking (41_block_framer.md R136) -/

/-- `chunk255` over at most the given number of chunks. -/
def chunkFuel : Nat → List Byte → List (List Byte)
  | 0, _ => []
  | _ + 1, [] => []
  | fuel + 1, b :: p => (b :: p).take 255 :: chunkFuel fuel ((b :: p).drop 255)

/-- `chunk255(p)`: sub-blocks of 255 bytes, the last one shorter if need be, none of them empty. -/
def chunk255 (p : List Byte) : List (List Byte) := chunkFuel p.length p

/-! ### The block grammar (30_encoding.md R66) -/

/-- The phase after a block in the stream grammar, or `none` where the grammar does not allow it. -/
def grammarNext : BpPhase → Block → Option BpPhase
  | .expectHeader, .header _ => some .expectScreenDesc
  | .expectScreenDesc, .screenDesc r =>
    some (if gctFlag r then .expectGlobalTable (gctSizeField r) else .expectBody)
  | .expectGlobalTable k, .globalTable es => if es.length = tableEntries k then some .expectBody else none
  | .expectBody, .graphicControl _ => some .expectBody
  | .expectBody, .comment _ => some .expectBody
  | .expectBody, .appExt _ => some .expectBody
  | .expectBody, .plainText _ => some .expectBody
  | .expectBody, .imageDesc r => some (if lctFlag r then .expectLocalTable (lctSizeField r) else .expectImageData)
  | .expectLocalTable k, .localTable es => if es.length = tableEntries k then some .expectImageData else none
  | .expectImageData, .imageData _ => some .expectBody
  | .expectBody, .trailer => some .done
  | _, _ => none

/-- The blocks follow the grammar from the given phase to the Trailer. -/
def grammatical : BpPhase → List Block → Bool
  | .done, [] => true
  | _, [] => false
  | phase, b :: bs =>
    match grammarNext phase b with
    | some phase' => grammatical phase' bs
    | none => false

/-! ### Duties of the HOST (44_host_commands.md) -/

/-- `min_code_size(n) = max(2, ceil_log2(n))` for a palette of `n` entries (R179). -/
def minCodeSize (n : Nat) : Nat := max 2 (ceilLog2 n)

/-- The HOST's size guard (R180): `width * height <= cfg.max_pixels`, over unbounded naturals. -/
def sizeGuard (width height : U16) (maxPixels : U32) : Bool := decide (width.toNat * height.toNat ≤ maxPixels.toNat)

end Sys2Proof.Machine
end

