-- ==== Sys2Proof/Machine/Ops.lean ====
section
/-! DEFINITION. The named operations every meaning goes through: updates of the state, returning a result, failure
entry (60_exceptions.md R186) and RESET (44_host_commands.md R170), the stream primitives (00_scope.md R13), the guards
of the contexts, and the dictionary operations of LD and LE (10_state.md R27, R29). -/

namespace Sys2Proof.Machine

/-- What a step answers. -/
abbrev StepOutcome := Host.Outcome State Fault Refusal

/-! ### Updates of the state -/

/-- Replace the Block Parser. -/
def State.withBp (s : State) (u : BpUnit) : State := { s with bp := u }

/-- Replace the Block Framer. -/
def State.withBf (s : State) (u : BfUnit) : State := { s with bf := u }

/-- Replace the LZW Decoder. -/
def State.withLd (s : State) (u : LdUnit) : State := { s with ld := u }

/-- Replace the LZW Encoder. -/
def State.withLe (s : State) (u : LeUnit) : State := { s with le := u }

/-- Write `cfg.max_pixels` (10_state.md R30). -/
def State.withMaxPixels (s : State) (v : U32) : State := { s with maxPixels := v }

/-- Say which unit's command runs (00_scope.md R5). -/
def State.withActive (s : State) (a : Option UnitId) : State := { s with active := a }

/-- Replace what the HOST does next. -/
def State.withHost (s : State) (h : List HostAction) : State := { s with host := h }

/-- Hand a result to the HOST on the data channel (30_encoding.md R90). -/
def State.reply (s : State) (r : Result) : State := { s with results := s.results ++ [r] }

/-- Replace SRC's answers to come. -/
def State.withSrc (s : State) (a : List SrcAnswer) : State := { s with src := a }

/-- Replace SINK's bytes and its answers to come. -/
def State.withSink (s : State) (bs : List Byte) (a : List SinkAnswer) : State := { s with sink := bs, sinkAnswers := a }

/-- `return r` (00_scope.md R14): the command ends with result `r` and no unit runs any more. -/
def State.finish (s : State) (r : Result) : State := (s.reply r).withActive none

/-! ### Failure entry and RESET -/

/-- Failure entry (60_exceptions.md R186), shared by every unit: the unit enters Failed and records the kind and the
position; BP's buffer, BF's unwritten bytes, LD's and LE's output are dropped; the command returns `Fail(kind)`.
Nothing else changes. The state given is the one after the last completed micro-step, with the stream side effects of
the failing one (R191). -/
def raiseFail (u : UnitId) (k : ErrorKind) (info : Nat) (s : State) : State :=
  match u with
  | .bp => (s.withBp { s.bp with phase := .failed, buf := [], err := some k, errPos := info }).finish (.fail k)
  | .bf => (s.withBf { s.bf with phase := .failed, pending := [], err := some k, errPos := info }).finish (.fail k)
  | .ld => (s.withLd { s.ld with phase := .failed, out := [], err := some k, errPos := info }).finish (.fail k)
  | .le => (s.withLe { s.le with phase := .failed, out := [], err := some k, errPos := info }).finish (.fail k)

/-- A command to a unit in phase Failed returns the stored failure and writes nothing (60_exceptions.md R187). A
register `err` of None beside Failed is a state no run reaches, and stops the machine (log 13). -/
def repeatFail (err : Option ErrorKind) (s : State) : StepOutcome :=
  match err with
  | some k => .next (s.finish (.fail k))
  | none => .fault .noRecordedFailure

/-- RESET of one unit (70_reset_and_hazards.md R201), the only way out of Failed (60_exceptions.md R187). -/
def resetUnit (u : UnitId) (s : State) : State :=
  match u with
  | .bp => s.withBp BpUnit.reset
  | .bf => s.withBf BfUnit.reset
  | .ld => s.withLd LdUnit.reset
  | .le => s.withLe LeUnit.reset

/-- RESET ALL (R200): the four units and `cfg.max_pixels`. SRC, SINK and the HOST's side are untouched. -/
def resetAll (s : State) : State :=
  (resetUnit .le (resetUnit .ld (resetUnit .bf (resetUnit .bp s)))).withMaxPixels Config.maxPixelsReset

/-! ### Stream primitives (00_scope.md R13) -/

/-- `read1()`: one read of SRC, checked. `Byte(b)` counts in `bp.pos`; `Eof` and `IoErr` are failures of BP at the
position before them. The answer is used up whatever it is. -/
def read1 (s : State) : Except State (Byte × State) :=
  match s.src with
  | [] => .error (raiseFail .bp .unexpectedEndOfStream s.bp.pos s)
  | .byte b :: rest => .ok (b, (s.withSrc rest).withBp { s.bp with pos := s.bp.pos + 1 })
  | .eof :: rest => .error (raiseFail .bp .unexpectedEndOfStream s.bp.pos (s.withSrc rest))
  | .ioErr e :: rest => .error (raiseFail .bp (.ioFailure e) s.bp.pos (s.withSrc rest))

/-- `write1(b)`: one write to SINK, checked. `Ok` appends the byte and counts in `bf.pos`; `IoErr` is a failure of BF
at the position before it (41_block_framer.md R137), and SINK has kept the byte or not (20_memory.md R52). -/
def write1 (b : Byte) (s : State) : Except State State :=
  match s.sinkAnswers with
  | [] => .ok ((s.withSink (s.sink ++ [b]) []).withBf { s.bf with pos := s.bf.pos + 1 })
  | .ok :: rest => .ok ((s.withSink (s.sink ++ [b]) rest).withBf { s.bf with pos := s.bf.pos + 1 })
  | .ioErr e kept :: rest =>
    .error (raiseFail .bf (.ioFailure e) s.bf.pos (s.withSink (if kept then s.sink ++ [b] else s.sink) rest))

/-! ### Contexts -/

/-- A command is given while no command runs; otherwise it overlaps and is refused (70_reset_and_hazards.md R206). -/
def whenIdle (s : State) (o : StepOutcome) : StepOutcome :=
  match s.active with
  | none => o
  | some _ => .refused .overlappingCommand

/-- A block form has its meaning while BP runs, in the phase that selects it (40_block_parser.md R96). -/
def inBlockContext (i : Instr) (s : State) (o : StepOutcome) : StepOutcome :=
  if s.active = some .bp ∧ admits (.block s.bp.phase) i = true then o else .refused .outOfContext

/-- The context in which LD reads its next code (30_encoding.md R89). -/
def LdUnit.context (u : LdUnit) : Context := .code u.m.toNat u.next.toNat u.prev

/-- A code class has its meaning while LD runs, under the condition of R89 (42_lzw_decoder.md R141). -/
def inCodeContext (i : Instr) (s : State) (o : StepOutcome) : StepOutcome :=
  if s.active = some .ld ∧ admits s.ld.context i = true then o else .refused .outOfContext

/-! ### The dictionaries -/

/-- The cells `prefix[c]` and `suffix[c]` (10_state.md R27, R29), `none` where they hold no value. -/
def entryAt : Arena → Code → Option Entry
  | [], _ => none
  | e :: older, c => if e.code = c then some e else entryAt older c

/-- `seq(c)` (42_lzw_decoder.md R153): a root stands for itself, a stored code for its prefix's string and its suffix.
The entries stand newest first and every prefix is older than its entry, so the walk goes down the list. -/
def seqOf : Arena → Code → List Byte
  | [], c => [c.setWidth 8]
  | e :: older, c => if e.code = c then seqOf older e.prefixCode ++ [e.suffix] else seqOf older c

/-- `head(seq(c))` by following prefixes to the root (R154). -/
def firstOf : Arena → Code → Byte
  | [], c => c.setWidth 8
  | e :: older, c => if e.code = c then firstOf older e.prefixCode else firstOf older c

/-- `find(p, i)` (10_state.md R29): the stored code of the pair, if there is one. -/
def findPair : Arena → Code → Byte → Option Code
  | [], _, _ => none
  | e :: older, p, i => if e.prefixCode = p ∧ e.suffix = i then some e.code else findPair older p i

end Sys2Proof.Machine
end

