-- ==== Sys2Proof/Machine/BlockFramer.lean ====
section
/-! DEFINITION. The Block Framer (41_block_framer.md): the canonical bytes of a block, the meaning of BF_PUSH, and BF's
micro-step, one SINK write. -/

namespace Sys2Proof.Machine

/-- The canonical bytes of a block record (R125 to R136). -/
def frameBytes : Block → List Byte
  | .header v => headerBytes v
  | .screenDesc r => screenDescBytes r
  | .globalTable es => tableBytes es
  | .graphicControl r => graphicControlBytes r 0x00#8
  | .comment subs => [0x21#8, 0xFE#8] ++ subsBytes subs
  | .appExt r => appExtBytes r
  | .plainText subs => [0x21#8, 0x01#8] ++ subsBytes subs
  | .imageDesc r => imageDescBytes r
  | .localTable es => tableBytes es
  | .imageData r => r.m :: subsBytes (chunk255 r.payload)
  | .trailer => [0x3B#8]

/-- The record is a colour table whose entry count is not in {2, 4, ..., 256} (R127). -/
def badTableSize : Block → Bool
  | .globalTable es => !tableCountLegal es.length
  | .localTable es => !tableCountLegal es.length
  | _ => false

/-- BF_PUSH (R122): a Failed BF repeats its failure even for an ill-formed record (60_exceptions.md R190); an ill-formed
record is refused; a wrong table size fails before any byte is written; otherwise the block's bytes are to be written,
one a micro-step. -/
def execBfPush (b : Block) (s : State) : StepOutcome :=
  whenIdle s
    (match s.bf.phase with
      | .failed => repeatFail s.bf.err s
      | .ready =>
        if b.wf = false then .refused .illFormedRecord
        else if badTableSize b then .next (raiseFail .bf .invalidColorTableSize s.bf.pos s)
        else .next ((s.withBf { s.bf with pending := frameBytes b }).withActive (some .bf)))

/-- One micro-step of BF (00_scope.md R5): write the next byte; after the last one the push returns Ok (R122). -/
def bfMicroStep (s : State) : StepOutcome :=
  match s.bf.pending with
  | [] => .next (s.finish .ok)
  | b :: rest =>
    match write1 b s with
    | .error s' => .next s'
    | .ok s' =>
      match rest with
      | [] => .next ((s'.withBf { s'.bf with pending := [] }).finish .ok)
      | _ :: _ => .next (s'.withBf { s'.bf with pending := rest })

end Sys2Proof.Machine
end

