-- ==== Sys2Proof/Machine/BlockParser.lean ====
section
/-! DEFINITION. The meanings of the block forms BP reads (40_block_parser.md R99 to R113). The state given to a meaning is
the one after the read of the form's last byte: `bp.pos` counts every byte of it. -/

namespace Sys2Proof.Machine

/-- `return Block(b)` with the phase the block leaves (R96); the reassembly buffer is empty again (10_state.md R24). -/
def returnBlock (b : Block) (phase : BpPhase) (s : State) : StepOutcome :=
  .next ((s.withBp { s.bp with phase := phase, buf := [] }).finish (.block b))

/-- `raise Fail(kind, bp.pos)`. -/
def raiseBp (k : ErrorKind) (s : State) : StepOutcome := .next (raiseFail .bp k s.bp.pos s)

/-- "GIF" (30_encoding.md R68). -/
def gifSignature : List Byte := [0x47#8, 0x49#8, 0x46#8]

/-- "87a" (30_encoding.md R68). -/
def version87a : List Byte := [0x38#8, 0x37#8, 0x61#8]

/-- "89a" (30_encoding.md R68). -/
def version89a : List Byte := [0x38#8, 0x39#8, 0x61#8]

/-- Header (R99): all six bytes are read, then checked. -/
def execBlockHeader (raw : List Byte) (s : State) : StepOutcome :=
  inBlockContext (.blockHeader raw) s
    (if raw.take 3 ≠ gifSignature then raiseBp .malformedHeader s
    else if raw.drop 3 = version87a then returnBlock (.header .v87a) .expectScreenDesc s
    else if raw.drop 3 = version89a then returnBlock (.header .v89a) .expectScreenDesc s
    else raiseBp .malformedHeader s)

/-- LogicalScreenDescriptor (R100): bit 7 of the packed byte announces a table of `2^(k+1)` entries. -/
def execBlockScreenDesc (r : ScreenDesc) (s : State) : StepOutcome :=
  inBlockContext (.blockScreenDesc r) s
    (returnBlock (.screenDesc r) (if gctFlag r then .expectGlobalTable (gctSizeField r) else .expectBody) s)

/-- GlobalColorTable (R101). -/
def execBlockGlobalTable (entries : List Rgb) (s : State) : StepOutcome :=
  inBlockContext (.blockGlobalTable entries) s (returnBlock (.globalTable entries) .expectBody s)

/-- LocalColorTable (R110). -/
def execBlockLocalTable (entries : List Rgb) (s : State) : StepOutcome :=
  inBlockContext (.blockLocalTable entries) s (returnBlock (.localTable entries) .expectImageData s)

/-- GraphicControlExtension (R104): a size other than 4, or a byte other than 0 where the terminator belongs, fails at
that byte. -/
def execBlockGraphicControl (op : GceOperand) (s : State) : StepOutcome :=
  inBlockContext (.blockGraphicControl op) s
    (match op with
      | .wrongSize _ => raiseBp .invalidBlockTag s
      | .fields r terminator =>
        if terminator ≠ 0#8 then raiseBp .invalidBlockTag s else returnBlock (.graphicControl r) .expectBody s)

/-- CommentExtension (R105). -/
def execBlockComment (subs : List (List Byte)) (s : State) : StepOutcome :=
  inBlockContext (.blockComment subs) s (returnBlock (.comment subs) .expectBody s)

/-- ApplicationExtension (R106): a size other than 11 fails at that byte. -/
def execBlockAppExt (op : AppOperand) (s : State) : StepOutcome :=
  inBlockContext (.blockAppExt op) s
    (match op with
      | .wrongSize _ => raiseBp .invalidBlockTag s
      | .fields r => returnBlock (.appExt r) .expectBody s)

/-- PlainTextExtension (R107). -/
def execBlockPlainText (subs : List (List Byte)) (s : State) : StepOutcome :=
  inBlockContext (.blockPlainText subs) s (returnBlock (.plainText subs) .expectBody s)

/-- Unknown extension label (R108): it fails, and is not skipped. -/
def execBlockUnknownExt (label : Byte) (s : State) : StepOutcome :=
  inBlockContext (.blockUnknownExt label) s (raiseBp .invalidBlockTag s)

/-- ImageDescriptor (R109): bit 7 of the packed byte announces a local table. -/
def execBlockImageDesc (r : ImageDesc) (s : State) : StepOutcome :=
  inBlockContext (.blockImageDesc r) s
    (returnBlock (.imageDesc r) (if lctFlag r then .expectLocalTable (lctSizeField r) else .expectImageData) s)

/-- ImageData (R111): the record keeps the concatenation of the sub-blocks; `m` is not checked here. -/
def execBlockImageData (m : Byte) (subs : List (List Byte)) (s : State) : StepOutcome :=
  inBlockContext (.blockImageData m subs) s
    (returnBlock (.imageData { m := m, payload := subs.flatten }) .expectBody s)

/-- Trailer (R112). -/
def execBlockTrailer (s : State) : StepOutcome :=
  inBlockContext .blockTrailer s (returnBlock .trailer .done s)

/-- Invalid introducer (R113). -/
def execBlockInvalidIntroducer (t : Byte) (s : State) : StepOutcome :=
  inBlockContext (.blockInvalidIntroducer t) s (raiseBp .invalidBlockTag s)

end Sys2Proof.Machine
end

