-- ==== Sys2Proof/Machine/Flags.lean ====
section
/-! DEFINITION. The flags: the only ones are the phases and error records of the units (10_state.md R32), which the HOST
reads in the STATUS word (R31), computed here. -/

namespace Sys2Proof.Machine

/-- The 4-bit code of an error kind (60_exceptions.md R185). -/
def ErrorKind.code : ErrorKind → BitVec 4
  | .malformedHeader => 1#4
  | .unexpectedEndOfStream => 2#4
  | .invalidBlockTag => 3#4
  | .invalidColorTableSize => 4#4
  | .lzwCodeOutOfRange => 5#4
  | .lzwMissingEndOfInformation => 6#4
  | .imageTooLarge => 7#4
  | .ioFailure _ => 8#4

/-- STATUS.ERR: the code of `u.err`, 0 for None (R31). -/
def errBits : Option ErrorKind → BitVec 4
  | none => 0#4
  | some k => k.code

/-- STATUS.PH of BP (R31). -/
def bpPh : BpPhase → BitVec 2
  | .done => 2#2
  | .failed => 3#2
  | _ => 0#2

/-- STATUS.BPH (R31). -/
def bpBph : BpPhase → BitVec 3
  | .expectHeader => 0#3
  | .expectScreenDesc => 1#3
  | .expectGlobalTable _ => 2#3
  | .expectBody => 3#3
  | .expectLocalTable _ => 4#3
  | .expectImageData => 5#3
  | .done => 6#3
  | .failed => 7#3

/-- STATUS.PH of BF, which has no Done (R31). -/
def bfPh : BfPhase → BitVec 2
  | .ready => 0#2
  | .failed => 3#2

/-- STATUS.PH of LD and LE (R31). -/
def lzwPh : LzwPhase → BitVec 2
  | .idle => 0#2
  | .running => 1#2
  | .done => 2#2
  | .failed => 3#2

/-- `STATUS = PH | ERR << 4 | BPH << 8`, all other bits 0 (R31). -/
def statusBits (ph : BitVec 2) (err : BitVec 4) (bph : BitVec 3) : U32 :=
  ph.setWidth 32 ||| (err.setWidth 32 <<< 4) ||| (bph.setWidth 32 <<< 8)

/-- `STATUS(u)` (R31), computed from the unit. -/
def statusWord (u : UnitId) (s : State) : U32 :=
  match u with
  | .bp => statusBits (bpPh s.bp.phase) (errBits s.bp.err) (bpBph s.bp.phase)
  | .bf => statusBits (bfPh s.bf.phase) (errBits s.bf.err) 0#3
  | .ld => statusBits (lzwPh s.ld.phase) (errBits s.ld.err) 0#3
  | .le => statusBits (lzwPh s.le.phase) (errBits s.le.err) 0#3

end Sys2Proof.Machine
end

