-- ==== Sys2Proof/Machine/HostCommands.lean ====
section
/-! DEFINITION. The meanings of the commands that act on no stream and run no codec (44_host_commands.md R170 to R173),
and of BP_PULL, which starts a pull (R174). -/

namespace Sys2Proof.Machine

/-- RESET (R170): one unit, or all four and `cfg.max_pixels`. -/
def execReset (unit : UnitId) (all : Bool) (s : State) : StepOutcome :=
  whenIdle s (.next ((if all then resetAll s else resetUnit unit s).finish .ok))

/-- CFG_WRITE (R171): `cfg.max_pixels <- v`. -/
def execCfgWrite (v : U32) (s : State) : StepOutcome :=
  whenIdle s (.next ((s.withMaxPixels v).finish .ok))

/-- CFG_READ (R172). -/
def execCfgRead (s : State) : StepOutcome :=
  whenIdle s (.next (s.finish (.value s.maxPixels)))

/-- STATUS_READ (R173). -/
def execStatusRead (unit : UnitId) (s : State) : StepOutcome :=
  whenIdle s (.next (s.finish (.value (statusWord unit s))))

/-- BP_PULL (R174, 40_block_parser.md R96): Failed repeats the failure (R97), Done returns End (R98), and any other phase
begins to read the block it expects, with an empty reassembly buffer (10_state.md R24). -/
def execBpPull (s : State) : StepOutcome :=
  whenIdle s
    (match s.bp.phase with
      | .failed => repeatFail s.bp.err s
      | .done => .next (s.finish .endOfBlocks)
      | _ => .next ((s.withBp { s.bp with buf := [] }).withActive (some .bp)))

end Sys2Proof.Machine
end

