-- ==== Sys2Proof/Machine/LzwDecoder.lean ====
section
/-! DEFINITION. The LZW Decoder (42_lzw_decoder.md): starting a run, and the meanings of the seven code classes. A meaning
is given the state before the micro-step; it commits every write of the micro-step at once, `ld.bitpos` among them, or
none if it raises (00_scope.md R15), and then the position recorded is where the code started (R141). -/

namespace Sys2Proof.Machine

/-- LD's registers at the start of a run (R139). -/
def LdUnit.start (u : LdUnit) (m : Byte) (payload : List Byte) (maxOut : U32) : LdUnit :=
  { u with
    phase := .running, m := m.setWidth 4, width := (m + 1#8).setWidth 4,
    next := BitVec.ofNat 13 (firstFree m.toNat), prev := none, arena := [], input := payload, bitpos := 0, out := [],
    maxOut := maxOut }

/-- The range of `m` (00_scope.md R7): [2, 8]. -/
def codeSizeLegal (m : Byte) : Bool := decide (Config.mMin ≤ m.toNat) && decide (m.toNat ≤ Config.mMax)

/-- LD_RUN (44_host_commands.md R176, R139): a Failed LD repeats its failure; an M outside [2,8] fails before any bit is
read; otherwise every run register is set and LD runs. -/
def execLdRun (m : Byte) (payload : List Byte) (s : State) : StepOutcome :=
  whenIdle s
    (match s.ld.phase with
      | .failed => repeatFail s.ld.err s
      | _ =>
        if codeSizeLegal m then
          .next ((s.withLd (s.ld.start m payload s.maxPixels)).withActive (some .ld))
        else .next (raiseFail .ld .lzwCodeOutOfRange 0 s))

/-- `ld.bitpos <- p + w` (R140). -/
def LdUnit.advance (u : LdUnit) : LdUnit := { u with bitpos := u.bitpos + u.width.toNat }

/-- Width growth right after an insertion (R149). -/
def LdUnit.growWidth (u : LdUnit) : LdUnit :=
  if u.next.toNat = 2 ^ u.width.toNat ∧ u.width.toNat < Config.wMax then { u with width := u.width + 1#4 } else u

/-- `insert(p, k)` (R148). On a full dictionary the policy decides (R150): `Freeze` inserts nothing, `Fault` raises,
which is `none` here. -/
def LdUnit.insert (u : LdUnit) (policy : Config.FullDictPolicy) (p : Code) (k : Byte) : Option LdUnit :=
  if u.next.toNat < Config.dictCap then
    some ({ u with
      arena := { code := u.next.setWidth 12, prefixCode := p, suffix := k } :: u.arena,
      next := u.next + 1#13 } : LdUnit).growWidth
  else
    match policy with
    | .freeze => some u
    | .fault => none

/-- `raise Fail(kind, ld.bitpos - w)` in a micro-step: LD's own writes of it are discarded, so `ld.bitpos` is where the
code started (R141, 00_scope.md R15). -/
def raiseLd (k : ErrorKind) (s : State) : StepOutcome := .next (raiseFail .ld k s.ld.bitpos s)

/-- `check_limit(e)`, then append `e` and remember the code (R151 and the last line of R144 to R146). `u` holds what the
micro-step has written so far. -/
def outputString (e : List Byte) (c : Code) (u : LdUnit) (s : State) : StepOutcome :=
  if s.ld.maxOut.toNat < s.ld.out.length + e.length then raiseLd .imageTooLarge s
  else .next (s.withLd { u with out := u.out ++ e, prev := some c })

/-- Insert the pair, then put out the string (R145, R146): the insertion may raise first (60_exceptions.md R190). -/
def insertAndOutput (p : Code) (k : Byte) (e : List Byte) (c : Code) (s : State) : StepOutcome :=
  match s.ld.advance.insert s.params.fullDictPolicy p k with
  | none => raiseLd .lzwCodeOutOfRange s
  | some u => outputString e c u s

/-- CLEAR (R142): the dictionary and the width start again. -/
def execCodeClear (c : Code) (s : State) : StepOutcome :=
  inCodeContext (.codeClear c) s
    (.next (s.withLd { s.ld.advance with
      width := s.ld.m + 1#4, next := BitVec.ofNat 13 (firstFree s.ld.m.toNat), prev := none, arena := [] }))

/-- EOI (R143): the run ends and returns its output. -/
def execCodeEoi (c : Code) (s : State) : StepOutcome :=
  inCodeContext (.codeEoi c) s
    (.next ((s.withLd { s.ld.advance with phase := .done }).finish (.indices s.ld.out)))

/-- ROOT-FIRST (R144): no previous code, so nothing is inserted. -/
def execCodeRootFirst (c : Code) (s : State) : StepOutcome :=
  inCodeContext (.codeRootFirst c) s (outputString [c.setWidth 8] c s.ld.advance s)

/-- The common pseudocode of ROOT and DEFINED (R145): insert (previous code, first index of this one), put this one's
string out. -/
def knownCode (c : Code) (s : State) : StepOutcome :=
  match s.ld.prev with
  | none => .refused .outOfContext
  | some p => insertAndOutput p (firstOf s.ld.arena c) (seqOf s.ld.arena c) c s

/-- ROOT (R145). -/
def execCodeRoot (c : Code) (s : State) : StepOutcome :=
  inCodeContext (.codeRoot c) s (knownCode c s)

/-- DEFINED (R145). -/
def execCodeDefined (c : Code) (s : State) : StepOutcome :=
  inCodeContext (.codeDefined c) s (knownCode c s)

/-- KWKWK (R146): the code being defined stands for the previous string and its own first index. -/
def execCodeKwkwk (c : Code) (s : State) : StepOutcome :=
  inCodeContext (.codeKwkwk c) s
    (match s.ld.prev with
      | none => .refused .outOfContext
      | some p =>
        insertAndOutput p (firstOf s.ld.arena p) (seqOf s.ld.arena p ++ [firstOf s.ld.arena p]) c s)

/-- UNDEFINED (R147). -/
def execCodeUndefined (c : Code) (s : State) : StepOutcome :=
  inCodeContext (.codeUndefined c) s (raiseLd .lzwCodeOutOfRange s)

end Sys2Proof.Machine
end

