-- ==== Sys2Proof/Machine/LzwEncoder.lean ====
section
/-! DEFINITION. The LZW Encoder (43_lzw_encoder.md): starting a run, emitting codes, and LE's micro-step: one input
index, or the end of the input. -/

namespace Sys2Proof.Machine

/-- The inner loop of `emit` (R158): whole bytes leave the accumulator. The first argument bounds the number of bytes;
the number of bits held is always enough. -/
def LeUnit.drain : Nat → LeUnit → LeUnit
  | 0, u => u
  | fuel + 1, u =>
    if 8 ≤ u.nacc then
      LeUnit.drain fuel
        { u with out := u.out ++ [BitVec.ofNat 8 u.acc], acc := u.acc >>> 8, nacc := u.nacc - 8 }
    else u

/-- `emit(c)` (R158): append the code at the current width, least significant bit first. -/
def LeUnit.emit (c : Nat) (u : LeUnit) : LeUnit :=
  LeUnit.drain (u.nacc + u.width.toNat)
    { u with acc := u.acc ||| (c <<< u.nacc), nacc := u.nacc + u.width.toNat }

/-- `flush()` (R166): the last partial byte, its high bits 0. -/
def LeUnit.flush (u : LeUnit) : LeUnit :=
  { u with out := if 0 < u.nacc then u.out ++ [BitVec.ofNat 8 u.acc] else u.out, acc := 0, nacc := 0 }

/-- LE's registers at the start of a run (R157), before the leading clear. -/
def LeUnit.start (u : LeUnit) (m : Byte) (indices : List Byte) : LeUnit :=
  { u with
    phase := .running, m := m.setWidth 4, width := (m + 1#8).setWidth 4,
    next := BitVec.ofNat 13 (firstFree m.toNat), cand := none, dict := [], input := indices, inpos := 0, acc := 0,
    nacc := 0, out := [] }

/-- The leading clear (R157), `LEADING_CLEAR = true`. -/
def LeUnit.leadingClear (u : LeUnit) : LeUnit :=
  if Config.leadingClear then u.emit (clearOf u.m.toNat) else u

/-- LE_RUN (44_host_commands.md R177, R157): a Failed LE repeats its failure; an M outside [2,8] fails; otherwise every
register is set, the leading clear is emitted, and LE runs. -/
def execLeRun (m : Byte) (indices : List Byte) (s : State) : StepOutcome :=
  whenIdle s
    (match s.le.phase with
      | .failed => repeatFail s.le.err s
      | _ =>
        if codeSizeLegal m then
          .next ((s.withLe (s.le.start m indices).leadingClear).withActive (some .le))
        else .next (raiseFail .le .lzwCodeOutOfRange 0 s))

/-- The end of a run (R159, R165): emit EOI, flush, return the payload. -/
def leReturn (u : LeUnit) (s : State) : StepOutcome :=
  let u' := ((u.emit (eoiOf u.m.toNat)).flush)
  .next ((s.withLe { u' with phase := .done }).finish (.payload u'.out))

/-- The test of R163 and R165: one bit wider when code `c` is `2^width`, up to 12 bits. -/
def LeUnit.widenAt (c : Nat) (u : LeUnit) : LeUnit :=
  if c = 2 ^ u.width.toNat ∧ u.width.toNat < Config.wMax then { u with width := u.width + 1#4 } else u

/-- Proactive clear (R164): when `le.next` has reached 4096. -/
def LeUnit.clearIfFull (u : LeUnit) : LeUnit :=
  if u.next.toNat = Config.dictCap then
    { u.emit (clearOf u.m.toNat) with
      next := BitVec.ofNat 13 (firstFree u.m.toNat), width := u.m + 1#4, dict := [] }
  else u

/-- First index (R160). -/
def leFirstIndex (i : Byte) (s : State) : StepOutcome :=
  .next (s.withLe { s.le with cand := some (i.setWidth 12), inpos := s.le.inpos + 1 })

/-- Extend (R161): the candidate and the index are a stored pair. -/
def leExtend (c : Code) (s : State) : StepOutcome :=
  .next (s.withLe { s.le with cand := some c, inpos := s.le.inpos + 1 })

/-- `le.prefix[next] <- p; le.suffix[next] <- i`, the width test on that code, `le.next <- next + 1` (R162). -/
def LeUnit.insert (p : Code) (i : Byte) (u : LeUnit) : LeUnit :=
  { u.widenAt u.next.toNat with
    dict := { code := u.next.setWidth 12, prefixCode := p, suffix := i } :: u.dict,
    next := u.next + 1#13 }

/-- Miss (R162): emit the candidate, insert the pair, clear if full, restart from the index. -/
def leMiss (p : Code) (i : Byte) (s : State) : StepOutcome :=
  let u := ((s.le.emit p.toNat).insert p i).clearIfFull
  .next (s.withLe { u with cand := some (i.setWidth 12), inpos := s.le.inpos + 1 })

/-- End of input with a candidate (R165): emit it, apply LD's width test, then EOI. -/
def leEndOfInput (p : Code) (s : State) : StepOutcome :=
  let u := s.le.emit p.toNat
  leReturn (u.widenAt u.next.toNat) s

/-- An index of `2^m` or more fails at its position (R160 to R162). -/
def raiseLe (s : State) : StepOutcome := .next (raiseFail .le .lzwCodeOutOfRange s.le.inpos s)

/-- One micro-step of LE (00_scope.md R5): R159 to R165, the index's range checked before its lookup (60_exceptions.md
R190). -/
def leMicroStep (s : State) : StepOutcome :=
  match s.le.input[s.le.inpos]? with
  | none =>
    match s.le.cand with
    | none => leReturn s.le s
    | some p => leEndOfInput p s
  | some i =>
    if 2 ^ s.le.m.toNat ≤ i.toNat then raiseLe s
    else
      match s.le.cand with
      | none => leFirstIndex i s
      | some p =>
        match findPair s.le.dict p i with
        | some c => leExtend c s
        | none => leMiss p i s

end Sys2Proof.Machine
end

