-- ==== Sys2Proof/Machine/Dispatch.lean ====
section
/-! DEFINITION. The dispatch: one arm per constructor of Instr, each one call of that instruction's meaning. -/

namespace Sys2Proof.Machine

def exec (i : Instr) (s : State) : Host.Outcome State Fault Refusal :=
  match i with
  -- commands
  | .reset unit all => Sys2Proof.Machine.execReset unit all s
  | .cfgWrite v => Sys2Proof.Machine.execCfgWrite v s
  | .cfgRead => Sys2Proof.Machine.execCfgRead s
  | .statusRead unit => Sys2Proof.Machine.execStatusRead unit s
  | .bpPull => Sys2Proof.Machine.execBpPull s
  | .bfPush b => Sys2Proof.Machine.execBfPush b s
  | .ldRun m payload => Sys2Proof.Machine.execLdRun m payload s
  | .leRun m indices => Sys2Proof.Machine.execLeRun m indices s
  -- block forms
  | .blockHeader raw => Sys2Proof.Machine.execBlockHeader raw s
  | .blockScreenDesc r => Sys2Proof.Machine.execBlockScreenDesc r s
  | .blockGlobalTable entries => Sys2Proof.Machine.execBlockGlobalTable entries s
  | .blockLocalTable entries => Sys2Proof.Machine.execBlockLocalTable entries s
  | .blockGraphicControl op => Sys2Proof.Machine.execBlockGraphicControl op s
  | .blockComment subs => Sys2Proof.Machine.execBlockComment subs s
  | .blockAppExt op => Sys2Proof.Machine.execBlockAppExt op s
  | .blockPlainText subs => Sys2Proof.Machine.execBlockPlainText subs s
  | .blockUnknownExt label => Sys2Proof.Machine.execBlockUnknownExt label s
  | .blockImageDesc r => Sys2Proof.Machine.execBlockImageDesc r s
  | .blockImageData m subs => Sys2Proof.Machine.execBlockImageData m subs s
  | .blockTrailer => Sys2Proof.Machine.execBlockTrailer s
  | .blockInvalidIntroducer t => Sys2Proof.Machine.execBlockInvalidIntroducer t s
  -- code classes
  | .codeClear c => Sys2Proof.Machine.execCodeClear c s
  | .codeEoi c => Sys2Proof.Machine.execCodeEoi c s
  | .codeRootFirst c => Sys2Proof.Machine.execCodeRootFirst c s
  | .codeRoot c => Sys2Proof.Machine.execCodeRoot c s
  | .codeDefined c => Sys2Proof.Machine.execCodeDefined c s
  | .codeKwkwk c => Sys2Proof.Machine.execCodeKwkwk c s
  | .codeUndefined c => Sys2Proof.Machine.execCodeUndefined c s

end Sys2Proof.Machine
end

