-- ==== Sys2Proof/Machine/Fetch.lean ====
section
/-! DEFINITION. What the machine reads next (00_scope.md R5): a command of the HOST when no unit runs, one byte of SRC
when BP runs, one code when LD runs; BF's and LE's micro-steps read no instruction. -/

namespace Sys2Proof.Machine

/-- What a fetch gives: an instruction to run in a state, or a step that runs none. -/
inductive Fetched where
  | run (i : Instr) (s : State)
  | act (o : StepOutcome)

/-- No unit runs. With nothing from the HOST the machine waits and keeps all its state (60_exceptions.md R199); it binds
SRC or SINK as the HOST asks (70_reset_and_hazards.md R202); it decodes a command, or refuses it before any unit sees
it (30_encoding.md R92). -/
def fetchCommand (s : State) : Fetched :=
  match s.host with
  | [] => .act (.next s)
  | .bindSrc answers :: rest => .act (.next ((s.withHost rest).withSrc answers))
  | .bindSink answers :: rest => .act (.next ((s.withHost rest).withSink [] answers))
  | .command q :: rest =>
    match decodeCommand q with
    | .command i => .run i (s.withHost rest)
    | .reject r => .act (.refused (.commandRejected r))

/-- One more byte would exceed `MAX_BLOCK_BYTES` (40_block_parser.md R115). -/
def bufferFull (s : State) : Bool :=
  match s.params.maxBlockBytes with
  | none => false
  | some n => decide (n < s.bp.buf.length + 1)

/-- BP's micro-step: one read of SRC (00_scope.md R5, R13). A byte that would pass the buffer's bound fails where it was
read, and counts (R115, 60_exceptions.md R189, log 11); a byte that completes a block form runs it (40_block_parser.md
R96). -/
def fetchBlock (s : State) : Fetched :=
  match read1 s with
  | .error s' => .act (.next s')
  | .ok (b, s') =>
    if bufferFull s then .act (.next (raiseFail .bp .imageTooLarge s'.bp.pos s'))
    else
      let s'' := s'.withBp { s'.bp with buf := s'.bp.buf ++ [b] }
      match decodeBlock s''.bp.phase s''.bp.buf with
      | .incomplete => .act (.next s'')
      | .complete i _ => .run i s''
      | .noBlock => .act (.refused .noBlockExpected)

/-- LD's micro-step (42_lzw_decoder.md R140): with fewer than `ld.width` bits left the run fails where the read was tried;
otherwise the code's class is the instruction. -/
def fetchCode (s : State) : Fetched :=
  if 8 * s.ld.input.length < s.ld.bitpos + s.ld.width.toNat then
    .act (.next (raiseFail .ld .lzwMissingEndOfInformation s.ld.bitpos s))
  else
    .run
      (decodeCode s.ld.m.toNat s.ld.next.toNat s.ld.prev
        (BitVec.ofNat 12 (codeAt s.ld.input s.ld.bitpos s.ld.width.toNat)))
      s

/-- The next micro-step, by the unit that runs. -/
def fetch (s : State) : Fetched :=
  match s.active with
  | none => fetchCommand s
  | some .bp => fetchBlock s
  | some .bf => .act (bfMicroStep s)
  | some .ld => fetchCode s
  | some .le => .act (leMicroStep s)

/-! ### Placing an opcode-table row where the next step reads it (log 14) -/

/-- The bytes of the block a table row begins: as many as the decoder takes. -/
def tableRowBytes (nbits w : Nat) : List Byte :=
  match decodeBlock (tablePhase (tableBlockBytes nbits w)) (tableBlockBytes nbits w) with
  | .complete _ rest => (tableBlockBytes nbits w).take ((tableBlockBytes nbits w).length - rest.length)
  | _ => tableBlockBytes nbits w

/-- The HOST's next action is this command; no unit runs. -/
def placeCommand (w : Nat) (s : State) : State :=
  (s.withHost (.command (tableRequest w) :: s.host)).withActive none

/-- BP has read all but the last byte of the block, and SRC answers that byte next. -/
def placeBlock (nbits w : Nat) (s : State) : State :=
  let bs := tableRowBytes nbits w
  ((s.withBp { s.bp with phase := tablePhase bs, buf := bs.dropLast }).withSrc
    ((bs.drop (bs.length - 1)).map SrcAnswer.byte ++ s.src)).withActive (some .bp)

end Sys2Proof.Machine
end

