-- ==== Sys2Proof/Machine/Step.lean ====
section
/-! DEFINITION. One step of the machine: one micro-step of 00_scope.md R5, or the acceptance of one command. -/

namespace Sys2Proof.Machine

/-- Read what comes next and run it (log 1). -/
def step (s : State) : Host.Outcome State Fault Refusal :=
  match fetch s with
  | .run i s' => exec i s'
  | .act o => o

/-- The state with a row of spec/opcode_table.json placed so that the very next step runs it: a command as the HOST's
next action; a block with all but its last byte in BP's buffer and that byte next from SRC (log 14). -/
def State.withFetchWord (s : State) (nbits w : Nat) : State :=
  if nbits = 32 then placeCommand w s else placeBlock nbits w s

end Sys2Proof.Machine
end

