-- ==== Sys2Proof/Safety.lean ====
section
/-! DEFINITION. The terms in which claims are made: the next state of an outcome, runs of several steps, and the
invariant `State.Inv` that rules out the states no run reaches (10_state.md R23, R24, R36 and the states between the
micro-steps of one command, 00_scope.md R5). -/

namespace Sys2Proof.Machine

/-- The next state, where there is one. -/
def nextOf : StepOutcome → Option State
  | .next s => some s
  | .fault _ => none
  | .refused _ => none

/-- `n` steps, stopping at the first fault or refusal. -/
def stepN : Nat → State → StepOutcome
  | 0, s => .next s
  | n + 1, s =>
    match step s with
    | .next s' => stepN n s'
    | .fault r => .fault r
    | .refused r => .refused r

/-- The stream answers these bytes, one a read. -/
def srcOf (bs : List Byte) : List SrcAnswer := bs.map SrcAnswer.byte

/-- Every answer of SINK to come is Ok: SINK never fails. That Ok goes on after the last answer (log 3), and that a SINK
never bound is such a SINK (log 26), is the model's choice. -/
def sinkNeverFails (s : State) : Prop := ∀ a ∈ s.sinkAnswers, a = SinkAnswer.ok

/-! ### The dictionaries -/

/-- A data code below `bound`: a root or a stored code, neither the clear code nor the EOI code. -/
def dataCode (m bound : Nat) (c : Code) : Bool :=
  decide (c.toNat < bound) && decide (c.toNat ≠ clearOf m) && decide (c.toNat ≠ eoiOf m)

/-- The canonical form of a dictionary whose next code is `next` (10_state.md R27, R36): newest first, one entry for
every code from the first assignable one up to `next`, each prefix an older data code, each suffix an index. -/
def Arena.wf (m : Nat) : Nat → Arena → Bool
  | next, [] => next == firstFree m
  | next, e :: older =>
    e.code.toNat + 1 == next && decide (firstFree m ≤ e.code.toNat) && dataCode m e.code.toNat e.prefixCode
      && decide (e.suffix.toNat < 2 ^ m) && Arena.wf m e.code.toNat older

/-- No two entries hold the same pair (10_state.md R29). -/
def pairsDistinct (d : Arena) : Prop := (d.map fun e => (e.prefixCode, e.suffix)).Nodup

/-! ### What holds of a unit -/

/-- LD's registers during and after a run (10_state.md R36, 42_lzw_decoder.md R149, R193 of 60_exceptions.md). -/
structure LdUnit.RunInv (u : LdUnit) : Prop where
  m_range    : Config.mMin ≤ u.m.toNat ∧ u.m.toNat ≤ Config.mMax
  next_range : firstFree u.m.toNat ≤ u.next.toNat ∧ u.next.toNat ≤ Config.dictCap
  width_eq   : u.width.toNat = min Config.wMax (bitlen u.next.toNat)
  arena_wf   : Arena.wf u.m.toNat u.next.toNat u.arena = true
  prev_data  : ∀ p, u.prev = some p → dataCode u.m.toNat u.next.toNat p = true
  prev_none  : u.prev = none → u.next.toNat = firstFree u.m.toNat
  bitpos_le  : u.bitpos ≤ 8 * u.input.length
  out_range  : ∀ i ∈ u.out, i.toNat < 2 ^ u.m.toNat
  out_limit  : u.out.length ≤ u.maxOut.toNat

/-- LE's registers during and after a run, but for the current width (10_state.md R36, R29). -/
structure LeUnit.RunInv (u : LeUnit) : Prop where
  m_range     : Config.mMin ≤ u.m.toNat ∧ u.m.toNat ≤ Config.mMax
  next_range  : firstFree u.m.toNat ≤ u.next.toNat ∧ u.next.toNat < Config.dictCap
  width_range : u.m.toNat + 1 ≤ u.width.toNat ∧ u.width.toNat ≤ Config.wMax
  dict_wf     : Arena.wf u.m.toNat u.next.toNat u.dict = true
  dict_pairs  : pairsDistinct u.dict
  cand_data   : ∀ p, u.cand = some p → dataCode u.m.toNat u.next.toNat p = true
  nacc_lt     : u.nacc < 8
  acc_lt      : u.acc < 2 ^ u.nacc
  inpos_le    : u.inpos ≤ u.input.length

/-- The kinds each unit can raise (60_exceptions.md R188). -/
def mayRaise : UnitId → ErrorKind → Bool
  | .bp, .malformedHeader => true
  | .bp, .unexpectedEndOfStream => true
  | .bp, .invalidBlockTag => true
  | .bp, .imageTooLarge => true
  | .bp, .ioFailure _ => true
  | .bf, .invalidColorTableSize => true
  | .bf, .ioFailure _ => true
  | .ld, .lzwCodeOutOfRange => true
  | .ld, .lzwMissingEndOfInformation => true
  | .ld, .imageTooLarge => true
  | .le, .lzwCodeOutOfRange => true
  | _, _ => false

/-- BP, while a BP_PULL runs or not: an error record exactly when Failed (10_state.md R23), of a kind R188 lets it raise
and at the bytes consumed (60_exceptions.md R189); the buffer empty between commands (R24) and holding no whole block
during one (40_block_parser.md R116). -/
structure BpUnit.Inv (u : BpUnit) (running : Prop) : Prop where
  err_iff  : u.err.isSome = true ↔ u.phase = .failed
  err_kind : ∀ k, u.err = some k → mayRaise .bp k = true
  err_at   : u.phase = .failed → u.errPos = u.pos
  idle     : ¬running → u.buf = []
  reading  : running → decodeBlock u.phase u.buf = .incomplete

/-- BF, while a BF_PUSH runs or not: as BP, and bytes are left to write exactly while one runs. -/
structure BfUnit.Inv (u : BfUnit) (running : Prop) : Prop where
  err_iff  : u.err.isSome = true ↔ u.phase = .failed
  err_kind : ∀ k, u.err = some k → mayRaise .bf k = true
  err_at   : u.phase = .failed → u.errPos = u.pos
  idle     : ¬running → u.pending = []
  writing  : running → u.phase = .ready ∧ u.pending ≠ []

/-- LD, while an LD_RUN runs or not: the phase says so (10_state.md R26), and no output is left in Failed
(60_exceptions.md R186). -/
structure LdUnit.Inv (u : LdUnit) (running : Prop) : Prop where
  err_iff  : u.err.isSome = true ↔ u.phase = .failed
  err_kind : ∀ k, u.err = some k → mayRaise .ld k = true
  run_iff  : running ↔ u.phase = .running
  run      : u.phase = .running ∨ u.phase = .done → u.RunInv
  failed   : u.phase = .failed → u.out = []

/-- LE, while an LE_RUN runs or not: as LD, and the width of the next code (43_lzw_encoder.md R163); there is a candidate
once an index has been taken. -/
structure LeUnit.Inv (u : LeUnit) (running : Prop) : Prop where
  err_iff  : u.err.isSome = true ↔ u.phase = .failed
  err_kind : ∀ k, u.err = some k → mayRaise .le k = true
  run_iff  : running ↔ u.phase = .running
  run      : u.phase = .running ∨ u.phase = .done → u.RunInv
  width    : u.phase = .running → u.width.toNat = min Config.wMax (bitlen (u.next.toNat - 1))
  started  : u.phase = .running → (u.cand = none ↔ u.inpos = 0)
  failed   : u.phase = .failed → u.out = []

/-- What one step may rely on: the four units as their running commands left them, and every block returned well formed
(40_block_parser.md R116). -/
structure State.Inv (s : State) : Prop where
  bp     : s.bp.Inv (s.active = some .bp)
  bf     : s.bf.Inv (s.active = some .bf)
  ld     : s.ld.Inv (s.active = some .ld)
  le     : s.le.Inv (s.active = some .le)
  blocks : ∀ b, Result.block b ∈ s.results → b.wf = true

end Sys2Proof.Machine
end

