-- ==== Sys2Proof/Certificates/Slice0/Obligations.lean ====
section
/-! DEFINITION. The statements for the provers, from the numbered rules of spec/. "The model's choice" in a docstring
names a clause that rests on an assumption log entry and not on a rule. A next state is written with the updates of
Machine/Ops.lean: `s.finish r` returns result `r`, and no unit runs after it. Every field an update does not name is
unchanged, so an equation for the next state is also its frame. -/

open Sys2Proof Sys2Proof.Machine

/-! ### Encodings -/

/-- R90, R91: the words of the eight commands and their decodings are inverse to each other, every field and operand at
every value. -/
def Obligations.CommandsDecodeAndEncodeAgree : Prop :=
  (∀ i : Instr, i.wf = true → admits .command i = true → decode .command (encode i) = some i) ∧
  (∀ (w : Words) (i : Instr), decode .command w = some i → encode i = w ∧ i.wf = true ∧ admits .command i = true)

/-- R65 to R84: the bytes of every well-formed block form, in a phase that admits it, decode to that form whatever
follows them. -/
def Obligations.BlockFormsDecodeWhatTheyEncode : Prop :=
  ∀ (phase : BpPhase) (i : Instr) (bs rest : List Byte),
    i.wf = true → admits (.block phase) i = true → encode i = .bytes bs →
      decodeBlock phase (bs ++ rest) = .complete i rest

/-- R65 to R84: what the block decoder completes is a well-formed form that the phase admits, and its bytes are the
encoding of it: no byte is dropped or read as another form. -/
def Obligations.BlockDecodingLosesNoByte : Prop :=
  ∀ (phase : BpPhase) (i : Instr) (bs rest : List Byte),
    decodeBlock phase bs = .complete i rest →
      i.wf = true ∧ admits (.block phase) i = true ∧ ∃ used, encode i = .bytes used ∧ bs = used ++ rest

/-- R84, R116: no block form is complete before its last byte, so BP never reads past the block it returns. -/
def Obligations.BlockFormsEndAtTheirLastByte : Prop :=
  ∀ (phase : BpPhase) (i : Instr) (bs : List Byte),
    i.wf = true → admits (.block phase) i = true → encode i = .bytes bs →
      ∀ n, n < bs.length → decodeBlock phase (bs.take n) = .incomplete

/-- R89: the class of a code, by the seven conditions of the table, for every value of `ld.m`, of `ld.prev` and of
`ld.next` in its range (R26); with these conditions exactly one class applies. -/
def Obligations.CodeClassesFollowTheTable : Prop :=
  ∀ (m next : Nat) (prev : Option Code) (c : Code), firstFree m ≤ next →
    (decodeCode m next prev c = .codeClear c ↔ c.toNat = 2 ^ m) ∧
    (decodeCode m next prev c = .codeEoi c ↔ c.toNat = 2 ^ m + 1) ∧
    (decodeCode m next prev c = .codeRootFirst c ↔ c.toNat < 2 ^ m ∧ prev = none) ∧
    (decodeCode m next prev c = .codeRoot c ↔ c.toNat < 2 ^ m ∧ prev ≠ none) ∧
    (decodeCode m next prev c = .codeDefined c ↔ 2 ^ m + 1 < c.toNat ∧ c.toNat < next ∧ prev ≠ none) ∧
    (decodeCode m next prev c = .codeKwkwk c ↔ c.toNat = next ∧ prev ≠ none ∧ next ≤ 4095) ∧
    (decodeCode m next prev c = .codeUndefined c ↔ 2 ^ m + 1 < c.toNat ∧ (prev = none ∨ next < c.toNat)) ∧
    (decodeCode m next prev c ∈ [.codeClear c, .codeEoi c, .codeRootFirst c, .codeRoot c, .codeDefined c, .codeKwkwk c,
      .codeUndefined c])

/-- The rows of spec/opcode_table.json for the commands: a word is the command exactly when `word & mask = match` (and,
for RESET, not ALL with a UNIT), given an operand of the command's kind. -/
def Obligations.CommandRowsMatchTheTable : Prop :=
  ∀ (w : U32),
    ((∃ u a, decodeCommand ⟨w, .none⟩ = .command (.reset u a)) ↔
      w &&& 0xFFF8FFFF#32 = 0x00000001#32 ∧ ¬(w.getLsbD 18 = true ∧ w.extractLsb' 16 2 ≠ 0#2)) ∧
    (∀ v, decodeCommand ⟨w, .value v⟩ = .command (.cfgWrite v) ↔ w = 0x00000002#32) ∧
    (decodeCommand ⟨w, .none⟩ = .command .cfgRead ↔ w = 0x00000003#32) ∧
    ((∃ u, decodeCommand ⟨w, .none⟩ = .command (.statusRead u)) ↔ w &&& 0xFFFCFFFF#32 = 0x00000004#32) ∧
    (decodeCommand ⟨w, .none⟩ = .command .bpPull ↔ w = 0x00000010#32) ∧
    (∀ b, decodeCommand ⟨w, .record b⟩ = .command (.bfPush b) ↔ w = 0x00000020#32) ∧
    (∀ p, (∃ m, decodeCommand ⟨w, .bytes p⟩ = .command (.ldRun m p)) ↔ w &&& 0xFFFF00FF#32 = 0x00000030#32) ∧
    (∀ x, (∃ m, decodeCommand ⟨w, .indices x⟩ = .command (.leRun m x)) ↔ w &&& 0xFFFF00FF#32 = 0x00000040#32)

/-- Words written out from the spec's encodings decode to what they stand for: command words of 44_host_commands.md and
95_test_vectors.md (V-HC-9, V-HC-11 to V-HC-17), block bytes of R99 to R113, codes of V-LD-1 and V-LD-6. -/
def Obligations.WordsOfTheSpecDecode : Prop :=
  decodeCommand ⟨0x00040001#32, .none⟩ = .command (.reset .bp true) ∧
  decodeCommand ⟨0x00010001#32, .none⟩ = .command (.reset .bf false) ∧
  decodeCommand ⟨0x00000230#32, .bytes [0x44#8]⟩ = .command (.ldRun 2#8 [0x44#8]) ∧
  decodeCommand ⟨0x00000840#32, .indices [255#8]⟩ = .command (.leRun 8#8 [255#8]) ∧
  decodeCommand ⟨0x00000005#32, .none⟩ = .reject .unknownOpcode ∧
  decodeCommand ⟨0x00010010#32, .none⟩ = .reject .fieldNotZero ∧
  decodeCommand ⟨0x00000210#32, .none⟩ = .reject .fieldNotZero ∧
  decodeCommand ⟨0x00050001#32, .none⟩ = .reject .allWithUnit ∧
  decodeCommand ⟨0x00080001#32, .none⟩ = .reject .fieldNotZero ∧
  decodeBlock .expectBody [0x21#8, 0xF9#8, 0x04#8, 0x05#8, 0x0A#8, 0x00#8, 0x03#8, 0x00#8] =
    .complete (.blockGraphicControl (.fields ⟨0x05#8, 10#16, 3#8⟩ 0#8)) [] ∧
  decodeBlock .expectScreenDesc [0x34#8, 0x12#8, 0xFF#8, 0x00#8, 0x80#8, 0x01#8, 0x02#8] =
    .complete (.blockScreenDesc ⟨0x1234#16, 0x00FF#16, 0x80#8, 1#8, 2#8⟩) [] ∧
  decodeBlock .expectBody [0x21#8, 0xFE#8, 0x02#8, 0x68#8, 0x69#8, 0x00#8] =
    .complete (.blockComment [[0x68#8, 0x69#8]]) [] ∧
  decodeCode 2 6 (some 0#12) (BitVec.ofNat 12 (codeAt [0x84#8, 0x0B#8] 6 3)) = .codeKwkwk 6#12

/-- R92: with an operand of the kind R91 gives the opcode, a command word is refused exactly in the three cases of the
rule, and the step that meets it refuses and so changes no state. An M outside [2,8] is no such case. -/
def Obligations.CommandWordsRefusedInThreeCases : Prop :=
  ∀ (s : State) (q : Request) (rest : List HostAction),
    s.active = none → s.host = .command q :: rest →
    (opcodeOf (opField q.word) = none ∨
      (∃ o, opcodeOf (opField q.word) = some o ∧ attachOperand o q.word q.operand ≠ .reject .wrongOperand)) →
    ((∃ r, step s = .refused (.commandRejected r)) ↔
      opField q.word ∉ [0x01#8, 0x02#8, 0x03#8, 0x04#8, 0x10#8, 0x20#8, 0x30#8, 0x40#8] ∨
      reservedField q.word ≠ 0#13 ∨
      (mField q.word ≠ 0#8 ∧ opField q.word ∉ [0x30#8, 0x40#8]) ∨
      (unitField q.word ≠ 0#2 ∧ opField q.word ∉ [0x01#8, 0x04#8]) ∨
      (allField q.word ≠ 0#1 ∧ opField q.word ≠ 0x01#8) ∨
      (allField q.word = 1#1 ∧ unitField q.word ≠ 0#2))

/-! ### The step -/

/-- A step runs the instruction that is read. A command: when no unit runs, the HOST's next action is taken off and the
command runs. A block form: when BP runs, one more byte is taken from SRC and counted, and the form it completes runs
with the buffer at hand. A code: when LD runs and enough bits are left, the class of the next `ld.width` bits runs. -/
def Obligations.StepRunsTheDecodedInstruction : Prop :=
  (∀ (s : State) (q : Request) (rest : List HostAction) (i : Instr),
    s.active = none → s.host = .command q :: rest → decodeCommand q = .command i →
      step s = exec i (s.withHost rest)) ∧
  (∀ (s : State) (b : Byte) (rest : List SrcAnswer) (i : Instr) (more : List Byte),
    s.active = some .bp → s.src = .byte b :: rest →
    (∀ n, s.params.maxBlockBytes = some n → s.bp.buf.length + 1 ≤ n) →
    decodeBlock s.bp.phase (s.bp.buf ++ [b]) = .complete i more →
      step s = exec i ((s.withSrc rest).withBp { s.bp with pos := s.bp.pos + 1, buf := s.bp.buf ++ [b] })) ∧
  (∀ (s : State), s.active = some .ld → s.ld.bitpos + s.ld.width.toNat ≤ 8 * s.ld.input.length →
      step s = exec (decodeCode s.ld.m.toNat s.ld.next.toNat s.ld.prev
        (BitVec.ofNat 12 (codeAt s.ld.input s.ld.bitpos s.ld.width.toNat))) s)

/-- R199 and 93_implementation_defined.md I23: between commands the block does nothing. That such a gap is a step is
the model's choice (log 20). -/
def Obligations.IdleStepChangesNothing : Prop :=
  ∀ s : State, s.active = none → s.host = [] → step s = .next s

/-- R206: a command given while another one runs is refused, whichever it is. -/
def Obligations.OverlappingCommandIsRefused : Prop :=
  ∀ (s : State) (i : Instr), admits .command i = true → s.active ≠ none →
    exec i s = .refused .overlappingCommand

/-- BP's reads (00_scope.md R13, R115): a byte that completes nothing is buffered and counted; one that would pass the
buffer's bound fails with ImageTooLarge; Eof and IoErr fail at the position before them. That the byte that passes the
bound is taken and counted is the model's choice (log 11), and so is Eof after the last answer of SRC (log 2) or
from a SRC never bound (log 26). -/
def Obligations.ParserReadsOneByteAStep : Prop :=
  ∀ (s : State), s.active = some .bp →
    (∀ (b : Byte) (rest : List SrcAnswer), s.src = .byte b :: rest →
      (∀ n, s.params.maxBlockBytes = some n → n < s.bp.buf.length + 1 →
        step s = .next (raiseFail .bp .imageTooLarge (s.bp.pos + 1)
          ((s.withSrc rest).withBp { s.bp with pos := s.bp.pos + 1 }))) ∧
      ((∀ n, s.params.maxBlockBytes = some n → s.bp.buf.length + 1 ≤ n) →
        decodeBlock s.bp.phase (s.bp.buf ++ [b]) = .incomplete →
          step s = .next ((s.withSrc rest).withBp { s.bp with pos := s.bp.pos + 1, buf := s.bp.buf ++ [b] }))) ∧
    (∀ (rest : List SrcAnswer), s.src = .eof :: rest →
      step s = .next (raiseFail .bp .unexpectedEndOfStream s.bp.pos (s.withSrc rest))) ∧
    (s.src = [] → step s = .next (raiseFail .bp .unexpectedEndOfStream s.bp.pos s)) ∧
    (∀ (e : IoError) (rest : List SrcAnswer), s.src = .ioErr e :: rest →
      step s = .next (raiseFail .bp (.ioFailure e) s.bp.pos (s.withSrc rest)))

/-- R96, R116: a BP_PULL reads exactly the bytes of the form SRC offers, one a step, and runs the form with all of them
read and counted and nothing read after them. -/
def Obligations.PullReadsExactlyOneForm : Prop :=
  ∀ (s : State) (i : Instr) (bs : List Byte) (rest : List SrcAnswer),
    s.active = none → i.wf = true → admits (.block s.bp.phase) i = true → encode i = .bytes bs →
    (∀ n, s.params.maxBlockBytes = some n → bs.length ≤ n) → s.src = srcOf bs ++ rest →
      ∃ t, exec .bpPull s = .next t ∧
        stepN bs.length t =
          exec i (((s.withBp { s.bp with pos := s.bp.pos + bs.length, buf := bs }).withSrc rest).withActive (some .bp))

/-! ### Commands -/

/-- R201: RESET of one unit resets only that unit. The run registers of LD and LE are left out here: they hold no value
(R33). -/
def Obligations.ResetOfOneUnitResetsOnlyIt : Prop :=
  ∀ s : State, s.active = none →
    exec (.reset .bp false) s =
      .next ((s.withBp { phase := .expectHeader, pos := 0, buf := [], err := none, errPos := 0 }).finish .ok) ∧
    exec (.reset .bf false) s =
      .next ((s.withBf { phase := .ready, pos := 0, pending := [], err := none, errPos := 0 }).finish .ok) ∧
    (∃ u : LdUnit, exec (.reset .ld false) s = .next ((s.withLd u).finish .ok) ∧
      u.phase = .idle ∧ u.err = none ∧ u.errPos = 0 ∧ u.out = [] ∧ u.arena = []) ∧
    (∃ u : LeUnit, exec (.reset .le false) s = .next ((s.withLe u).finish .ok) ∧
      u.phase = .idle ∧ u.err = none ∧ u.errPos = 0 ∧ u.out = [] ∧ u.dict = [])

/-- R37, R200, R170: RESET ALL, and the creation of the machine, leave every register R37 gives a value at that value,
every STATUS 0, and touch neither SRC nor SINK. What stands in the HOST's list and the results is the model's (log 8). -/
def Obligations.ResetAllGivesTheResetState : Prop :=
  (∀ (s : State) (u : UnitId), s.active = none →
    ∃ t, exec (.reset u true) s = .next t ∧
      t.bp = State.reset.bp ∧ t.bf = State.reset.bf ∧ t.ld = State.reset.ld ∧ t.le = State.reset.le ∧
      t.maxPixels = 33554432#32 ∧ t.active = none ∧ t.src = s.src ∧ t.sink = s.sink ∧ t.sinkAnswers = s.sinkAnswers ∧
      t.params = s.params ∧ t.host = s.host ∧ t.results = s.results ++ [.ok]) ∧
  State.reset.bp = { phase := .expectHeader, pos := 0, buf := [], err := none, errPos := 0 } ∧
  State.reset.bf = { phase := .ready, pos := 0, pending := [], err := none, errPos := 0 } ∧
  State.reset.ld.phase = .idle ∧ State.reset.ld.err = none ∧ State.reset.ld.errPos = 0 ∧ State.reset.ld.out = [] ∧
  State.reset.le.phase = .idle ∧ State.reset.le.err = none ∧ State.reset.le.errPos = 0 ∧ State.reset.le.out = [] ∧
  State.reset.maxPixels = 33554432#32 ∧ (∀ u, statusWord u State.reset = 0#32)

/-- R171: CFG_WRITE writes the pixel limit, and R172: CFG_READ (word `0x00000003`) returns it, writes nothing and never
fails; after reset it returns 33554432. -/
def Obligations.ConfigIsWrittenAndReadBack : Prop :=
  (∀ (s : State) (v : U32), s.active = none → exec (.cfgWrite v) s = .next ((s.withMaxPixels v).finish .ok)) ∧
  (∀ (s : State), s.active = none → exec .cfgRead s = .next (s.finish (.value s.maxPixels))) ∧
  decodeCommand ⟨0x00000003#32, .none⟩ = .command .cfgRead ∧
  exec .cfgRead State.reset = .next (State.reset.finish (.value 33554432#32))

/-- R173, R31, R185: STATUS_READ returns PH in [1:0], ERR in [7:4], BPH in [10:8] (0 but for BP) and 0 elsewhere, and
writes nothing; the codes of the phases and of the error kinds. -/
def Obligations.StatusReadShowsPhaseAndError : Prop :=
  (∀ u : UnitId, decodeCommand ⟨0x00000004#32 ||| ((unitBits u).setWidth 32 <<< 16), .none⟩ = .command (.statusRead u)) ∧
  (∀ (s : State) (u : UnitId), s.active = none → exec (.statusRead u) s = .next (s.finish (.value (statusWord u s)))) ∧
  (∀ (s : State) (u : UnitId),
    (statusWord u s).extractLsb' 2 2 = 0#2 ∧ (statusWord u s).extractLsb' 11 21 = 0#21 ∧
    (u ≠ .bp → (statusWord u s).extractLsb' 8 3 = 0#3)) ∧
  (∀ s : State,
    (statusWord .bp s).extractLsb' 0 2 =
      (if s.bp.phase = .failed then 3#2 else if s.bp.phase = .done then 2#2 else 0#2) ∧
    (statusWord .bf s).extractLsb' 0 2 = (if s.bf.phase = .failed then 3#2 else 0#2) ∧
    (statusWord .ld s).extractLsb' 0 2 = lzwPh s.ld.phase ∧
    (statusWord .le s).extractLsb' 0 2 = lzwPh s.le.phase ∧
    [lzwPh .idle, lzwPh .running, lzwPh .done, lzwPh .failed] = [0#2, 1#2, 2#2, 3#2] ∧
    (statusWord .bp s).extractLsb' 4 4 = errBits s.bp.err ∧ (statusWord .bf s).extractLsb' 4 4 = errBits s.bf.err ∧
    (statusWord .ld s).extractLsb' 4 4 = errBits s.ld.err ∧ (statusWord .le s).extractLsb' 4 4 = errBits s.le.err ∧
    (statusWord .bp s).extractLsb' 8 3 = bpBph s.bp.phase) ∧
  (∀ e : IoError,
    [none, some .malformedHeader, some .unexpectedEndOfStream, some .invalidBlockTag, some .invalidColorTableSize,
      some .lzwCodeOutOfRange, some .lzwMissingEndOfInformation, some .imageTooLarge, some (.ioFailure e)].map errBits =
      [0#4, 1#4, 2#4, 3#4, 4#4, 5#4, 6#4, 7#4, 8#4]) ∧
  (∀ k : BitVec 3,
    [.expectHeader, .expectScreenDesc, .expectGlobalTable k, .expectBody, .expectLocalTable k, .expectImageData, .done,
      .failed].map bpBph = [0#3, 1#3, 2#3, 3#3, 4#3, 5#3, 6#3, 7#3])

/-- R96, R97, R98: a pull of a Failed BP reads nothing, writes nothing and returns the recorded failure; a pull after
the Trailer reads nothing and returns End, and leaves BP as it is, so the next one does too; in any other phase a pull
begins, with an empty buffer (R24) and nothing read yet. -/
def Obligations.PullDispatchesOnThePhase : Prop :=
  ∀ (s : State), s.active = none →
    (∀ k, s.bp.phase = .failed → s.bp.err = some k → exec .bpPull s = .next (s.finish (.fail k))) ∧
    (s.bp.phase = .done → exec .bpPull s = .next (s.finish .endOfBlocks)) ∧
    (s.bp.phase ≠ .done → s.bp.phase ≠ .failed →
      exec .bpPull s = .next ((s.withBp { s.bp with buf := [] }).withActive (some .bp)))

/-! ### Block forms (40_block_parser.md) -/

/-- R99: the six Header bytes are "GIF87a" or "GIF89a", or the Header is malformed. -/
def Obligations.HeaderIsCheckedWhole : Prop :=
  ∀ (s : State) (raw : List Byte), s.active = some .bp → s.bp.phase = .expectHeader →
    exec (.blockHeader raw) s = .next
      (if raw = headerBytes .v87a then
        (s.withBp { s.bp with phase := .expectScreenDesc, buf := [] }).finish (.block (.header .v87a))
      else if raw = headerBytes .v89a then
        (s.withBp { s.bp with phase := .expectScreenDesc, buf := [] }).finish (.block (.header .v89a))
      else raiseFail .bp .malformedHeader s.bp.pos s)

/-- R100, R101, R109, R110: descriptors announce their table by bit 7 of the packed byte, with `2^(k+1)` entries for
`k` its bits [2:0]; a table has that many entries and the phase goes on to the body or to the image data. -/
def Obligations.DescriptorsAnnounceTheirTables : Prop :=
  ∀ (s : State), s.active = some .bp →
    (∀ r : ScreenDesc, s.bp.phase = .expectScreenDesc →
      exec (.blockScreenDesc r) s = .next ((s.withBp { s.bp with
        buf   := []
        phase := (if r.packed.getLsbD 7 then .expectGlobalTable (r.packed.extractLsb' 0 3) else .expectBody) }).finish
          (.block (.screenDesc r)))) ∧
    (∀ (k : BitVec 3) (es : List Rgb), s.bp.phase = .expectGlobalTable k → es.length = 2 ^ (k.toNat + 1) →
      exec (.blockGlobalTable es) s = .next ((s.withBp { s.bp with buf := [], phase := .expectBody }).finish
        (.block (.globalTable es)))) ∧
    (∀ r : ImageDesc, s.bp.phase = .expectBody →
      exec (.blockImageDesc r) s = .next ((s.withBp { s.bp with
        buf   := []
        phase := (if r.packed.getLsbD 7 then .expectLocalTable (r.packed.extractLsb' 0 3)
                  else .expectImageData) }).finish (.block (.imageDesc r)))) ∧
    (∀ (k : BitVec 3) (es : List Rgb), s.bp.phase = .expectLocalTable k → es.length = 2 ^ (k.toNat + 1) →
      exec (.blockLocalTable es) s = .next ((s.withBp { s.bp with buf := [], phase := .expectImageData }).finish
        (.block (.localTable es))))

/-- R104 to R107: the extensions return their record as read; a GCE size other than 4, a GCE byte other than 0 where the
terminator belongs, and an ApplicationExtension size other than 11 fail with InvalidBlockTag at that byte. -/
def Obligations.ExtensionsReturnOrFailAtTheByte : Prop :=
  ∀ (s : State), s.active = some .bp → s.bp.phase = .expectBody →
    (∀ r : GraphicControl, exec (.blockGraphicControl (.fields r 0#8)) s =
      .next ((s.withBp { s.bp with buf := [] }).finish (.block (.graphicControl r)))) ∧
    (∀ (r : GraphicControl) (z : Byte), z ≠ 0#8 → exec (.blockGraphicControl (.fields r z)) s =
      .next (raiseFail .bp .invalidBlockTag s.bp.pos s)) ∧
    (∀ n : Byte, exec (.blockGraphicControl (.wrongSize n)) s =
      .next (raiseFail .bp .invalidBlockTag s.bp.pos s)) ∧
    (∀ subs, exec (.blockComment subs) s =
      .next ((s.withBp { s.bp with buf := [] }).finish (.block (.comment subs)))) ∧
    (∀ r : AppExt, exec (.blockAppExt (.fields r)) s =
      .next ((s.withBp { s.bp with buf := [] }).finish (.block (.appExt r)))) ∧
    (∀ n : Byte, exec (.blockAppExt (.wrongSize n)) s =
      .next (raiseFail .bp .invalidBlockTag s.bp.pos s)) ∧
    (∀ subs, exec (.blockPlainText subs) s =
      .next ((s.withBp { s.bp with buf := [] }).finish (.block (.plainText subs))))

/-- R108, R113: in the body, a label after 0x21 other than F9, FE, FF and 01, and an introducer other than 21, 2C and
3B, fail with InvalidBlockTag: the byte is counted and nothing after it is read. -/
def Obligations.UnknownLabelAndIntroducerFail : Prop :=
  (∀ (s : State) (l : Byte), s.active = some .bp → s.bp.phase = .expectBody →
    l ≠ 0xF9#8 → l ≠ 0xFE#8 → l ≠ 0xFF#8 → l ≠ 0x01#8 →
      exec (.blockUnknownExt l) s = .next (raiseFail .bp .invalidBlockTag s.bp.pos s)) ∧
  (∀ (s : State) (b : Byte), s.active = some .bp → s.bp.phase = .expectBody →
    b ≠ 0x21#8 → b ≠ 0x2C#8 → b ≠ 0x3B#8 →
      exec (.blockInvalidIntroducer b) s = .next (raiseFail .bp .invalidBlockTag s.bp.pos s)) ∧
  (∀ (s : State) (b : Byte) (rest : List SrcAnswer),
    s.active = some .bp → s.bp.phase = .expectBody → s.params.maxBlockBytes = none → s.src = .byte b :: rest →
    (s.bp.buf = [0x21#8] ∧ b ≠ 0xF9#8 ∧ b ≠ 0xFE#8 ∧ b ≠ 0xFF#8 ∧ b ≠ 0x01#8 ∨
      s.bp.buf = [] ∧ b ≠ 0x21#8 ∧ b ≠ 0x2C#8 ∧ b ≠ 0x3B#8) →
      ∃ t, step s = .next t ∧
        t.bp = ⟨.failed, s.bp.pos + 1, [], some .invalidBlockTag, s.bp.pos + 1⟩ ∧
        t.src = rest ∧ t.active = none ∧ t.results = s.results ++ [.fail .invalidBlockTag])

/-- R111 and R112: ImageData returns `m` and the joined sub-blocks and goes back to the body; the Trailer ends the
sequence. -/
def Obligations.ImageDataAndTrailerReturn : Prop :=
  (∀ (s : State) (m : Byte) (subs : List (List Byte)), s.active = some .bp → s.bp.phase = .expectImageData →
    exec (.blockImageData m subs) s = .next ((s.withBp { s.bp with buf := [], phase := .expectBody }).finish
      (.block (.imageData { m := m, payload := subs.flatten })))) ∧
  (∀ (s : State), s.active = some .bp → s.bp.phase = .expectBody →
    exec .blockTrailer s = .next ((s.withBp { s.bp with buf := [], phase := .done }).finish (.block .trailer)))

/-- R66: every block BP returns is one that the stream grammar allows in BP's phase, and the phase after it is the
grammar's. -/
def Obligations.ReturnedBlocksFollowTheGrammar : Prop :=
  ∀ (s t : State) (b : Block), step s = .next t → t.results = s.results ++ [.block b] →
    grammarNext s.bp.phase b = some t.bp.phase

/-! ### The Block Framer (41_block_framer.md) -/

/-- R122, R123, R127, R190: what BF_PUSH does before it writes: a Failed BF repeats its failure even for an ill-formed
record; an ill-formed record is refused; a colour table of another size fails before any byte is written; any other
block's canonical bytes are set out to be written. -/
def Obligations.PushChecksBeforeItWrites : Prop :=
  ∀ (s : State) (b : Block), s.active = none →
    (∀ k, s.bf.phase = .failed → s.bf.err = some k → exec (.bfPush b) s = .next (s.finish (.fail k))) ∧
    (s.bf.phase = .ready → b.wf = false → exec (.bfPush b) s = .refused .illFormedRecord) ∧
    (∀ es, s.bf.phase = .ready → (b = .globalTable es ∨ b = .localTable es) →
      es.length ∉ [2, 4, 8, 16, 32, 64, 128, 256] →
        exec (.bfPush b) s = .next (raiseFail .bf .invalidColorTableSize s.bf.pos s)) ∧
    (s.bf.phase = .ready → b.wf = true →
      (∀ es, (b = .globalTable es ∨ b = .localTable es) → es.length ∈ [2, 4, 8, 16, 32, 64, 128, 256]) →
        exec (.bfPush b) s = .next ((s.withBf { s.bf with pending := frameBytes b }).withActive (some .bf)))

/-- R122, R125 to R136: with a SINK that never fails, a push writes exactly the block's canonical bytes after those
written before, counts them, and returns Ok with BF Ready. That a SINK never bound is such a SINK is the model's choice
(log 26). -/
def Obligations.PushWritesTheCanonicalBytes : Prop :=
  ∀ (s : State) (b : Block), s.active = none → s.bf.phase = .ready → b.wf = true → badTableSize b = false →
    sinkNeverFails s →
      ∃ t u, exec (.bfPush b) s = .next t ∧ stepN (frameBytes b).length t = .next u ∧
        u.sink = s.sink ++ frameBytes b ∧
        u.bf = { s.bf with pos := s.bf.pos + (frameBytes b).length, pending := [] } ∧
        u.results = s.results ++ [.ok] ∧ u.active = none ∧ sinkNeverFails u ∧
        u.bp = s.bp ∧ u.ld = s.ld ∧ u.le = s.le ∧ u.maxPixels = s.maxPixels ∧ u.host = s.host ∧ u.src = s.src ∧
        u.params = s.params

/-- R137 and R52: when SINK fails the write after `n` good ones, those `n` bytes stay written and are counted, SINK has
kept the failing byte or not, the rest is not written, and BF is Failed with IoFailure of the same error. -/
def Obligations.PushStopsAtAFailedWrite : Prop :=
  ∀ (s : State) (b : Block) (n : Nat) (e : IoError) (kept : Bool) (rest : List SinkAnswer),
    s.active = none → s.bf.phase = .ready → b.wf = true → badTableSize b = false → n < (frameBytes b).length →
    s.sinkAnswers = List.replicate n .ok ++ .ioErr e kept :: rest →
      ∃ t u, exec (.bfPush b) s = .next t ∧ stepN (n + 1) t = .next u ∧
        u.sink = s.sink ++ (frameBytes b).take (if kept then n + 1 else n) ∧ u.sinkAnswers = rest ∧
        u.bf = { phase := .failed, pos := s.bf.pos + n, pending := [], err := some (.ioFailure e),
                 errPos := s.bf.pos + n } ∧
        u.results = s.results ++ [.fail (.ioFailure e)] ∧ u.active = none

/-- R136: `chunk255` loses no byte, makes no empty sub-block, and makes sub-blocks of 255 bytes but for the last. -/
def Obligations.ChunksHoldThePayload : Prop :=
  ∀ p : List Byte,
    (chunk255 p).flatten = p ∧ (∀ d ∈ chunk255 p, 1 ≤ d.length ∧ d.length ≤ 255) ∧
    (∀ d ∈ (chunk255 p).dropLast, d.length = 255) ∧
    (chunk255 p).length = p.length / 255 + (if p.length % 255 = 0 then 0 else 1)

/-! ### The LZW Decoder (42_lzw_decoder.md) -/

/-- R139: what LD_RUN does: a Failed LD repeats its failure; an M outside [2,8] fails before any bit is read; otherwise
every run register is set from M, the payload and `cfg.max_pixels`. -/
def Obligations.DecoderRunStarts : Prop :=
  ∀ (s : State) (m : Byte) (payload : List Byte), s.active = none →
    (∀ k, s.ld.phase = .failed → s.ld.err = some k → exec (.ldRun m payload) s = .next (s.finish (.fail k))) ∧
    (s.ld.phase ≠ .failed → ¬(2 ≤ m.toNat ∧ m.toNat ≤ 8) →
      exec (.ldRun m payload) s = .next (raiseFail .ld .lzwCodeOutOfRange 0 s)) ∧
    (s.ld.phase ≠ .failed → 2 ≤ m.toNat → m.toNat ≤ 8 →
      ∃ u : LdUnit, exec (.ldRun m payload) s = .next ((s.withLd u).withActive (some .ld)) ∧
        u.phase = .running ∧ u.m.toNat = m.toNat ∧ u.width.toNat = m.toNat + 1 ∧ u.next.toNat = 2 ^ m.toNat + 2 ∧
        u.prev = none ∧ u.arena = [] ∧ u.input = payload ∧ u.bitpos = 0 ∧ u.out = [] ∧ u.maxOut = s.maxPixels ∧
        u.err = s.ld.err ∧ u.errPos = s.ld.errPos)

/-- R140: with fewer than `ld.width` bits left, LD fails with LzwMissingEndOfInformation where the read was tried. -/
def Obligations.DecoderFailsWithoutEoi : Prop :=
  ∀ s : State, s.active = some .ld → 8 * s.ld.input.length < s.ld.bitpos + s.ld.width.toNat →
    step s = .next (raiseFail .ld .lzwMissingEndOfInformation s.ld.bitpos s)

/-- R142, R143: CLEAR resets width, next code, previous code and dictionary and outputs nothing; EOI ends the run and
returns the output. -/
def Obligations.ClearAndEoiTakeEffect : Prop :=
  ∀ (s : State) (c : Code), s.active = some .ld → Config.mMin ≤ s.ld.m.toNat → s.ld.m.toNat ≤ Config.mMax →
    (c.toNat = 2 ^ s.ld.m.toNat →
      ∃ u : LdUnit, exec (.codeClear c) s = .next (s.withLd u) ∧ u.width.toNat = s.ld.m.toNat + 1 ∧
        u.next.toNat = 2 ^ s.ld.m.toNat + 2 ∧
        u = { s.ld with bitpos := s.ld.bitpos + s.ld.width.toNat, width := u.width, next := u.next, prev := none,
                        arena := [] }) ∧
    (c.toNat = 2 ^ s.ld.m.toNat + 1 →
      exec (.codeEoi c) s = .next ((s.withLd { s.ld with
        bitpos := s.ld.bitpos + s.ld.width.toNat, phase := .done }).finish (.indices s.ld.out)))

/-- R144 and R151: the first data code after the start or a CLEAR outputs itself and inserts nothing, or fails where it
started if the output would pass the limit. -/
def Obligations.FirstRootIsOutput : Prop :=
  ∀ (s : State) (c : Code), s.active = some .ld → c.toNat < 2 ^ s.ld.m.toNat → s.ld.prev = none →
    exec (.codeRootFirst c) s = .next
      (if s.ld.out.length + 1 ≤ s.ld.maxOut.toNat then
        s.withLd { s.ld with
          bitpos := s.ld.bitpos + s.ld.width.toNat, out := s.ld.out ++ [c.setWidth 8], prev := some c }
      else raiseFail .ld .imageTooLarge s.ld.bitpos s)

/-- R145, R148, R149, R151: a known code after a previous one, with room in the dictionary, inserts (previous code,
first index), widens when the next code to be assigned reaches `2^width`, and outputs its string, or fails where it
started if the output would pass the limit. It is said of ROOT and of DEFINED. -/
def Obligations.KnownCodeInsertsAndOutputs : Prop :=
  ∀ (s : State) (c p : Code) (i : Instr), s.active = some .ld → s.ld.prev = some p → s.ld.next.toNat ≤ 4095 →
    (i = .codeRoot c ∧ c.toNat < 2 ^ s.ld.m.toNat ∨
      i = .codeDefined c ∧ 2 ^ s.ld.m.toNat + 1 < c.toNat ∧ c.toNat < s.ld.next.toNat) →
    exec i s = .next
      (if s.ld.out.length + (seqOf s.ld.arena c).length ≤ s.ld.maxOut.toNat then
        s.withLd { s.ld with
          bitpos := s.ld.bitpos + s.ld.width.toNat
          arena  := { code := s.ld.next.setWidth 12, prefixCode := p, suffix := firstOf s.ld.arena c } :: s.ld.arena
          next   := s.ld.next + 1#13
          width  := if s.ld.next.toNat + 1 = 2 ^ s.ld.width.toNat ∧ s.ld.width.toNat < 12 then s.ld.width + 1#4
                    else s.ld.width
          out    := s.ld.out ++ seqOf s.ld.arena c
          prev   := some c }
      else raiseFail .ld .imageTooLarge s.ld.bitpos s)

/-- R146: the code being defined stands for the previous string followed by its own first index. -/
def Obligations.KwkwkRepeatsTheFirstIndex : Prop :=
  ∀ (s : State) (c p : Code), s.active = some .ld → s.ld.prev = some p → c.toNat = s.ld.next.toNat →
    2 ^ s.ld.m.toNat + 1 < c.toNat →
    exec (.codeKwkwk c) s = .next
      (if s.ld.out.length + ((seqOf s.ld.arena p).length + 1) ≤ s.ld.maxOut.toNat then
        s.withLd { s.ld with
          bitpos := s.ld.bitpos + s.ld.width.toNat
          arena  := { code := c, prefixCode := p, suffix := firstOf s.ld.arena p } :: s.ld.arena
          next   := s.ld.next + 1#13
          width  := if s.ld.next.toNat + 1 = 2 ^ s.ld.width.toNat ∧ s.ld.width.toNat < 12 then s.ld.width + 1#4
                    else s.ld.width
          out    := s.ld.out ++ (seqOf s.ld.arena p ++ [firstOf s.ld.arena p])
          prev   := some c }
      else raiseFail .ld .imageTooLarge s.ld.bitpos s)

/-- R150: on a full dictionary `Freeze` inserts nothing and goes on, and `Fault` fails where the code started, for every
known code. -/
def Obligations.FullDictionaryFollowsThePolicy : Prop :=
  ∀ (s : State) (c p : Code) (i : Instr), s.active = some .ld → s.ld.prev = some p → s.ld.next.toNat = 4096 →
    (i = .codeRoot c ∧ c.toNat < 2 ^ s.ld.m.toNat ∨
      i = .codeDefined c ∧ 2 ^ s.ld.m.toNat + 1 < c.toNat ∧ c.toNat < s.ld.next.toNat) →
    (s.params.fullDictPolicy = .fault → exec i s = .next (raiseFail .ld .lzwCodeOutOfRange s.ld.bitpos s)) ∧
    (s.params.fullDictPolicy = .freeze → exec i s = .next
      (if s.ld.out.length + (seqOf s.ld.arena c).length ≤ s.ld.maxOut.toNat then
        s.withLd { s.ld with
          bitpos := s.ld.bitpos + s.ld.width.toNat, out := s.ld.out ++ seqOf s.ld.arena c, prev := some c }
      else raiseFail .ld .imageTooLarge s.ld.bitpos s))

/-- R147: an UNDEFINED code fails with LzwCodeOutOfRange where it started, and leaves every other register of LD but its
output as it was. -/
def Obligations.UndefinedCodeFails : Prop :=
  ∀ (s : State) (c : Code), s.active = some .ld → 2 ^ s.ld.m.toNat + 1 < c.toNat →
    (s.ld.prev = none ∨ s.ld.next.toNat < c.toNat) →
      exec (.codeUndefined c) s = .next ((s.withLd { s.ld with
        phase := .failed, out := [], err := some .lzwCodeOutOfRange, errPos := s.ld.bitpos }).finish
          (.fail .lzwCodeOutOfRange))

/-- R153, R154: the string of a code in a dictionary of canonical form: a root is itself; a stored code is its prefix's
string and its suffix; the first index is the root at the end of the chain; the length bound. -/
def Obligations.StringsFollowThePrefixChain : Prop :=
  ∀ (m next : Nat) (a : Arena), Config.mMin ≤ m → m ≤ Config.mMax → next ≤ Config.dictCap →
    Arena.wf m next a = true →
    (∀ c : Code, c.toNat < 2 ^ m → seqOf a c = [c.setWidth 8] ∧ entryAt a c = none) ∧
    (∀ c : Code, 2 ^ m + 1 < c.toNat → c.toNat < next →
      ∃ e, entryAt a c = some e ∧ e.code = c ∧ e.prefixCode.toNat < c.toNat ∧
        seqOf a c = seqOf a e.prefixCode ++ [e.suffix] ∧ firstOf a c = firstOf a e.prefixCode ∧
        (seqOf a c).length ≤ c.toNat - (2 ^ m + 1) + 1) ∧
    (∀ c : Code, (seqOf a c).head? = some (firstOf a c)) ∧
    (∀ c : Code, dataCode m next c = true → ∀ i ∈ seqOf a c, i.toNat < 2 ^ m)

/-- R152: bytes after the one that holds EOI change nothing: a run that returns its indices returns the same ones,
after the same number of steps, with any bytes added to the payload. -/
def Obligations.BytesAfterEoiAreIgnored : Prop :=
  ∀ (n : Nat) (s t : State) (x junk : List Byte),
    s.active = some .ld → stepN n s = .next t → t.active = none → t.results = s.results ++ [.indices x] →
      ∃ u, stepN n (s.withLd { s.ld with input := s.ld.input ++ junk }) = .next u ∧ u.active = none ∧
        u.results = s.results ++ [.indices x] ∧ u.ld = { t.ld with input := t.ld.input ++ junk }

/-- R156: a run of LD on a payload ends after at most `floor(8 * len / (m + 1)) + 1` micro-steps, with a result. -/
def Obligations.DecoderRunEnds : Prop :=
  ∀ (s t : State) (m : Byte) (payload : List Byte),
    s.active = none → s.ld.phase ≠ .failed → 2 ≤ m.toNat → m.toNat ≤ 8 → exec (.ldRun m payload) s = .next t →
      ∃ n u, n ≤ 8 * payload.length / (m.toNat + 1) + 1 ∧ stepN n t = .next u ∧ u.active = none ∧
        ((∃ x, u.results = s.results ++ [.indices x] ∧ u.ld.phase = .done ∧ u.ld.out = x ∧
            (∀ i ∈ x, i.toNat < 2 ^ m.toNat) ∧ x.length ≤ s.maxPixels.toNat) ∨
         (∃ k, u.results = s.results ++ [.fail k] ∧ u.ld.phase = .failed ∧ u.ld.err = some k))

/-! ### The LZW Encoder (43_lzw_encoder.md) -/

/-- The bits LE has emitted so far: those of the bytes put out, least significant first, then those held. -/
def emittedBits (u : LeUnit) : List Bool :=
  (u.out.flatMap fun b => (List.range 8).map fun j => b.getLsbD j) ++ (List.range u.nacc).map fun j => u.acc.testBit j

/-- R158, R56: emitting a code appends its `width` bits, least significant first, after the bits emitted before, and
leaves fewer than 8 bits held. -/
def Obligations.EmitAppendsTheCodeBits : Prop :=
  ∀ (u : LeUnit) (c : Nat), u.acc < 2 ^ u.nacc → c < 2 ^ u.width.toNat →
    emittedBits (u.emit c) = emittedBits u ++ ((List.range u.width.toNat).map fun j => c.testBit j) ∧
    (u.emit c).nacc < 8 ∧ (u.emit c).acc < 2 ^ (u.emit c).nacc ∧
    u.emit c = { u with out := (u.emit c).out, acc := (u.emit c).acc, nacc := (u.emit c).nacc }

/-- R157: what LE_RUN does: a Failed LE repeats its failure; an M outside [2,8] fails; otherwise every register is set
and the leading CLEAR is emitted at width M + 1. -/
def Obligations.EncoderRunStarts : Prop :=
  ∀ (s : State) (m : Byte) (x : List Byte), s.active = none →
    (∀ k, s.le.phase = .failed → s.le.err = some k → exec (.leRun m x) s = .next (s.finish (.fail k))) ∧
    (s.le.phase ≠ .failed → ¬(2 ≤ m.toNat ∧ m.toNat ≤ 8) →
      exec (.leRun m x) s = .next (raiseFail .le .lzwCodeOutOfRange 0 s)) ∧
    (s.le.phase ≠ .failed → 2 ≤ m.toNat → m.toNat ≤ 8 →
      ∃ u : LeUnit, exec (.leRun m x) s = .next ((s.withLe u).withActive (some .le)) ∧
        u.phase = .running ∧ u.m.toNat = m.toNat ∧ u.width.toNat = m.toNat + 1 ∧ u.next.toNat = 2 ^ m.toNat + 2 ∧
        u.cand = none ∧ u.dict = [] ∧ u.input = x ∧ u.inpos = 0 ∧ u.err = s.le.err ∧ u.errPos = s.le.errPos ∧
        emittedBits u = (List.range (m.toNat + 1)).map fun j => (2 ^ m.toNat).testBit j)

/-- R160, R161 and the range check of R160 to R162: an index of `2^m` or more fails at its position; the first index
becomes the candidate; a stored pair extends it. Nothing is emitted. -/
def Obligations.EncoderTakesAnIndex : Prop :=
  ∀ (s : State) (i : Byte), s.active = some .le → s.le.input[s.le.inpos]? = some i →
    (2 ^ s.le.m.toNat ≤ i.toNat → step s = .next (raiseFail .le .lzwCodeOutOfRange s.le.inpos s)) ∧
    (i.toNat < 2 ^ s.le.m.toNat → s.le.cand = none →
      step s = .next (s.withLe { s.le with cand := some (i.setWidth 12), inpos := s.le.inpos + 1 })) ∧
    (∀ p c, i.toNat < 2 ^ s.le.m.toNat → s.le.cand = some p → findPair s.le.dict p i = some c →
      step s = .next (s.withLe { s.le with cand := some c, inpos := s.le.inpos + 1 }))

/-- R162, R163, R164: on a miss LE emits the candidate at the width before growth, inserts the pair at `le.next`, widens
when that code is `2^width`, and restarts from the index; an insertion that fills the dictionary is followed at once by
a CLEAR, and dictionary, next code and width start again. -/
def Obligations.EncoderMissEmitsAndInserts : Prop :=
  ∀ (s : State) (i : Byte) (p : Code), s.active = some .le → s.Inv → s.le.input[s.le.inpos]? = some i →
    i.toNat < 2 ^ s.le.m.toNat → s.le.cand = some p → findPair s.le.dict p i = none →
      ∃ u : LeUnit, step s = .next (s.withLe u) ∧ u.cand = some (i.setWidth 12) ∧ u.inpos = s.le.inpos + 1 ∧
        u.input = s.le.input ∧ u.m = s.le.m ∧ u.phase = .running ∧
        (s.le.next.toNat + 1 < 4096 →
          u.next.toNat = s.le.next.toNat + 1 ∧
          u.width.toNat = (if s.le.next.toNat = 2 ^ s.le.width.toNat ∧ s.le.width.toNat < 12 then
            s.le.width.toNat + 1 else s.le.width.toNat) ∧
          u.dict = { code := s.le.next.setWidth 12, prefixCode := p, suffix := i } :: s.le.dict ∧
          emittedBits u = emittedBits s.le ++ (List.range s.le.width.toNat).map fun j => p.toNat.testBit j) ∧
        (s.le.next.toNat + 1 = 4096 →
          u.next.toNat = 2 ^ s.le.m.toNat + 2 ∧ u.width.toNat = s.le.m.toNat + 1 ∧ u.dict = [] ∧
          emittedBits u = emittedBits s.le ++ ((List.range 12).map fun j => p.toNat.testBit j) ++
            ((List.range 12).map fun j => (2 ^ s.le.m.toNat).testBit j))

/-- R159, R165, R166, R167: at the end of the input LE emits the candidate, if there is one, then EOI at the width LD
will read it with, pads the last byte with zero bits, and returns the payload. -/
def Obligations.EncoderRunReturnsItsPayload : Prop :=
  ∀ (s : State), s.active = some .le → s.Inv → s.le.inpos = s.le.input.length →
    ∃ (u : LeUnit) (pad : Nat), step s = .next ((s.withLe u).finish (.payload u.out)) ∧ u.phase = .done ∧
      u.acc = 0 ∧ u.nacc = 0 ∧ pad < 8 ∧
      emittedBits u =
        emittedBits s.le ++
        (match s.le.cand with
          | none => (List.range s.le.width.toNat).map fun j => (2 ^ s.le.m.toNat + 1).testBit j
          | some p =>
            ((List.range s.le.width.toNat).map fun j => p.toNat.testBit j) ++
              (List.range (if s.le.next.toNat = 2 ^ s.le.width.toNat ∧ s.le.width.toNat < 12 then
                s.le.width.toNat + 1 else s.le.width.toNat)).map fun j => (2 ^ s.le.m.toNat + 1).testBit j) ++
        List.replicate pad false

/-- R209: a run of LE takes one micro-step an index and one more, or ends earlier with LzwCodeOutOfRange at the position
of an index of `2^m` or more. -/
def Obligations.EncoderRunEnds : Prop :=
  ∀ (s t : State) (m : Byte) (x : List Byte),
    s.active = none → s.le.phase ≠ .failed → 2 ≤ m.toNat → m.toNat ≤ 8 → exec (.leRun m x) s = .next t →
      ((∀ i ∈ x, i.toNat < 2 ^ m.toNat) → ∃ u p, stepN (x.length + 1) t = .next u ∧ u.active = none ∧
        u.results = s.results ++ [.payload p] ∧ u.le.phase = .done ∧ u.le.out = p) ∧
      (∀ n : Nat, (∀ i ∈ x.take n, i.toNat < 2 ^ m.toNat) → (∃ i, x[n]? = some i ∧ 2 ^ m.toNat ≤ i.toNat) →
        ∃ u, stepN (n + 1) t = .next u ∧ u.active = none ∧ u.results = s.results ++ [.fail .lzwCodeOutOfRange] ∧
          u.le.phase = .failed ∧ u.le.errPos = n ∧ u.le.out = [])

/-! ### Failures (60_exceptions.md) -/

/-- R186: failure entry, for each unit: Failed, the kind and the position; the buffer, the unwritten bytes or the output
emptied; the result returned; every other register of the unit, every other unit and the configuration unchanged. -/
def Obligations.FailureEntryWritesTheRecord : Prop :=
  ∀ (s : State) (k : ErrorKind) (info : Nat),
    raiseFail .bp k info s = (s.withBp ⟨.failed, s.bp.pos, [], some k, info⟩).finish (.fail k) ∧
    raiseFail .bf k info s = (s.withBf ⟨.failed, s.bf.pos, [], some k, info⟩).finish (.fail k) ∧
    raiseFail .ld k info s =
      (s.withLd { s.ld with phase := .failed, out := [], err := some k, errPos := info }).finish (.fail k) ∧
    raiseFail .le k info s =
      (s.withLe { s.le with phase := .failed, out := [], err := some k, errPos := info }).finish (.fail k)

/-- R186, R187, R188: whenever a step returns `Fail(k)`, a unit that may raise `k` by the table of R188 is Failed with
that record. -/
def Obligations.FailResultsComeFromAFailedUnit : Prop :=
  ∀ (s t : State) (k : ErrorKind), s.Inv → step s = .next t → t.results = s.results ++ [.fail k] →
    (t.bp.phase = .failed ∧ t.bp.err = some k ∧ mayRaise .bp k = true ∨
      t.bf.phase = .failed ∧ t.bf.err = some k ∧ mayRaise .bf k = true ∨
      t.ld.phase = .failed ∧ t.ld.err = some k ∧ mayRaise .ld k = true ∨
      t.le.phase = .failed ∧ t.le.err = some k ∧ mayRaise .le k = true)

/-- R187: a step takes a unit out of Failed only by running RESET of that unit, alone or with ALL. -/
def Obligations.OnlyResetLeavesFailed : Prop :=
  ∀ (s t : State), s.Inv → step s = .next t → ∀ u : UnitId,
    (match u with
      | .bp => s.bp.phase = .failed ∧ t.bp.phase ≠ .failed
      | .bf => s.bf.phase = .failed ∧ t.bf.phase ≠ .failed
      | .ld => s.ld.phase = .failed ∧ t.ld.phase ≠ .failed
      | .le => s.le.phase = .failed ∧ t.le.phase ≠ .failed) →
    s.active = none ∧ ∃ q rest, s.host = .command q :: rest ∧
      (decodeCommand q = .command (.reset u false) ∨ decodeCommand q = .command (.reset .bp true))

/-! ### The whole machine -/

/-- The invariant holds after reset. -/
def Obligations.ResetStateMeetsTheInvariant : Prop := State.reset.Inv

/-- R23, R24, R29, R36, R86, R116, R149, R163, R193: every step keeps the invariant: a unit has an error record exactly
when it is Failed; the transient buffers are empty between commands; widths, next codes, candidates, dictionaries and
output stay in their ranges, in lockstep with the next code; every block returned is well formed. -/
def Obligations.EveryStepKeepsTheInvariant : Prop :=
  ∀ s t : State, s.Inv → step s = .next t → t.Inv

/-- R14, R92, R122: in a state that meets the invariant the machine never faults, and refuses only a rejected command or
an ill-formed record. -/
def Obligations.StepsStopOnlyOnRefusedCommands : Prop :=
  ∀ s : State, s.Inv →
    (∃ t, step s = .next t) ∨ (∃ r, step s = .refused (.commandRejected r)) ∨ step s = .refused .illFormedRecord

/-- R4, R60, R186, R187, R196: what each instruction leaves unchanged: a command touches no stream; a block form writes
only BP, and a code class only LD, beside the result and the running unit. -/
def Obligations.InstructionsWriteOnlyTheirUnit : Prop :=
  ∀ (i : Instr) (s t : State), exec i s = .next t →
    t.params = s.params ∧ t.host = s.host ∧ t.src = s.src ∧ t.sink = s.sink ∧ t.sinkAnswers = s.sinkAnswers ∧
    (t.results = s.results ∨ ∃ r, t.results = s.results ++ [r]) ∧
    (∀ phase, admits (.block phase) i = true →
      t.bf = s.bf ∧ t.ld = s.ld ∧ t.le = s.le ∧ t.maxPixels = s.maxPixels ∧ t.bp.pos = s.bp.pos ∧ t.bp.buf = []) ∧
    (∀ m next prev, admits (.code m next prev) i = true →
      t.bp = s.bp ∧ t.bf = s.bf ∧ t.le = s.le ∧ t.maxPixels = s.maxPixels ∧ t.ld.m = s.ld.m ∧
        t.ld.input = s.ld.input ∧ t.ld.maxOut = s.ld.maxOut) ∧
    ((∃ m p, i = .ldRun m p) → t.bp = s.bp ∧ t.bf = s.bf ∧ t.le = s.le ∧ t.maxPixels = s.maxPixels) ∧
    ((∃ m x, i = .leRun m x) → t.bp = s.bp ∧ t.bf = s.bf ∧ t.ld = s.ld ∧ t.maxPixels = s.maxPixels) ∧
    ((∃ b, i = .bfPush b) → t.bp = s.bp ∧ t.ld = s.ld ∧ t.le = s.le ∧ t.maxPixels = s.maxPixels ∧
      t.bf.pos = s.bf.pos) ∧
    (i = .bpPull → t.bf = s.bf ∧ t.ld = s.ld ∧ t.le = s.le ∧ t.maxPixels = s.maxPixels ∧ t.bp.pos = s.bp.pos)

/-- R51, R52, R60: while a unit runs, SRC's answers are only taken from the front, one a step and by BP alone; SINK's
bytes only grow at the end, by at most one a step and by BF alone; the parameters and the HOST's list do not change. -/
def Obligations.StreamsMoveOneByteAStep : Prop :=
  ∀ s t : State, s.active ≠ none → step s = .next t →
    t.params = s.params ∧ t.host = s.host ∧ t.maxPixels = s.maxPixels ∧
    (t.src = s.src ∨ s.active = some .bp ∧ ∃ a, s.src = a :: t.src) ∧
    (t.sink = s.sink ∨ s.active = some .bf ∧ ∃ b, t.sink = s.sink ++ [b]) ∧
    (t.sinkAnswers = s.sinkAnswers ∨ s.active = some .bf ∧ ∃ a, s.sinkAnswers = a :: t.sinkAnswers) ∧
    (t.results = s.results ∧ t.active = s.active ∨ t.active = none ∧ ∃ r, t.results = s.results ++ [r])

/-- R138: a grammatical sequence of well-formed records, pushed through BF to a SINK that never fails and given back to
BP, comes back the same records in the same order, then End. That a SINK never bound is such a SINK is the model's choice
(log 26). -/
def Obligations.FramingAndParsingAgree : Prop :=
  ∀ (blocks : List Block) (s : State),
    grammatical .expectHeader blocks = true → (∀ b ∈ blocks, b.wf = true) →
    s.active = none → s.bf.phase = .ready → sinkNeverFails s → s.sink = [] →
    s.host = blocks.map (fun b => .command { word := 0x00000020#32, operand := .record b }) →
      ∃ n t, stepN n s = .next t ∧ t.active = none ∧ t.host = [] ∧
        t.results = s.results ++ blocks.map (fun _ => Result.ok) ∧
        ∀ u : State, u.active = none → u.params.maxBlockBytes = none → u.bp.phase = .expectHeader →
          u.src = srcOf t.sink →
          u.host = List.replicate (blocks.length + 1) (.command { word := 0x00000010#32, operand := .none }) →
            ∃ n' v, stepN n' u = .next v ∧ v.active = none ∧ v.host = [] ∧
              v.results = u.results ++ blocks.map Result.block ++ [.endOfBlocks] ∧
              v.bp.pos = u.bp.pos + t.sink.length

/-- R168: whatever indices LE compresses, LD decompresses to the same indices, for every min code size in [2,8] and
every input with indices below `2^m`, forced clears included. -/
def Obligations.DecompressionInvertsCompression : Prop :=
  ∀ (s : State) (m : Byte) (x : List Byte),
    s.active = none → s.ld.phase ≠ .failed → s.le.phase ≠ .failed → 2 ≤ m.toNat → m.toNat ≤ 8 →
    (∀ i ∈ x, i.toNat < 2 ^ m.toNat) → x.length ≤ s.maxPixels.toNat →
      ∃ s1 s2 t1 t2 n p,
        exec (.leRun m x) s = .next s1 ∧ stepN (x.length + 1) s1 = .next s2 ∧ s2.active = none ∧
        s2.results = s.results ++ [.payload p] ∧
        exec (.ldRun m p) s2 = .next t1 ∧ stepN n t1 = .next t2 ∧ t2.active = none ∧
        t2.results = s2.results ++ [.indices x]

/-! ### Operands and the HOST's duties -/

/-- R117 to R119: the fields of the packed bytes, by bit number, the disposal table, and the gating rule of the
transparent colour. -/
def Obligations.PackedFieldsStandAtTheirBits : Prop :=
  (∀ r : ScreenDesc, gctFlag r = r.packed.getLsbD 7 ∧ (colorResolution r).toNat = r.packed.toNat / 16 % 8 ∧
    lsdSortFlag r = r.packed.getLsbD 3 ∧ (gctSizeField r).toNat = r.packed.toNat % 8 ∧
    gctEntries r = 2 ^ (r.packed.toNat % 8 + 1)) ∧
  (∀ g : GraphicControl, userInput g = g.packed.getLsbD 1 ∧ transparencyFlag g = g.packed.getLsbD 0 ∧
    (transparentColor g = if g.packed.toNat % 2 = 1 then some g.tindex else none) ∧
    (g.packed.toNat / 4 % 8 = 0 → disposal g = .noAction) ∧ (g.packed.toNat / 4 % 8 = 1 → disposal g = .doNotDispose) ∧
    (g.packed.toNat / 4 % 8 = 2 → disposal g = .restoreBackground) ∧
    (g.packed.toNat / 4 % 8 = 3 → disposal g = .restorePrevious) ∧
    (4 ≤ g.packed.toNat / 4 % 8 → disposal g = .reserved (BitVec.ofNat 3 (g.packed.toNat / 4 % 8)))) ∧
  (∀ r : ImageDesc, lctFlag r = r.packed.getLsbD 7 ∧ interlaced r = r.packed.getLsbD 6 ∧
    idSortFlag r = r.packed.getLsbD 5 ∧ (lctSizeField r).toNat = r.packed.toNat % 8 ∧
    lctEntries r = 2 ^ (r.packed.toNat % 8 + 1))

/-- R121: the loop count is read exactly from a NETSCAPE2.0 block whose first sub-block is `[1, lo, hi]`. -/
def Obligations.LoopCountNeedsTheNetscapeBlock : Prop :=
  ∀ (a : AppExt) (n : U16),
    loopCount a = some n ↔
      a.appId = [0x4E#8, 0x45#8, 0x54#8, 0x53#8, 0x43#8, 0x41#8, 0x50#8, 0x45#8] ∧ a.auth = [0x32#8, 0x2E#8, 0x30#8] ∧
      ∃ lo hi rest, a.subs = [0x01#8, lo, hi] :: rest ∧ n.toNat = lo.toNat + 256 * hi.toNat

/-- R179: for a palette of `n` entries, 1 <= n <= 256, the min code size is the least `k` of at least 2 with `2^k >= n`,
and lies in [2,8]. -/
def Obligations.MinCodeSizeFitsThePalette : Prop :=
  ∀ n : Nat, 1 ≤ n → n ≤ 256 →
    2 ≤ minCodeSize n ∧ minCodeSize n ≤ 8 ∧ n ≤ 2 ^ minCodeSize n ∧ ∀ k, 2 ≤ k → n ≤ 2 ^ k → minCodeSize n ≤ k

/-- R29, R162: in a dictionary of canonical form with distinct pairs, `find` gives a code exactly when that code's cells
hold the pair. -/
def Obligations.FindGivesTheStoredPair : Prop :=
  ∀ (m next : Nat) (d : Arena) (p : Code) (i : Byte) (c : Code),
    next ≤ Config.dictCap → Arena.wf m next d = true → pairsDistinct d →
      (findPair d p i = some c ↔ entryAt d c = some { code := c, prefixCode := p, suffix := i })
end

