-- ==== Sys2Proof/Laws/Dictionary.lean ====
section
/-! SUPPORT. Laws of the dictionaries: the canonical form `Arena.wf` and what it gives of `entryAt`, `seqOf`, `firstOf` and
`findPair`, that every update of a dictionary keeps it, and the growth of the code width. -/

namespace Sys2Proof.Machine

/-! ### Code widths (00_scope.md R11, 42_lzw_decoder.md R149) -/

theorem bitlen_le_iff (n k : Nat) : bitlen n ≤ k ↔ n < 2 ^ k := by
  unfold bitlen
  split
  · subst ‹n = 0›; simp
  · rw [← Nat.log2_lt ‹_›]; omega

/-- One more is one digit longer exactly when it is the next power of two. -/
theorem bitlen_succ (n : Nat) : bitlen (n + 1) = if n + 1 = 2 ^ bitlen n then bitlen n + 1 else bitlen n := by
  have h1 := (bitlen_le_iff n (bitlen n)).1 le_rfl
  have h2 := bitlen_le_iff (n + 1) (bitlen n)
  have h3 := bitlen_le_iff (n + 1) (bitlen n + 1)
  have h4 := bitlen_le_iff n (bitlen (n + 1))
  have h5 := (bitlen_le_iff (n + 1) (bitlen (n + 1))).1 le_rfl
  have h6 : bitlen n ≤ bitlen (n + 1) := h4.2 (by omega)
  have h7 : 2 ^ (bitlen n + 1) = 2 * 2 ^ bitlen n := by ring
  split <;> omega

/-- The width after `next` grows by one (R149), and the width of LE, which tests the code it has assigned (43_lzw_encoder.md
R163): both follow the number of digits. -/
theorem width_step {n w : Nat} (hw : w = min Config.wMax (bitlen n)) :
    (if n + 1 = 2 ^ w ∧ w < Config.wMax then w + 1 else w) = min Config.wMax (bitlen (n + 1)) := by
  rw [bitlen_succ]
  have h12 : Config.wMax = 12 := rfl
  by_cases h : bitlen n < 12
  · have : w = bitlen n := by omega
    subst this
    by_cases h1 : n + 1 = 2 ^ bitlen n
    · rw [if_pos ⟨h1, by omega⟩, if_pos h1]; omega
    · rw [if_neg (fun h2 => h1 h2.1), if_neg h1]; omega
  · rw [if_neg (by omega)]
    by_cases h1 : n + 1 = 2 ^ bitlen n
    · rw [if_pos h1]; omega
    · rw [if_neg h1]; omega

/-- For a min code size in its range the first assignable code has one digit more than it. -/
theorem bitlen_firstFree {m : Nat} (hm : 2 ≤ m) :
    bitlen (firstFree m) = m + 1 ∧ bitlen (firstFree m - 1) = m + 1 := by
  have h2 : 4 ≤ 2 ^ m := by calc 4 = 2 ^ 2 := rfl
    _ ≤ 2 ^ m := Nat.pow_le_pow_right (by omega) hm
  have h3 : 2 ^ (m + 1) = 2 * 2 ^ m := by ring
  have key : ∀ n, 2 ^ m ≤ n → n < 2 ^ (m + 1) → bitlen n = m + 1 := by
    intro n h4 h5
    have := bitlen_le_iff n m
    have := bitlen_le_iff n (m + 1)
    omega
  constructor <;> apply key <;> simp only [firstFree] <;> omega

/-! ### The canonical form (10_state.md R27, R36) -/

theorem dataCode_iff {m n : Nat} {c : Code} :
    dataCode m n c = true ↔ c.toNat < n ∧ c.toNat ≠ clearOf m ∧ c.toNat ≠ eoiOf m := by
  simp [dataCode, and_assoc]

theorem dataCode_mono {m n n' : Nat} {c : Code} (h : n ≤ n') (hc : dataCode m n c = true) :
    dataCode m n' c = true := by
  rw [dataCode_iff] at *
  omega

/-- A data code is a root or at least the first assignable code. -/
theorem dataCode_cases {m n : Nat} {c : Code} (hc : dataCode m n c = true) :
    c.toNat < 2 ^ m ∨ firstFree m ≤ c.toNat := by
  rw [dataCode_iff] at hc
  simp only [clearOf, eoiOf, firstFree] at *
  omega

theorem dataCode_root {m n : Nat} {c : Code} (hc : c.toNat < 2 ^ m) (hn : firstFree m ≤ n) : dataCode m n c = true := by
  rw [dataCode_iff]
  simp only [clearOf, eoiOf, firstFree] at *
  omega

theorem arena_cons_iff {m next : Nat} {e : Entry} {a : Arena} :
    Arena.wf m next (e :: a) = true ↔
      e.code.toNat + 1 = next ∧ firstFree m ≤ e.code.toNat ∧ dataCode m e.code.toNat e.prefixCode = true ∧
      e.suffix.toNat < 2 ^ m ∧ Arena.wf m e.code.toNat a = true := by
  simp [Arena.wf, and_assoc]

/-- A cleared dictionary has the canonical form. -/
theorem arena_nil (m : Nat) : Arena.wf m (firstFree m) [] = true := by simp [Arena.wf]

/-- An insertion at the next code (R148 of 42_lzw_decoder.md, R162 of 43_lzw_encoder.md) keeps the canonical form. -/
theorem arena_insert {m next : Nat} {a : Arena} {c p : Code} {k : Byte} (h : Arena.wf m next a = true)
    (hc : c.toNat = next) (hn : firstFree m ≤ next) (hp : dataCode m next p = true) (hk : k.toNat < 2 ^ m) :
    Arena.wf m (next + 1) ({ code := c, prefixCode := p, suffix := k } :: a) = true := by
  rw [arena_cons_iff]
  subst hc
  exact ⟨rfl, hn, hp, hk, h⟩

/-- No cell below the first assignable code or from the next code on holds a value. -/
theorem entryAt_none {m next : Nat} {a : Arena} {c : Code} (h : Arena.wf m next a = true)
    (hc : c.toNat < firstFree m ∨ next ≤ c.toNat) : entryAt a c = none := by
  induction a generalizing next with
  | nil => rfl
  | cons e a ih =>
    rw [arena_cons_iff] at h
    have hne : e.code ≠ c := by rintro rfl; omega
    simp only [entryAt, hne, if_false]
    exact ih h.2.2.2.2 (by omega)

/-- A root stands for itself (R153). -/
theorem seqOf_root {m next : Nat} {a : Arena} {c : Code} (h : Arena.wf m next a = true) (hc : c.toNat < firstFree m) :
    seqOf a c = [c.setWidth 8] ∧ firstOf a c = c.setWidth 8 := by
  induction a generalizing next with
  | nil => exact ⟨rfl, rfl⟩
  | cons e a ih =>
    rw [arena_cons_iff] at h
    have hne : e.code ≠ c := by rintro rfl; omega
    simp only [seqOf, firstOf, hne, if_false]
    exact ih h.2.2.2.2

/-- The first index of a string is the root at the end of its chain (R154), in any dictionary. -/
theorem seqOf_head (a : Arena) (c : Code) : (seqOf a c).head? = some (firstOf a c) := by
  induction a generalizing c with
  | nil => rfl
  | cons e a ih =>
    simp only [seqOf, firstOf]
    split
    · simp [ih]
    · exact ih c

theorem seqOf_ne_nil (a : Arena) (c : Code) : seqOf a c ≠ [] := by
  intro h
  have := seqOf_head a c
  simp [h] at this

/-- Every index of a data code's string is below `2^m` (R156). -/
theorem seqOf_range {m next : Nat} {a : Arena} {c : Code} (hm : m ≤ 8) (h : Arena.wf m next a = true)
    (hc : dataCode m next c = true) : ∀ i ∈ seqOf a c, i.toNat < 2 ^ m := by
  induction a generalizing next c with
  | nil =>
    have hn : next = firstFree m := by simpa [Arena.wf] using h
    have hr : c.toNat < 2 ^ m := by
      have h1 := dataCode_cases hc
      rw [dataCode_iff] at hc
      omega
    have : 2 ^ m ≤ 2 ^ 8 := Nat.pow_le_pow_right (by omega) hm
    intro i hi
    obtain rfl : i = c.setWidth 8 := by simpa [seqOf] using hi
    simp
    omega
  | cons e a ih =>
    rw [arena_cons_iff] at h
    obtain ⟨h1, h2, h3, h4, h5⟩ := h
    intro i hi
    simp only [seqOf] at hi
    split at hi
    · rcases List.mem_append.1 hi with h | h
      · exact ih h5 h3 i h
      · obtain rfl : i = e.suffix := by simpa using h
        exact h4
    · rename_i hne
      refine ih h5 ?_ i hi
      rw [dataCode_iff] at *
      have : e.code.toNat ≠ c.toNat := fun h => hne (BitVec.eq_of_toNat_eq h)
      omega

theorem firstOf_range {m next : Nat} {a : Arena} {c : Code} (hm : m ≤ 8) (h : Arena.wf m next a = true)
    (hc : dataCode m next c = true) : (firstOf a c).toNat < 2 ^ m := by
  have hh := seqOf_head a c
  cases hs : seqOf a c with
  | nil => exact absurd hs (seqOf_ne_nil a c)
  | cons x xs =>
    rw [hs] at hh
    obtain rfl : x = firstOf a c := by simpa using hh
    exact seqOf_range hm h hc _ (by rw [hs]; simp)

/-- The codes of a dictionary's entries, and their prefixes, are data codes below the next code. -/
theorem arena_mem {m next : Nat} {a : Arena} {e : Entry} (h : Arena.wf m next a = true) (he : e ∈ a) :
    dataCode m next e.code = true ∧ dataCode m next e.prefixCode = true := by
  induction a generalizing next with
  | nil => cases he
  | cons x a ih =>
    rw [arena_cons_iff] at h
    rcases List.mem_cons.1 he with rfl | he
    · refine ⟨?_, dataCode_mono (by omega) h.2.2.1⟩
      rw [dataCode_iff]
      simp only [firstFree, clearOf, eoiOf] at *
      omega
    · have := ih h.2.2.2.2 he
      exact ⟨dataCode_mono (by omega) this.1, dataCode_mono (by omega) this.2⟩

/-! ### `find` (10_state.md R29) -/

theorem findPair_some {a : Arena} {p c : Code} {i : Byte} (h : findPair a p i = some c) :
    { code := c, prefixCode := p, suffix := i : Entry } ∈ a := by
  induction a with
  | nil => cases h
  | cons e a ih =>
    simp only [findPair] at h
    split at h
    · obtain ⟨rfl, rfl⟩ := ‹_ ∧ _›
      obtain rfl : e.code = c := by simpa using h
      simp
    · exact List.mem_cons_of_mem _ (ih h)

theorem findPair_none {a : Arena} {p : Code} {i : Byte} (h : findPair a p i = none) :
    (p, i) ∉ a.map fun e => (e.prefixCode, e.suffix) := by
  induction a with
  | nil => simp
  | cons e a ih =>
    simp only [findPair] at h
    split at h
    · cases h
    · rename_i hne
      rw [List.map_cons, List.mem_cons]
      rintro (h' | h')
      · simp only [Prod.mk.injEq] at h'
        exact hne ⟨h'.1.symm, h'.2.symm⟩
      · exact ih h h'

/-- Inserting a pair that is not stored keeps the pairs distinct. -/
theorem pairsDistinct_insert {a : Arena} {c p : Code} {i : Byte} (h : pairsDistinct a) (hf : findPair a p i = none) :
    pairsDistinct ({ code := c, prefixCode := p, suffix := i } :: a) :=
  List.nodup_cons.2 ⟨findPair_none hf, h⟩

end Sys2Proof.Machine
end

