-- ==== Sys2Proof/Laws/State.lean ====
section
/-! SUPPORT. What each update of the state leaves in each field: one lemma per field per update, true by definition, so
that no later proof unfolds an update. -/

namespace Sys2Proof.Machine

variable (s : State)

/-! ### `State.withBp` -/

@[simp] theorem State.withBp_params (u : BpUnit) : (s.withBp u).params = s.params := rfl
@[simp] theorem State.withBp_bp (u : BpUnit) : (s.withBp u).bp = u := rfl
@[simp] theorem State.withBp_bf (u : BpUnit) : (s.withBp u).bf = s.bf := rfl
@[simp] theorem State.withBp_ld (u : BpUnit) : (s.withBp u).ld = s.ld := rfl
@[simp] theorem State.withBp_le (u : BpUnit) : (s.withBp u).le = s.le := rfl
@[simp] theorem State.withBp_maxPixels (u : BpUnit) : (s.withBp u).maxPixels = s.maxPixels := rfl
@[simp] theorem State.withBp_active (u : BpUnit) : (s.withBp u).active = s.active := rfl
@[simp] theorem State.withBp_host (u : BpUnit) : (s.withBp u).host = s.host := rfl
@[simp] theorem State.withBp_results (u : BpUnit) : (s.withBp u).results = s.results := rfl
@[simp] theorem State.withBp_src (u : BpUnit) : (s.withBp u).src = s.src := rfl
@[simp] theorem State.withBp_sink (u : BpUnit) : (s.withBp u).sink = s.sink := rfl
@[simp] theorem State.withBp_sinkAnswers (u : BpUnit) : (s.withBp u).sinkAnswers = s.sinkAnswers := rfl

/-! ### `State.withBf` -/

@[simp] theorem State.withBf_params (u : BfUnit) : (s.withBf u).params = s.params := rfl
@[simp] theorem State.withBf_bp (u : BfUnit) : (s.withBf u).bp = s.bp := rfl
@[simp] theorem State.withBf_bf (u : BfUnit) : (s.withBf u).bf = u := rfl
@[simp] theorem State.withBf_ld (u : BfUnit) : (s.withBf u).ld = s.ld := rfl
@[simp] theorem State.withBf_le (u : BfUnit) : (s.withBf u).le = s.le := rfl
@[simp] theorem State.withBf_maxPixels (u : BfUnit) : (s.withBf u).maxPixels = s.maxPixels := rfl
@[simp] theorem State.withBf_active (u : BfUnit) : (s.withBf u).active = s.active := rfl
@[simp] theorem State.withBf_host (u : BfUnit) : (s.withBf u).host = s.host := rfl
@[simp] theorem State.withBf_results (u : BfUnit) : (s.withBf u).results = s.results := rfl
@[simp] theorem State.withBf_src (u : BfUnit) : (s.withBf u).src = s.src := rfl
@[simp] theorem State.withBf_sink (u : BfUnit) : (s.withBf u).sink = s.sink := rfl
@[simp] theorem State.withBf_sinkAnswers (u : BfUnit) : (s.withBf u).sinkAnswers = s.sinkAnswers := rfl

/-! ### `State.withLd` -/

@[simp] theorem State.withLd_params (u : LdUnit) : (s.withLd u).params = s.params := rfl
@[simp] theorem State.withLd_bp (u : LdUnit) : (s.withLd u).bp = s.bp := rfl
@[simp] theorem State.withLd_bf (u : LdUnit) : (s.withLd u).bf = s.bf := rfl
@[simp] theorem State.withLd_ld (u : LdUnit) : (s.withLd u).ld = u := rfl
@[simp] theorem State.withLd_le (u : LdUnit) : (s.withLd u).le = s.le := rfl
@[simp] theorem State.withLd_maxPixels (u : LdUnit) : (s.withLd u).maxPixels = s.maxPixels := rfl
@[simp] theorem State.withLd_active (u : LdUnit) : (s.withLd u).active = s.active := rfl
@[simp] theorem State.withLd_host (u : LdUnit) : (s.withLd u).host = s.host := rfl
@[simp] theorem State.withLd_results (u : LdUnit) : (s.withLd u).results = s.results := rfl
@[simp] theorem State.withLd_src (u : LdUnit) : (s.withLd u).src = s.src := rfl
@[simp] theorem State.withLd_sink (u : LdUnit) : (s.withLd u).sink = s.sink := rfl
@[simp] theorem State.withLd_sinkAnswers (u : LdUnit) : (s.withLd u).sinkAnswers = s.sinkAnswers := rfl

/-! ### `State.withLe` -/

@[simp] theorem State.withLe_params (u : LeUnit) : (s.withLe u).params = s.params := rfl
@[simp] theorem State.withLe_bp (u : LeUnit) : (s.withLe u).bp = s.bp := rfl
@[simp] theorem State.withLe_bf (u : LeUnit) : (s.withLe u).bf = s.bf := rfl
@[simp] theorem State.withLe_ld (u : LeUnit) : (s.withLe u).ld = s.ld := rfl
@[simp] theorem State.withLe_le (u : LeUnit) : (s.withLe u).le = u := rfl
@[simp] theorem State.withLe_maxPixels (u : LeUnit) : (s.withLe u).maxPixels = s.maxPixels := rfl
@[simp] theorem State.withLe_active (u : LeUnit) : (s.withLe u).active = s.active := rfl
@[simp] theorem State.withLe_host (u : LeUnit) : (s.withLe u).host = s.host := rfl
@[simp] theorem State.withLe_results (u : LeUnit) : (s.withLe u).results = s.results := rfl
@[simp] theorem State.withLe_src (u : LeUnit) : (s.withLe u).src = s.src := rfl
@[simp] theorem State.withLe_sink (u : LeUnit) : (s.withLe u).sink = s.sink := rfl
@[simp] theorem State.withLe_sinkAnswers (u : LeUnit) : (s.withLe u).sinkAnswers = s.sinkAnswers := rfl

/-! ### `State.withMaxPixels` -/

@[simp] theorem State.withMaxPixels_params (v : U32) : (s.withMaxPixels v).params = s.params := rfl
@[simp] theorem State.withMaxPixels_bp (v : U32) : (s.withMaxPixels v).bp = s.bp := rfl
@[simp] theorem State.withMaxPixels_bf (v : U32) : (s.withMaxPixels v).bf = s.bf := rfl
@[simp] theorem State.withMaxPixels_ld (v : U32) : (s.withMaxPixels v).ld = s.ld := rfl
@[simp] theorem State.withMaxPixels_le (v : U32) : (s.withMaxPixels v).le = s.le := rfl
@[simp] theorem State.withMaxPixels_maxPixels (v : U32) : (s.withMaxPixels v).maxPixels = v := rfl
@[simp] theorem State.withMaxPixels_active (v : U32) : (s.withMaxPixels v).active = s.active := rfl
@[simp] theorem State.withMaxPixels_host (v : U32) : (s.withMaxPixels v).host = s.host := rfl
@[simp] theorem State.withMaxPixels_results (v : U32) : (s.withMaxPixels v).results = s.results := rfl
@[simp] theorem State.withMaxPixels_src (v : U32) : (s.withMaxPixels v).src = s.src := rfl
@[simp] theorem State.withMaxPixels_sink (v : U32) : (s.withMaxPixels v).sink = s.sink := rfl
@[simp] theorem State.withMaxPixels_sinkAnswers (v : U32) : (s.withMaxPixels v).sinkAnswers = s.sinkAnswers := rfl

/-! ### `State.withActive` -/

@[simp] theorem State.withActive_params (a : Option UnitId) : (s.withActive a).params = s.params := rfl
@[simp] theorem State.withActive_bp (a : Option UnitId) : (s.withActive a).bp = s.bp := rfl
@[simp] theorem State.withActive_bf (a : Option UnitId) : (s.withActive a).bf = s.bf := rfl
@[simp] theorem State.withActive_ld (a : Option UnitId) : (s.withActive a).ld = s.ld := rfl
@[simp] theorem State.withActive_le (a : Option UnitId) : (s.withActive a).le = s.le := rfl
@[simp] theorem State.withActive_maxPixels (a : Option UnitId) : (s.withActive a).maxPixels = s.maxPixels := rfl
@[simp] theorem State.withActive_active (a : Option UnitId) : (s.withActive a).active = a := rfl
@[simp] theorem State.withActive_host (a : Option UnitId) : (s.withActive a).host = s.host := rfl
@[simp] theorem State.withActive_results (a : Option UnitId) : (s.withActive a).results = s.results := rfl
@[simp] theorem State.withActive_src (a : Option UnitId) : (s.withActive a).src = s.src := rfl
@[simp] theorem State.withActive_sink (a : Option UnitId) : (s.withActive a).sink = s.sink := rfl
@[simp] theorem State.withActive_sinkAnswers (a : Option UnitId) : (s.withActive a).sinkAnswers = s.sinkAnswers := rfl

/-! ### `State.withHost` -/

@[simp] theorem State.withHost_params (h : List HostAction) : (s.withHost h).params = s.params := rfl
@[simp] theorem State.withHost_bp (h : List HostAction) : (s.withHost h).bp = s.bp := rfl
@[simp] theorem State.withHost_bf (h : List HostAction) : (s.withHost h).bf = s.bf := rfl
@[simp] theorem State.withHost_ld (h : List HostAction) : (s.withHost h).ld = s.ld := rfl
@[simp] theorem State.withHost_le (h : List HostAction) : (s.withHost h).le = s.le := rfl
@[simp] theorem State.withHost_maxPixels (h : List HostAction) : (s.withHost h).maxPixels = s.maxPixels := rfl
@[simp] theorem State.withHost_active (h : List HostAction) : (s.withHost h).active = s.active := rfl
@[simp] theorem State.withHost_host (h : List HostAction) : (s.withHost h).host = h := rfl
@[simp] theorem State.withHost_results (h : List HostAction) : (s.withHost h).results = s.results := rfl
@[simp] theorem State.withHost_src (h : List HostAction) : (s.withHost h).src = s.src := rfl
@[simp] theorem State.withHost_sink (h : List HostAction) : (s.withHost h).sink = s.sink := rfl
@[simp] theorem State.withHost_sinkAnswers (h : List HostAction) : (s.withHost h).sinkAnswers = s.sinkAnswers := rfl

/-! ### `State.reply` -/

@[simp] theorem State.reply_params (r : Result) : (s.reply r).params = s.params := rfl
@[simp] theorem State.reply_bp (r : Result) : (s.reply r).bp = s.bp := rfl
@[simp] theorem State.reply_bf (r : Result) : (s.reply r).bf = s.bf := rfl
@[simp] theorem State.reply_ld (r : Result) : (s.reply r).ld = s.ld := rfl
@[simp] theorem State.reply_le (r : Result) : (s.reply r).le = s.le := rfl
@[simp] theorem State.reply_maxPixels (r : Result) : (s.reply r).maxPixels = s.maxPixels := rfl
@[simp] theorem State.reply_active (r : Result) : (s.reply r).active = s.active := rfl
@[simp] theorem State.reply_host (r : Result) : (s.reply r).host = s.host := rfl
@[simp] theorem State.reply_results (r : Result) : (s.reply r).results = s.results ++ [r] := rfl
@[simp] theorem State.reply_src (r : Result) : (s.reply r).src = s.src := rfl
@[simp] theorem State.reply_sink (r : Result) : (s.reply r).sink = s.sink := rfl
@[simp] theorem State.reply_sinkAnswers (r : Result) : (s.reply r).sinkAnswers = s.sinkAnswers := rfl

/-! ### `State.withSrc` -/

@[simp] theorem State.withSrc_params (a : List SrcAnswer) : (s.withSrc a).params = s.params := rfl
@[simp] theorem State.withSrc_bp (a : List SrcAnswer) : (s.withSrc a).bp = s.bp := rfl
@[simp] theorem State.withSrc_bf (a : List SrcAnswer) : (s.withSrc a).bf = s.bf := rfl
@[simp] theorem State.withSrc_ld (a : List SrcAnswer) : (s.withSrc a).ld = s.ld := rfl
@[simp] theorem State.withSrc_le (a : List SrcAnswer) : (s.withSrc a).le = s.le := rfl
@[simp] theorem State.withSrc_maxPixels (a : List SrcAnswer) : (s.withSrc a).maxPixels = s.maxPixels := rfl
@[simp] theorem State.withSrc_active (a : List SrcAnswer) : (s.withSrc a).active = s.active := rfl
@[simp] theorem State.withSrc_host (a : List SrcAnswer) : (s.withSrc a).host = s.host := rfl
@[simp] theorem State.withSrc_results (a : List SrcAnswer) : (s.withSrc a).results = s.results := rfl
@[simp] theorem State.withSrc_src (a : List SrcAnswer) : (s.withSrc a).src = a := rfl
@[simp] theorem State.withSrc_sink (a : List SrcAnswer) : (s.withSrc a).sink = s.sink := rfl
@[simp] theorem State.withSrc_sinkAnswers (a : List SrcAnswer) : (s.withSrc a).sinkAnswers = s.sinkAnswers := rfl

/-! ### `State.withSink` -/

@[simp] theorem State.withSink_params (bs : List Byte) (a : List SinkAnswer) : (s.withSink bs a).params = s.params := rfl
@[simp] theorem State.withSink_bp (bs : List Byte) (a : List SinkAnswer) : (s.withSink bs a).bp = s.bp := rfl
@[simp] theorem State.withSink_bf (bs : List Byte) (a : List SinkAnswer) : (s.withSink bs a).bf = s.bf := rfl
@[simp] theorem State.withSink_ld (bs : List Byte) (a : List SinkAnswer) : (s.withSink bs a).ld = s.ld := rfl
@[simp] theorem State.withSink_le (bs : List Byte) (a : List SinkAnswer) : (s.withSink bs a).le = s.le := rfl
@[simp] theorem State.withSink_maxPixels (bs : List Byte) (a : List SinkAnswer) : (s.withSink bs a).maxPixels = s.maxPixels := rfl
@[simp] theorem State.withSink_active (bs : List Byte) (a : List SinkAnswer) : (s.withSink bs a).active = s.active := rfl
@[simp] theorem State.withSink_host (bs : List Byte) (a : List SinkAnswer) : (s.withSink bs a).host = s.host := rfl
@[simp] theorem State.withSink_results (bs : List Byte) (a : List SinkAnswer) : (s.withSink bs a).results = s.results := rfl
@[simp] theorem State.withSink_src (bs : List Byte) (a : List SinkAnswer) : (s.withSink bs a).src = s.src := rfl
@[simp] theorem State.withSink_sink (bs : List Byte) (a : List SinkAnswer) : (s.withSink bs a).sink = bs := rfl
@[simp] theorem State.withSink_sinkAnswers (bs : List Byte) (a : List SinkAnswer) : (s.withSink bs a).sinkAnswers = a := rfl

/-! ### `State.finish` -/

@[simp] theorem State.finish_params (r : Result) : (s.finish r).params = s.params := rfl
@[simp] theorem State.finish_bp (r : Result) : (s.finish r).bp = s.bp := rfl
@[simp] theorem State.finish_bf (r : Result) : (s.finish r).bf = s.bf := rfl
@[simp] theorem State.finish_ld (r : Result) : (s.finish r).ld = s.ld := rfl
@[simp] theorem State.finish_le (r : Result) : (s.finish r).le = s.le := rfl
@[simp] theorem State.finish_maxPixels (r : Result) : (s.finish r).maxPixels = s.maxPixels := rfl
@[simp] theorem State.finish_active (r : Result) : (s.finish r).active = none := rfl
@[simp] theorem State.finish_host (r : Result) : (s.finish r).host = s.host := rfl
@[simp] theorem State.finish_results (r : Result) : (s.finish r).results = s.results ++ [r] := rfl
@[simp] theorem State.finish_src (r : Result) : (s.finish r).src = s.src := rfl
@[simp] theorem State.finish_sink (r : Result) : (s.finish r).sink = s.sink := rfl
@[simp] theorem State.finish_sinkAnswers (r : Result) : (s.finish r).sinkAnswers = s.sinkAnswers := rfl

end Sys2Proof.Machine
end

