-- ==== Sys2Proof/Laws/Ops.lean ====
section
/-! SUPPORT. What each shared operation of Machine/Ops.lean can do, said once: failure entry, RESET, the stream
primitives, and the guards of the three contexts. -/

namespace Sys2Proof.Machine

variable (s : State)

/-! ### Failure entry (60_exceptions.md R186) -/

section raise
variable (k : ErrorKind) (n : Nat)

@[simp] theorem raiseFail_bp_bp :
    (raiseFail .bp k n s).bp = { s.bp with phase := .failed, buf := [], err := some k, errPos := n } := rfl
@[simp] theorem raiseFail_bp_bf : (raiseFail .bp k n s).bf = s.bf := rfl
@[simp] theorem raiseFail_bp_ld : (raiseFail .bp k n s).ld = s.ld := rfl
@[simp] theorem raiseFail_bp_le : (raiseFail .bp k n s).le = s.le := rfl
@[simp] theorem raiseFail_bf_bp : (raiseFail .bf k n s).bp = s.bp := rfl
@[simp] theorem raiseFail_bf_bf :
    (raiseFail .bf k n s).bf = { s.bf with phase := .failed, pending := [], err := some k, errPos := n } := rfl
@[simp] theorem raiseFail_bf_ld : (raiseFail .bf k n s).ld = s.ld := rfl
@[simp] theorem raiseFail_bf_le : (raiseFail .bf k n s).le = s.le := rfl
@[simp] theorem raiseFail_ld_bp : (raiseFail .ld k n s).bp = s.bp := rfl
@[simp] theorem raiseFail_ld_bf : (raiseFail .ld k n s).bf = s.bf := rfl
@[simp] theorem raiseFail_ld_ld :
    (raiseFail .ld k n s).ld = { s.ld with phase := .failed, out := [], err := some k, errPos := n } := rfl
@[simp] theorem raiseFail_ld_le : (raiseFail .ld k n s).le = s.le := rfl
@[simp] theorem raiseFail_le_bp : (raiseFail .le k n s).bp = s.bp := rfl
@[simp] theorem raiseFail_le_bf : (raiseFail .le k n s).bf = s.bf := rfl
@[simp] theorem raiseFail_le_ld : (raiseFail .le k n s).ld = s.ld := rfl
@[simp] theorem raiseFail_le_le :
    (raiseFail .le k n s).le = { s.le with phase := .failed, out := [], err := some k, errPos := n } := rfl

variable (u : UnitId)

@[simp] theorem raiseFail_params : (raiseFail u k n s).params = s.params := by cases u <;> rfl
@[simp] theorem raiseFail_maxPixels : (raiseFail u k n s).maxPixels = s.maxPixels := by cases u <;> rfl
@[simp] theorem raiseFail_active : (raiseFail u k n s).active = none := by cases u <;> rfl
@[simp] theorem raiseFail_host : (raiseFail u k n s).host = s.host := by cases u <;> rfl
@[simp] theorem raiseFail_results : (raiseFail u k n s).results = s.results ++ [.fail k] := by cases u <;> rfl
@[simp] theorem raiseFail_src : (raiseFail u k n s).src = s.src := by cases u <;> rfl
@[simp] theorem raiseFail_sink : (raiseFail u k n s).sink = s.sink := by cases u <;> rfl
@[simp] theorem raiseFail_sinkAnswers : (raiseFail u k n s).sinkAnswers = s.sinkAnswers := by cases u <;> rfl

end raise

/-- A command to a Failed unit returns the stored failure; without a stored one the machine stops. -/
theorem repeatFail_next {err : Option ErrorKind} {s t : State} (h : repeatFail err s = .next t) :
    ∃ k, err = some k ∧ t = s.finish (.fail k) := by
  cases err with
  | none => simp [repeatFail] at h
  | some k => exact ⟨k, rfl, by simpa [repeatFail, eq_comm] using h⟩

/-! ### RESET (70_reset_and_hazards.md R200, R201) -/

@[simp] theorem resetUnit_bp : resetUnit .bp s = s.withBp BpUnit.reset := rfl
@[simp] theorem resetUnit_bf : resetUnit .bf s = s.withBf BfUnit.reset := rfl
@[simp] theorem resetUnit_ld : resetUnit .ld s = s.withLd LdUnit.reset := rfl
@[simp] theorem resetUnit_le : resetUnit .le s = s.withLe LeUnit.reset := rfl

/-- RESET ALL writes the four units and `cfg.max_pixels`, and nothing else. -/
theorem resetAll_eq : resetAll s =
    { s with bp := BpUnit.reset, bf := BfUnit.reset, ld := LdUnit.reset, le := LeUnit.reset,
             maxPixels := Config.maxPixelsReset } := rfl

/-! ### Stream primitives (00_scope.md R13) -/

/-- What one checked read can do. -/
theorem read1_cases :
    (∃ b rest, s.src = .byte b :: rest ∧
      read1 s = .ok (b, (s.withSrc rest).withBp { s.bp with pos := s.bp.pos + 1 })) ∨
    (s.src = [] ∧ read1 s = .error (raiseFail .bp .unexpectedEndOfStream s.bp.pos s)) ∨
    (∃ rest, s.src = .eof :: rest ∧
      read1 s = .error (raiseFail .bp .unexpectedEndOfStream s.bp.pos (s.withSrc rest))) ∨
    (∃ e rest, s.src = .ioErr e :: rest ∧
      read1 s = .error (raiseFail .bp (.ioFailure e) s.bp.pos (s.withSrc rest))) := by
  unfold read1
  split <;> simp_all

/-- What one checked write can do. -/
theorem write1_cases (b : Byte) :
    (∃ rest, (s.sinkAnswers = [] ∧ rest = [] ∨ s.sinkAnswers = .ok :: rest) ∧
      write1 b s = .ok ((s.withSink (s.sink ++ [b]) rest).withBf { s.bf with pos := s.bf.pos + 1 })) ∨
    (∃ e kept rest, s.sinkAnswers = .ioErr e kept :: rest ∧
      write1 b s = .error (raiseFail .bf (.ioFailure e) s.bf.pos
        (s.withSink (if kept then s.sink ++ [b] else s.sink) rest))) := by
  unfold write1
  split
  · exact .inl ⟨[], .inl ⟨‹_›, rfl⟩, rfl⟩
  · exact .inl ⟨_, .inr ‹_›, rfl⟩
  · exact .inr ⟨_, _, _, ‹_›, rfl⟩

/-! ### Contexts -/

variable {s}

theorem whenIdle_idle {o : StepOutcome} (h : s.active = none) : whenIdle s o = o := by simp [whenIdle, h]

theorem whenIdle_busy {o : StepOutcome} (h : s.active ≠ none) : whenIdle s o = .refused .overlappingCommand := by
  unfold whenIdle
  split
  · contradiction
  · rfl

/-- A command that gives a next state was given while no unit ran. -/
theorem whenIdle_next {o : StepOutcome} {t : State} (h : whenIdle s o = .next t) : s.active = none ∧ o = .next t := by
  unfold whenIdle at h
  split at h
  · exact ⟨‹_›, h⟩
  · cases h

theorem inBlockContext_of {i : Instr} {o : StepOutcome} (ha : s.active = some .bp)
    (hi : admits (.block s.bp.phase) i = true) : inBlockContext i s o = o := by simp [inBlockContext, ha, hi]

/-- A block form that gives a next state was read by BP in a phase that selects it. -/
theorem inBlockContext_next {i : Instr} {o : StepOutcome} {t : State} (h : inBlockContext i s o = .next t) :
    s.active = some .bp ∧ admits (.block s.bp.phase) i = true ∧ o = .next t := by
  unfold inBlockContext at h
  split at h
  · exact ⟨(‹_ ∧ _›).1, (‹_ ∧ _›).2, h⟩
  · cases h

theorem inCodeContext_of {i : Instr} {o : StepOutcome} (ha : s.active = some .ld)
    (hi : admits s.ld.context i = true) : inCodeContext i s o = o := by simp [inCodeContext, ha, hi]

/-- A code class that gives a next state was read by LD under its condition of R89. -/
theorem inCodeContext_next {i : Instr} {o : StepOutcome} {t : State} (h : inCodeContext i s o = .next t) :
    s.active = some .ld ∧ admits s.ld.context i = true ∧ o = .next t := by
  unfold inCodeContext at h
  split at h
  · exact ⟨(‹_ ∧ _›).1, (‹_ ∧ _›).2, h⟩
  · cases h

end Sys2Proof.Machine
end

