-- ==== Sys2Proof/Laws/Codec.lean ====
section
/-! SUPPORT. Laws of the two LZW units: what LD's insertion and output can do, what LE's `emit`, `flush` and insertion
leave, and the ranges they keep. -/

namespace Sys2Proof.Machine

/-! ### Registers as numbers -/

theorem next_succ {n : BitVec 13} (h : n.toNat ≤ 4096) : (n + 1#13).toNat = n.toNat + 1 := by
  rw [BitVec.toNat_add]; simp; omega

theorem next_code {n : BitVec 13} (h : n.toNat < 4096) : (n.setWidth 12).toNat = n.toNat := by
  simp; omega

theorem width_succ {w : BitVec 4} (h : w.toNat < 12) : (w + 1#4).toNat = w.toNat + 1 := by
  rw [BitVec.toNat_add]; simp; omega

theorem firstFree_next {m : Nat} (h : m ≤ 8) : (BitVec.ofNat 13 (firstFree m)).toNat = firstFree m := by
  have : 2 ^ m ≤ 2 ^ 8 := Nat.pow_le_pow_right (by omega) h
  simp [firstFree]; omega

theorem codeSizeLegal_iff (m : Byte) : codeSizeLegal m = true ↔ 2 ≤ m.toNat ∧ m.toNat ≤ 8 := by
  rw [codeSizeLegal, Bool.and_eq_true, decide_eq_true_eq, decide_eq_true_eq]
  rfl

theorem codeSize_m {m : Byte} (h : m.toNat ≤ 8) : (m.setWidth 4).toNat = m.toNat := by simp; omega

theorem codeSize_width {m : Byte} (h : m.toNat ≤ 8) : ((m + 1#8).setWidth 4).toNat = m.toNat + 1 := by
  simp [BitVec.toNat_add]; omega

/-! ### LD (42_lzw_decoder.md) -/

theorem LdUnit.growWidth_eq (u : LdUnit) :
    u.growWidth = { u with width :=
      (if u.next.toNat = 2 ^ u.width.toNat ∧ u.width.toNat < Config.wMax then u.width + 1#4 else u.width) } := by
  unfold LdUnit.growWidth; split <;> rfl

/-- What an insertion can do (R148, R149, R150). -/
theorem LdUnit.insert_cases (u : LdUnit) (policy : Config.FullDictPolicy) (p : Code) (k : Byte) :
    (u.next.toNat < Config.dictCap ∧ u.insert policy p k = some { u with
      arena := { code := u.next.setWidth 12, prefixCode := p, suffix := k } :: u.arena
      next  := u.next + 1#13
      width := (if (u.next + 1#13).toNat = 2 ^ u.width.toNat ∧ u.width.toNat < Config.wMax then u.width + 1#4
                else u.width) }) ∨
    (Config.dictCap ≤ u.next.toNat ∧ policy = .freeze ∧ u.insert policy p k = some u) ∨
    (Config.dictCap ≤ u.next.toNat ∧ policy = .fault ∧ u.insert policy p k = none) := by
  unfold LdUnit.insert
  split
  · exact .inl ⟨‹_›, congrArg some (LdUnit.growWidth_eq _)⟩
  · cases policy
    · exact .inr (.inl ⟨by omega, rfl, rfl⟩)
    · exact .inr (.inr ⟨by omega, rfl, rfl⟩)

/-- An insertion writes nothing but the dictionary, the next code and the width. -/
theorem LdUnit.insert_frame {u u' : LdUnit} {policy : Config.FullDictPolicy} {p : Code} {k : Byte}
    (h : u.insert policy p k = some u') :
    u' = { u with arena := u'.arena, next := u'.next, width := u'.width } := by
  rcases u.insert_cases policy p k with ⟨-, e⟩ | ⟨-, -, e⟩ | ⟨-, -, e⟩ <;> rw [e] at h <;> cases h <;> rfl

/-- Putting out a string either stays within the limit or fails where the code started (R151). -/
theorem outputString_cases (e : List Byte) (c : Code) (u : LdUnit) (s : State) :
    (s.ld.out.length + e.length ≤ s.ld.maxOut.toNat ∧
      outputString e c u s = .next (s.withLd { u with out := u.out ++ e, prev := some c })) ∨
    (s.ld.maxOut.toNat < s.ld.out.length + e.length ∧
      outputString e c u s = .next (raiseFail .ld .imageTooLarge s.ld.bitpos s)) := by
  unfold outputString
  split
  · exact .inr ⟨‹_›, rfl⟩
  · exact .inl ⟨by omega, rfl⟩

/-- What inserting and putting out can do: it fails where the code started, or it commits both. -/
theorem insertAndOutput_cases (p : Code) (k : Byte) (e : List Byte) (c : Code) (s : State) :
    (∃ kind, (kind = .lzwCodeOutOfRange ∨ kind = .imageTooLarge) ∧
      insertAndOutput p k e c s = .next (raiseFail .ld kind s.ld.bitpos s)) ∨
    (∃ u, s.ld.advance.insert s.params.fullDictPolicy p k = some u ∧
      s.ld.out.length + e.length ≤ s.ld.maxOut.toNat ∧
      insertAndOutput p k e c s = .next (s.withLd { u with out := u.out ++ e, prev := some c })) := by
  unfold insertAndOutput
  split
  · exact .inl ⟨_, .inl rfl, rfl⟩
  · rename_i u hu
    rcases outputString_cases e c u s with ⟨h1, h2⟩ | ⟨-, h2⟩
    · exact .inr ⟨u, hu, h1, h2⟩
    · exact .inl ⟨_, .inr rfl, h2⟩

/-! ### LE (43_lzw_encoder.md) -/

/-- Emptying the accumulator writes nothing but the output and the accumulator, leaves fewer than 8 bits, and leaves no
bit above them. -/
theorem LeUnit.drain_spec (fuel : Nat) (u : LeUnit) :
    (LeUnit.drain fuel u = { u with
      out := (LeUnit.drain fuel u).out, acc := (LeUnit.drain fuel u).acc, nacc := (LeUnit.drain fuel u).nacc }) ∧
    (u.nacc < 8 * fuel + 8 → (LeUnit.drain fuel u).nacc < 8) ∧
    (u.acc < 2 ^ u.nacc → (LeUnit.drain fuel u).acc < 2 ^ (LeUnit.drain fuel u).nacc) := by
  induction fuel generalizing u with
  | zero => exact ⟨rfl, by simp [LeUnit.drain], by simp [LeUnit.drain]⟩
  | succ n ih =>
    unfold LeUnit.drain
    split
    · rename_i h8
      obtain ⟨h1, h2, h3⟩ := ih { u with
        out := u.out ++ [BitVec.ofNat 8 u.acc], acc := u.acc >>> 8, nacc := u.nacc - 8 }
      refine ⟨h1, fun h => h2 (by simp; omega), fun h => h3 ?_⟩
      simp only [Nat.shiftRight_eq_div_pow]
      rw [Nat.div_lt_iff_lt_mul (by positivity), ← Nat.pow_add]
      simpa [Nat.sub_add_cancel h8] using h
    · exact ⟨rfl, fun _ => by omega, id⟩

/-- `emit` writes nothing but the output and the accumulator (R158). -/
theorem LeUnit.emit_frame (c : Nat) (u : LeUnit) :
    u.emit c = { u with out := (u.emit c).out, acc := (u.emit c).acc, nacc := (u.emit c).nacc } :=
  (LeUnit.drain_spec _ _).1

section emit
variable (c : Nat) (u : LeUnit)

@[simp] theorem LeUnit.emit_phase : (u.emit c).phase = u.phase := by rw [LeUnit.emit_frame]
@[simp] theorem LeUnit.emit_m : (u.emit c).m = u.m := by rw [LeUnit.emit_frame]
@[simp] theorem LeUnit.emit_width : (u.emit c).width = u.width := by rw [LeUnit.emit_frame]
@[simp] theorem LeUnit.emit_next : (u.emit c).next = u.next := by rw [LeUnit.emit_frame]
@[simp] theorem LeUnit.emit_cand : (u.emit c).cand = u.cand := by rw [LeUnit.emit_frame]
@[simp] theorem LeUnit.emit_dict : (u.emit c).dict = u.dict := by rw [LeUnit.emit_frame]
@[simp] theorem LeUnit.emit_input : (u.emit c).input = u.input := by rw [LeUnit.emit_frame]
@[simp] theorem LeUnit.emit_inpos : (u.emit c).inpos = u.inpos := by rw [LeUnit.emit_frame]
@[simp] theorem LeUnit.emit_err : (u.emit c).err = u.err := by rw [LeUnit.emit_frame]
@[simp] theorem LeUnit.emit_errPos : (u.emit c).errPos = u.errPos := by rw [LeUnit.emit_frame]

end emit

/-- After `emit` fewer than 8 bits are held (R158). -/
theorem LeUnit.emit_nacc (c : Nat) (u : LeUnit) : (u.emit c).nacc < 8 :=
  (LeUnit.drain_spec _ _).2.1 (by simp; omega)

/-- `emit` of a code that fits its width leaves no bit above those held (10_state.md R36). -/
theorem LeUnit.emit_acc {c : Nat} {u : LeUnit} (ha : u.acc < 2 ^ u.nacc) (hc : c < 2 ^ u.width.toNat) :
    (u.emit c).acc < 2 ^ (u.emit c).nacc := by
  apply (LeUnit.drain_spec _ _).2.2
  apply Nat.or_lt_two_pow
  · exact lt_of_lt_of_le ha (Nat.pow_le_pow_right (by omega) (by simp))
  · rw [Nat.shiftLeft_eq, Nat.pow_add, Nat.mul_comm]
    exact Nat.mul_lt_mul_of_pos_left hc (by positivity)

theorem LeUnit.widenAt_eq (c : Nat) (u : LeUnit) :
    u.widenAt c = { u with width :=
      (if c = 2 ^ u.width.toNat ∧ u.width.toNat < Config.wMax then u.width + 1#4 else u.width) } := by
  unfold LeUnit.widenAt; split <;> rfl

/-- What the leading clear leaves (R157): the registers of the start, and the clear code emitted. -/
theorem LeUnit.leadingClear_eq (u : LeUnit) : u.leadingClear = u.emit (clearOf u.m.toNat) := rfl

end Sys2Proof.Machine
end

