-- ==== Sys2Proof/Laws/Decode.lean ====
section
/-! SUPPORT. Laws of the decoder and the encoder: byte order, sub-block runs, colour tables, and which forms a phase or a
context decodes to. -/

namespace Sys2Proof

/-! ### Byte order (00_scope.md R10) -/

theorem le16_toNat (lo hi : Byte) : (le16 lo hi).toNat = lo.toNat + 256 * hi.toNat := by
  have h : ∀ a b : Byte, le16 a b = BitVec.ofNat 16 (a.toNat + 256 * b.toNat) := by
    intro a b
    have : a.setWidth 16 &&& (b.setWidth 16 <<< 8) = 0#16 := by
      ext i hi
      simp only [BitVec.getElem_and, BitVec.getElem_setWidth, BitVec.getElem_shiftLeft, BitVec.getElem_zero,
        Bool.and_eq_false_imp]
      intro ha
      have := BitVec.lt_of_getLsbD ha
      simp; omega
    rw [le16, ← BitVec.add_eq_or_of_and_eq_zero _ _ this]
    apply BitVec.eq_of_toNat_eq
    have := a.isLt
    have := b.isLt
    simp [Nat.shiftLeft_eq]
    omega
  rw [h, BitVec.toNat_ofNat]
  have := lo.isLt
  have := hi.isLt
  omega

/-- A two-byte field is read as it was written. -/
theorem le16_bytesLE16 (v : U16) : le16 (v.setWidth 8) ((v >>> 8).setWidth 8) = v := by
  apply BitVec.eq_of_toNat_eq
  rw [le16_toNat]
  have := v.isLt
  simp [Nat.shiftRight_eq_div_pow]
  omega

/-- A two-byte field is written as it was read. -/
theorem bytesLE16_le16 (lo hi : Byte) : bytesLE16 (le16 lo hi) = [lo, hi] := by
  have h := le16_toNat lo hi
  have := lo.isLt
  have := hi.isLt
  simp only [bytesLE16, List.cons.injEq, and_true]
  constructor <;> apply BitVec.eq_of_toNat_eq
  · simp [h]; omega
  · simp [h, Nat.shiftRight_eq_div_pow]; omega

/-! ### Sub-blocks (40_block_parser.md R114) -/

theorem takeBytes_append (d r : List Byte) : takeBytes d.length (d ++ r) = some (d, r) := by simp [takeBytes]

theorem takeBytes_some {n : Nat} {bs d r : List Byte} (h : takeBytes n bs = some (d, r)) :
    bs = d ++ r ∧ d.length = n := by
  unfold takeBytes at h
  split at h
  · obtain ⟨rfl, rfl⟩ : bs.take n = d ∧ bs.drop n = r := by simpa using h
    exact ⟨(List.take_append_drop n bs).symm, by simpa using ‹_›⟩
  · cases h

/-- Reading back a run of well-formed sub-blocks, whatever follows, with any fuel that covers its length bytes. -/
theorem readSubsFuel_subsBytes (subs : List (List Byte)) (rest : List Byte) (fuel : Nat)
    (h : subsWf subs = true) (hf : subs.length < fuel) :
    readSubsFuel fuel (subsBytes subs ++ rest) = some (subs, rest) := by
  induction subs generalizing fuel with
  | nil => cases fuel with
    | zero => simp at hf
    | succ n => simp [subsBytes, readSubsFuel]
  | cons d ds ih =>
    cases fuel with
    | zero => simp at hf
    | succ n =>
      simp only [subsWf, List.all_cons, Bool.and_eq_true, subWf, decide_eq_true_eq, Config.subMax] at h
      obtain ⟨⟨h1, h255⟩, hds⟩ := h
      replace h255 : d.length ≤ 255 := of_decide_eq_true h255
      have hn : BitVec.ofNat 8 d.length ≠ 0#8 := by
        intro h0
        have := congrArg BitVec.toNat h0
        simp at this
        omega
      have hl : (BitVec.ofNat 8 d.length).toNat = d.length := by simp; omega
      simp only [subsBytes, List.cons_append, List.append_assoc, readSubsFuel, hn, if_false, hl, takeBytes_append]
      rw [ih n hds (by simpa using hf)]

theorem subsBytes_length (subs : List (List Byte)) : subs.length < (subsBytes subs).length := by
  induction subs with
  | nil => simp [subsBytes]
  | cons d ds ih => simp [subsBytes]; omega

/-- `readSubs` reads back what `writeSubs` wrote. -/
theorem readSubs_subsBytes {subs : List (List Byte)} (rest : List Byte) (h : subsWf subs = true) :
    readSubs (subsBytes subs ++ rest) = some (subs, rest) := by
  apply readSubsFuel_subsBytes _ _ _ h
  have := subsBytes_length subs
  simp
  omega

theorem readSubsFuel_some {fuel : Nat} {bs rest : List Byte} {subs : List (List Byte)}
    (h : readSubsFuel fuel bs = some (subs, rest)) : bs = subsBytes subs ++ rest ∧ subsWf subs = true := by
  induction fuel generalizing bs subs rest with
  | zero => simp [readSubsFuel] at h
  | succ n ih =>
    match bs with
    | [] => simp [readSubsFuel] at h
    | n0 :: r =>
      simp only [readSubsFuel] at h
      split at h
      · obtain ⟨rfl, rfl⟩ : [] = subs ∧ r = rest := by simpa using h
        subst ‹n0 = 0#8›
        exact ⟨rfl, rfl⟩
      · split at h
        · cases h
        · rename_i hne _ d r' ht
          split at h
          · cases h
          · rename_i ds r'' hr
            obtain ⟨rfl, rfl⟩ : d :: ds = subs ∧ r'' = rest := by simpa using h
            obtain ⟨hb, hw⟩ := ih hr
            obtain ⟨hd, hl⟩ := takeBytes_some ht
            have hn0 : 1 ≤ n0.toNat ∧ n0.toNat ≤ 255 := by
              have := n0.isLt
              have : n0.toNat ≠ 0 := fun h0 => hne (BitVec.eq_of_toNat_eq (by simpa using h0))
              omega
            refine ⟨?_, ?_⟩
            · simp [subsBytes, hl, hd, hb]
            · simp only [subsWf, List.all_cons, Bool.and_eq_true]
              exact ⟨by simp [subWf, Config.subMax, hl, hn0], hw⟩

/-- What `readSubs` reads is a well-formed run of sub-blocks, and its bytes are that run's. -/
theorem readSubs_some {bs rest : List Byte} {subs : List (List Byte)} (h : readSubs bs = some (subs, rest)) :
    bs = subsBytes subs ++ rest ∧ subsWf subs = true := readSubsFuel_some h

/-! ### Colour tables (20_memory.md R54) -/

theorem triples_tableBytes (es : List Rgb) : triples (tableBytes es) = es := by
  induction es with
  | nil => rfl
  | cons e es ih =>
    have : tableBytes (e :: es) = e.r :: e.g :: e.b :: tableBytes es := rfl
    rw [this, triples, ih]

theorem tableBytes_length (es : List Rgb) : (tableBytes es).length = 3 * es.length := by
  induction es with
  | nil => rfl
  | cons e es ih =>
    have : tableBytes (e :: es) = e.r :: e.g :: e.b :: tableBytes es := rfl
    rw [this]
    simp [ih]
    omega

/-- Bytes in whole triples are a colour table's bytes. -/
theorem tableBytes_triples {n : Nat} {bs : List Byte} (h : bs.length = 3 * n) :
    tableBytes (triples bs) = bs ∧ (triples bs).length = n := by
  induction n generalizing bs with
  | zero => simp_all [triples, tableBytes]
  | succ n ih =>
    match bs, h with
    | r :: g :: b :: rest, h =>
      obtain ⟨h1, h2⟩ := ih (bs := rest) (by simp at h; omega)
      exact ⟨by simpa [triples, tableBytes] using h1, by simpa [triples] using h2⟩

/-! ### Colour table counts (30_encoding.md R71) -/

theorem tableCountLegal_tableEntries (k : BitVec 3) : tableCountLegal (tableEntries k) = true := by
  revert k; decide

theorem tableEntries_pos (k : BitVec 3) : 2 ≤ tableEntries k := by revert k; decide

/-! ### Phases and contexts -/

/-- Nothing read yet is incomplete in every phase that expects a block. -/
theorem decodeBlock_nil {phase : BpPhase} (hd : phase ≠ .done) (hf : phase ≠ .failed) :
    decodeBlock phase [] = .incomplete := by
  cases phase <;> simp_all [decodeBlock, decodeHeader, decodeScreenDesc, decodeBody, decodeImageData, takeBytes,
    decodeTable, tableEntries]

/-- The code decoder gives a class whose condition (30_encoding.md R89) holds. -/
theorem admits_decodeCode (m next : Nat) (prev : Option Code) (c : Code) :
    admits (.code m next prev) (decodeCode m next prev c) = true := by
  have hc : c.toNat ≤ 4095 := by have := c.isLt; omega
  have he : eoiOf m = clearOf m + 1 := rfl
  unfold decodeCode
  split
  · simpa [admits, Context.inCode] using ‹_›
  · split
    · simpa [admits, Context.inCode] using ‹_›
    · cases prev <;> dsimp only <;> repeat' split
      all_goals
        simp only [admits, Context.inCode, Option.isNone, Option.isSome, Bool.and_eq_true, Bool.or_eq_true,
          decide_eq_true_eq, beq_iff_eq, and_true, true_or, Bool.false_eq_true, false_or]
        omega

end Sys2Proof
end

