-- ==== Sys2Proof/Laws/PerInstr.lean ====
section
/-! SUPPORT. The per-instruction family OneLanguage: an instruction is encoded in one of the three languages, and only a
context of that language admits it. -/

namespace Sys2Proof.Laws.OneLanguage

open Sys2Proof

/-- The words of an instruction are a request, a non-empty byte string or a code, and what admits it is the command
context, a block phase or a code context. -/
def Statement (i : Instr) : Prop :=
  i.wf = true →
    match encode i with
    | .request _ => ∀ x, admits x i = true → x = .command
    | .bytes bs => bs ≠ [] ∧ ∀ x, admits x i = true → ∃ phase, x = .block phase
    | .code _ => ∀ x, admits x i = true → ∃ m next prev, x = .code m next prev

theorem isCommand_iff {x : Context} (h : x.isCommand = true) : x = .command := by cases x <;> simp_all [Context.isCommand]

theorem inPhase_iff {x : Context} {f : BpPhase → Bool} (h : x.inPhase f = true) : ∃ phase, x = .block phase := by
  cases x <;> simp_all [Context.inPhase]

theorem inCode_iff {x : Context} {f : Nat → Nat → Option Code → Bool} (h : x.inCode f = true) :
    ∃ m next prev, x = .code m next prev := by cases x <;> simp_all [Context.inCode]

theorem table_ne_nil {es : List Rgb} (h : tableCountLegal es.length = true) : tableBytes es ≠ [] := by
  cases es with
  | nil => simp [tableCountLegal] at h
  | cons e es => simp [tableBytes]

theorem reset (u : UnitId) (all : Bool) : Statement (.reset u all) := fun _ _ => isCommand_iff
theorem cfgWrite (v : U32) : Statement (.cfgWrite v) := fun _ _ => isCommand_iff
theorem cfgRead : Statement .cfgRead := fun _ _ => isCommand_iff
theorem statusRead (u : UnitId) : Statement (.statusRead u) := fun _ _ => isCommand_iff
theorem bpPull : Statement .bpPull := fun _ _ => isCommand_iff
theorem bfPush (b : Block) : Statement (.bfPush b) := fun _ _ => isCommand_iff
theorem ldRun (m : Byte) (p : List Byte) : Statement (.ldRun m p) := fun _ _ => isCommand_iff
theorem leRun (m : Byte) (x : List Byte) : Statement (.leRun m x) := fun _ _ => isCommand_iff

theorem blockHeader (raw : List Byte) : Statement (.blockHeader raw) :=
  fun h => ⟨fun h0 => by subst h0; simp [Instr.wf] at h, fun _ => inPhase_iff⟩
theorem blockScreenDesc (r : ScreenDesc) : Statement (.blockScreenDesc r) :=
  fun _ => ⟨by simp [screenDescBytes], fun _ => inPhase_iff⟩
theorem blockGlobalTable (es : List Rgb) : Statement (.blockGlobalTable es) :=
  fun h => ⟨table_ne_nil h, fun _ => inPhase_iff⟩
theorem blockLocalTable (es : List Rgb) : Statement (.blockLocalTable es) :=
  fun h => ⟨table_ne_nil h, fun _ => inPhase_iff⟩
theorem blockGraphicControl (op : GceOperand) : Statement (.blockGraphicControl op) := by
  cases op
  · exact fun _ => ⟨by simp, fun _ => inPhase_iff⟩
  · exact fun _ => ⟨by simp [graphicControlBytes], fun _ => inPhase_iff⟩
theorem blockComment (subs : List (List Byte)) : Statement (.blockComment subs) :=
  fun _ => ⟨by simp, fun _ => inPhase_iff⟩
theorem blockAppExt (op : AppOperand) : Statement (.blockAppExt op) := by
  cases op
  · exact fun _ => ⟨by simp, fun _ => inPhase_iff⟩
  · exact fun _ => ⟨by simp [appExtBytes], fun _ => inPhase_iff⟩
theorem blockPlainText (subs : List (List Byte)) : Statement (.blockPlainText subs) :=
  fun _ => ⟨by simp, fun _ => inPhase_iff⟩
theorem blockUnknownExt (l : Byte) : Statement (.blockUnknownExt l) := fun _ => ⟨by simp, fun _ => inPhase_iff⟩
theorem blockImageDesc (r : ImageDesc) : Statement (.blockImageDesc r) :=
  fun _ => ⟨by simp [imageDescBytes], fun _ => inPhase_iff⟩
theorem blockImageData (m : Byte) (subs : List (List Byte)) : Statement (.blockImageData m subs) :=
  fun _ => ⟨by simp, fun _ => inPhase_iff⟩
theorem blockTrailer : Statement .blockTrailer := fun _ => ⟨by simp, fun _ => inPhase_iff⟩
theorem blockInvalidIntroducer (t : Byte) : Statement (.blockInvalidIntroducer t) :=
  fun _ => ⟨by simp, fun _ => inPhase_iff⟩

theorem codeClear (c : Code) : Statement (.codeClear c) := fun _ _ => inCode_iff
theorem codeEoi (c : Code) : Statement (.codeEoi c) := fun _ _ => inCode_iff
theorem codeRootFirst (c : Code) : Statement (.codeRootFirst c) := fun _ _ => inCode_iff
theorem codeRoot (c : Code) : Statement (.codeRoot c) := fun _ _ => inCode_iff
theorem codeDefined (c : Code) : Statement (.codeDefined c) := fun _ _ => inCode_iff
theorem codeKwkwk (c : Code) : Statement (.codeKwkwk c) := fun _ _ => inCode_iff
theorem codeUndefined (c : Code) : Statement (.codeUndefined c) := fun _ _ => inCode_iff

end Sys2Proof.Laws.OneLanguage
end

