-- ==== Sys2Proof/Laws/Step.lean ====
section
/-! SUPPORT. What one step does, by the unit that runs, and what the bytes of a block decode to. -/

namespace Sys2Proof.Machine

variable {s t : State}

/-! ### No unit runs -/

theorem step_idle (ha : s.active = none) (hh : s.host = []) : step s = .next s := by
  simp [step, fetch, ha, fetchCommand, hh]

theorem step_bindSrc {answers rest} (ha : s.active = none) (hh : s.host = .bindSrc answers :: rest) :
    step s = .next ((s.withHost rest).withSrc answers) := by simp [step, fetch, ha, fetchCommand, hh]

theorem step_bindSink {answers rest} (ha : s.active = none) (hh : s.host = .bindSink answers :: rest) :
    step s = .next ((s.withHost rest).withSink [] answers) := by simp [step, fetch, ha, fetchCommand, hh]

theorem step_command {q rest i} (ha : s.active = none) (hh : s.host = .command q :: rest)
    (hd : decodeCommand q = .command i) : step s = exec i (s.withHost rest) := by
  simp [step, fetch, ha, fetchCommand, hh, hd]

theorem step_reject {q rest r} (ha : s.active = none) (hh : s.host = .command q :: rest)
    (hd : decodeCommand q = .reject r) : step s = .refused (.commandRejected r) := by
  simp [step, fetch, ha, fetchCommand, hh, hd]

/-! ### BP -/

/-- A byte that would pass the buffer's bound fails at the position after it (40_block_parser.md R115). -/
theorem step_bp_full {b rest} (ha : s.active = some .bp) (hf : bufferFull s = true) (hs : s.src = .byte b :: rest) :
    step s = .next (raiseFail .bp .imageTooLarge (s.bp.pos + 1)
      ((s.withSrc rest).withBp { s.bp with pos := s.bp.pos + 1 })) := by
  have hr : read1 s = .ok (b, (s.withSrc rest).withBp { s.bp with pos := s.bp.pos + 1 }) := by
    simp [read1, hs]
  simp [step, fetch, ha, fetchBlock, hf, hr]

/-- A failing read ends the pull. -/
theorem step_bp_error {s'} (ha : s.active = some .bp) (hr : read1 s = .error s') :
    step s = .next s' := by simp [step, fetch, ha, fetchBlock, hr]

/-- A byte read is buffered, and runs the form it completes. -/
theorem step_bp_byte {b rest} (ha : s.active = some .bp) (hf : bufferFull s = false) (hs : s.src = .byte b :: rest) :
    step s =
      match decodeBlock s.bp.phase (s.bp.buf ++ [b]) with
      | .incomplete =>
        .next ((s.withSrc rest).withBp { s.bp with pos := s.bp.pos + 1, buf := s.bp.buf ++ [b] })
      | .complete i _ =>
        exec i ((s.withSrc rest).withBp { s.bp with pos := s.bp.pos + 1, buf := s.bp.buf ++ [b] })
      | .noBlock => .refused .noBlockExpected := by
  have hr : read1 s = .ok (b, (s.withSrc rest).withBp { s.bp with pos := s.bp.pos + 1 }) := by
    simp [read1, hs]
  simp only [step, fetch, ha, fetchBlock, hf, hr, State.withBp_bp]
  cases decodeBlock s.bp.phase (s.bp.buf ++ [b]) <;> rfl

/-! ### BF, LD, LE -/

theorem step_bf (ha : s.active = some .bf) : step s = bfMicroStep s := by simp [step, fetch, ha]

/-- Too few bits left (42_lzw_decoder.md R140). -/
theorem step_ld_short (ha : s.active = some .ld) (h : 8 * s.ld.input.length < s.ld.bitpos + s.ld.width.toNat) :
    step s = .next (raiseFail .ld .lzwMissingEndOfInformation s.ld.bitpos s) := by
  simp [step, fetch, ha, fetchCode, h]

/-- The class of the code read runs. -/
theorem step_ld_code (ha : s.active = some .ld) (h : s.ld.bitpos + s.ld.width.toNat ≤ 8 * s.ld.input.length) :
    step s = exec (decodeCode s.ld.m.toNat s.ld.next.toNat s.ld.prev
      (BitVec.ofNat 12 (codeAt s.ld.input s.ld.bitpos s.ld.width.toNat))) s := by
  have : ¬8 * s.ld.input.length < s.ld.bitpos + s.ld.width.toNat := by omega
  simp [step, fetch, ha, fetchCode, this]

theorem step_le (ha : s.active = some .le) : step s = leMicroStep s := by simp [step, fetch, ha]

/-! ### What words decode to -/

/-- What the command decoder answers is a command. -/
theorem decodeCommand_admits {q : Request} {i : Instr} (h : decodeCommand q = .command i) :
    admits .command i = true := by
  unfold decodeCommand at h
  split at h
  · cases h
  · rename_i o _
    split at h
    · cases h
    · split at h
      · cases h
      · cases o <;> simp only [attachOperand, withNone, withValue, withRecord, withBytes, withIndices] at h <;>
          split at h <;> cases h <;> rfl

/-- A form the block decoder completes is well formed and in a phase that admits it. -/
theorem decodeBlock_complete {phase : BpPhase} {bs rest : List Byte} {i : Instr}
    (h : decodeBlock phase bs = .complete i rest) : i.wf = true ∧ admits (.block phase) i = true := by
  have table : ∀ (form : List Rgb → Instr) (k : BitVec 3), decodeTable form k bs = .complete i rest →
      ∃ es, i = form es ∧ es.length = tableEntries k := by
    intro form k h
    unfold decodeTable at h
    split at h
    · cases h
    · rename_i b r ht
      obtain ⟨rfl, -⟩ : form (triples b) = i ∧ r = rest := by simpa using h
      exact ⟨_, rfl, (tableBytes_triples (takeBytes_some ht).2).2⟩
  have subs : ∀ (form : List (List Byte) → Instr) (bs : List Byte), decodeSubsForm form bs = .complete i rest →
      ∃ ds, i = form ds ∧ subsWf ds = true := by
    intro form bs h
    unfold decodeSubsForm at h
    split at h
    · cases h
    · rename_i ds r hr
      obtain ⟨rfl, -⟩ : form ds = i ∧ r = rest := by simpa using h
      exact ⟨_, rfl, (readSubs_some hr).2⟩
  cases phase with
  | expectHeader =>
    simp only [decodeBlock, decodeHeader] at h
    split at h
    · cases h
    · rename_i raw r ht
      obtain ⟨rfl, -⟩ : Instr.blockHeader raw = i ∧ r = rest := by simpa using h
      exact ⟨by simp [Instr.wf, (takeBytes_some ht).2], rfl⟩
  | expectScreenDesc =>
    simp only [decodeBlock] at h
    unfold decodeScreenDesc at h
    split at h
    · cases h; exact ⟨rfl, rfl⟩
    · cases h
  | expectGlobalTable k =>
    obtain ⟨es, rfl, hl⟩ := table _ _ h
    exact ⟨by simp [Instr.wf, hl, tableCountLegal_tableEntries], by simp [admits, Context.inPhase, announcesGlobal, hl]⟩
  | expectLocalTable k =>
    obtain ⟨es, rfl, hl⟩ := table _ _ h
    exact ⟨by simp [Instr.wf, hl, tableCountLegal_tableEntries], by simp [admits, Context.inPhase, announcesLocal, hl]⟩
  | expectImageData =>
    simp only [decodeBlock] at h
    unfold decodeImageData at h
    split at h
    · cases h
    · obtain ⟨ds, rfl, hd⟩ := subs _ _ h
      exact ⟨hd, rfl⟩
  | done => cases h
  | failed => cases h
  | expectBody =>
    simp only [decodeBlock] at h
    unfold decodeBody at h
    split at h
    · cases h
    · rename_i t0 r
      split at h
      · unfold decodeExtension at h
        split at h
        · cases h
        · split at h
          · unfold decodeGraphicControl at h
            split at h
            · cases h
            · split at h
              · split at h
                · cases h; exact ⟨rfl, rfl⟩
                · cases h
              · cases h
                exact ⟨by simpa [Instr.wf] using ‹_›, rfl⟩
          · split at h
            · obtain ⟨ds, rfl, hd⟩ := subs _ _ h
              exact ⟨hd, rfl⟩
            · split at h
              · unfold decodeAppExt at h
                split at h
                · cases h
                · split at h
                  · split at h
                    · cases h
                    · rename_i h8
                      split at h
                      · cases h
                      · rename_i h3
                        split at h
                        · cases h
                        · rename_i hr
                          cases h
                          exact ⟨by simp [Instr.wf, AppExt.wf, (takeBytes_some h8).2, (takeBytes_some h3).2,
                            (readSubs_some hr).2], rfl⟩
                  · cases h
                    exact ⟨by simpa [Instr.wf] using ‹_›, rfl⟩
              · split at h
                · obtain ⟨ds, rfl, hd⟩ := subs _ _ h
                  exact ⟨hd, rfl⟩
                · cases h
                  exact ⟨by simp_all [Instr.wf, knownLabel], rfl⟩
      · split at h
        · unfold decodeImageDesc at h
          split at h
          · cases h; exact ⟨rfl, rfl⟩
          · cases h
        · split at h
          · cases h; exact ⟨rfl, rfl⟩
          · cases h
            exact ⟨by simp_all [Instr.wf, knownIntroducer], rfl⟩

end Sys2Proof.Machine
end

