-- ==== Sys2Proof/Tests/Slice0.lean ====
section
/-! SUPPORT. Tests. Expected values come from the spec: the rule or vector is named at each test. The last part shows,
for each obligation with hypotheses, states and operands that meet them. -/

namespace Sys2Proof.Tests

open Sys2Proof Sys2Proof.Machine

/-! ### Small states -/

/-- The HOST's next actions are these, after reset. -/
def hostState (l : List HostAction) : State := State.reset.withHost l

/-- After reset, with one command waiting. -/
def commandState (w : U32) (d : Operand) : State := hostState [.command { word := w, operand := d }]

/-- BP runs in this phase, has read `buf`, and SRC offers these bytes. -/
def bpState (phase : BpPhase) (buf src : List Byte) : State :=
  ((State.reset.withBp { BpUnit.reset with phase := phase, pos := buf.length, buf := buf }).withSrc (srcOf src)).withActive
    (some .bp)

/-- LD runs with these registers on this payload. -/
def ldState (width : BitVec 4) (next : BitVec 13) (prev : Option Code) (arena : Arena) (input : List Byte) : State :=
  (State.reset.withLd { LdUnit.reset with
    phase := .running, m := 2#4, width := width, next := next, prev := prev, arena := arena, input := input,
    maxOut := Config.maxPixelsReset }).withActive (some .ld)

/-- LE runs at `m = 2` with these registers. -/
def leState (width : BitVec 4) (next : BitVec 13) (cand : Option Code) (dict : Arena) (input : List Byte) (inpos : Nat)
    (acc nacc : Nat) : State :=
  (State.reset.withLe { LeUnit.reset with
    phase := .running, m := 2#4, width := width, next := next, cand := cand, dict := dict, input := input,
    inpos := inpos, acc := acc, nacc := nacc }).withActive (some .le)

/-- A colour table of `n` black entries. -/
def longTable (n : Nat) : List Rgb := List.replicate n ⟨0#8, 0#8, 0#8⟩

/-- The results after at most `n` steps. -/
def resultsAfter (n : Nat) (s : State) : Option (List Result) := (nextOf (stepN n s)).map (·.results)

/-! ### WellFormed refuses what is ill formed -/

theorem smoke_reset_all_with_unit : Instr.wf (.reset .ld true) = false := by decide
theorem smoke_header_length : Instr.wf (.blockHeader [0x47#8, 0x49#8, 0x46#8]) = false := by decide
theorem smoke_global_table_count : Instr.wf (.blockGlobalTable [⟨1#8, 2#8, 3#8⟩]) = false := by decide
theorem smoke_local_table_count : Instr.wf (.blockLocalTable []) = false := by decide
theorem smoke_gce_wrong_size_is_four : Instr.wf (.blockGraphicControl (.wrongSize 4#8)) = false := by decide
theorem smoke_app_wrong_size_is_eleven : Instr.wf (.blockAppExt (.wrongSize 11#8)) = false := by decide
theorem smoke_comment_empty_sub : Instr.wf (.blockComment [[]]) = false := by decide
theorem smoke_plain_text_long_sub (d : List Byte) (h : d.length = 256) : Instr.wf (.blockPlainText [d]) = false := by
  simp [Instr.wf, subsWf, subWf, Config.subMax, h]
theorem smoke_image_data_empty_sub : Instr.wf (.blockImageData 2#8 [[1#8], []]) = false := by decide
theorem smoke_app_id_length : Instr.wf (.blockAppExt (.fields ⟨[], [1#8, 2#8, 3#8], []⟩)) = false := by decide
theorem smoke_app_auth_length : Instr.wf (.blockAppExt (.fields ⟨netscapeId, [], []⟩)) = false := by decide
theorem smoke_app_empty_sub : Instr.wf (.blockAppExt (.fields ⟨netscapeId, netscapeAuth, [[]]⟩)) = false := by decide
theorem smoke_known_label : Instr.wf (.blockUnknownExt 0xFE#8) = false := by decide
theorem smoke_known_introducer : Instr.wf (.blockInvalidIntroducer 0x2C#8) = false := by decide
theorem smoke_record_comment : Block.wf (.comment [[]]) = false := by decide
theorem smoke_record_app : Block.wf (.appExt ⟨[1#8], netscapeAuth, []⟩) = false := by decide
theorem smoke_record_plain_text : Block.wf (.plainText [[1#8], []]) = false := by decide

/-! ### Decoding is right: words written out from the spec's encodings -/

/-- R170: `0x01 | UNIT << 16`. -/
theorem decode_reset : decodeCommand ⟨0x00030001#32, .none⟩ = .command (.reset .le false) := by decide
/-- R170: `0x00040001` for ALL. -/
theorem decode_reset_all : decodeCommand ⟨0x00040001#32, .none⟩ = .command (.reset .bp true) := by decide
/-- R171. -/
theorem decode_cfgWrite : decodeCommand ⟨0x00000002#32, .value 3#32⟩ = .command (.cfgWrite 3#32) := by decide
/-- R172. -/
theorem decode_cfgRead : decodeCommand ⟨0x00000003#32, .none⟩ = .command .cfgRead := by decide
/-- R173, V-HC-7. -/
theorem decode_statusRead : decodeCommand ⟨0x00020004#32, .none⟩ = .command (.statusRead .ld) := by decide
/-- R174. -/
theorem decode_bpPull : decodeCommand ⟨0x00000010#32, .none⟩ = .command .bpPull := by decide
/-- R175. -/
theorem decode_bfPush : decodeCommand ⟨0x00000020#32, .record .trailer⟩ = .command (.bfPush .trailer) := by decide
/-- R176. -/
theorem decode_ldRun : decodeCommand ⟨0x00000230#32, .bytes [0x44#8]⟩ = .command (.ldRun 2#8 [0x44#8]) := by decide
/-- R177, V-HC-11. -/
theorem decode_leRun : decodeCommand ⟨0x00000840#32, .indices [255#8]⟩ = .command (.leRun 8#8 [255#8]) := by decide
/-- An operand of another kind is refused (log 10). -/
theorem decode_wrong_operand : decodeCommand ⟨0x00000010#32, .value 0#32⟩ = .reject .wrongOperand := by decide

/-- R99. -/
theorem decode_header :
    decodeBlock .expectHeader [0x47#8, 0x49#8, 0x46#8, 0x38#8, 0x37#8, 0x61#8, 0x01#8] =
      .complete (.blockHeader [0x47#8, 0x49#8, 0x46#8, 0x38#8, 0x37#8, 0x61#8]) [0x01#8] := by decide
/-- V-BF-4: width 0x1234, height 0x00FF. -/
theorem decode_screenDesc :
    decodeBlock .expectScreenDesc [0x34#8, 0x12#8, 0xFF#8, 0x00#8, 0x80#8, 0x07#8, 0x09#8] =
      .complete (.blockScreenDesc ⟨0x1234#16, 0x00FF#16, 0x80#8, 7#8, 9#8⟩) [] := by decide
/-- R101: two entries. -/
theorem decode_globalTable :
    decodeBlock (.expectGlobalTable 0#3) [0x01#8, 0x02#8, 0x03#8, 0xFF#8, 0xFE#8, 0xFD#8] =
      .complete (.blockGlobalTable [⟨1#8, 2#8, 3#8⟩, ⟨255#8, 254#8, 253#8⟩]) [] := by decide
/-- R110: two entries. -/
theorem decode_localTable :
    decodeBlock (.expectLocalTable 0#3) [0xFF#8, 0x00#8, 0x00#8, 0x00#8, 0xFF#8, 0x00#8] =
      .complete (.blockLocalTable [⟨255#8, 0#8, 0#8⟩, ⟨0#8, 255#8, 0#8⟩]) [] := by decide
/-- R104: packed 0x05, delay 10, transparent index 3. -/
theorem decode_graphicControl :
    decodeBlock .expectBody [0x21#8, 0xF9#8, 0x04#8, 0x05#8, 0x0A#8, 0x00#8, 0x03#8, 0x00#8] =
      .complete (.blockGraphicControl (.fields ⟨0x05#8, 10#16, 3#8⟩ 0#8)) [] := by decide
/-- V-BP-11: a size of 5 ends the form at the size byte. -/
theorem decode_graphicControl_size :
    decodeBlock .expectBody [0x21#8, 0xF9#8, 0x05#8] = .complete (.blockGraphicControl (.wrongSize 5#8)) [] := by decide
/-- R105: "hi". -/
theorem decode_comment :
    decodeBlock .expectBody [0x21#8, 0xFE#8, 0x02#8, 0x68#8, 0x69#8, 0x00#8] =
      .complete (.blockComment [[0x68#8, 0x69#8]]) [] := by decide
/-- R106, S11: the NETSCAPE2.0 block with count 0. -/
theorem decode_appExt :
    decodeBlock .expectBody [0x21#8, 0xFF#8, 0x0B#8, 0x4E#8, 0x45#8, 0x54#8, 0x53#8, 0x43#8, 0x41#8, 0x50#8, 0x45#8,
      0x32#8, 0x2E#8, 0x30#8, 0x03#8, 0x01#8, 0x00#8, 0x00#8, 0x00#8] =
      .complete (.blockAppExt (.fields ⟨netscapeId, netscapeAuth, [[1#8, 0#8, 0#8]]⟩)) [] := by decide
/-- R107. -/
theorem decode_plainText :
    decodeBlock .expectBody [0x21#8, 0x01#8, 0x01#8, 0x41#8, 0x00#8] = .complete (.blockPlainText [[0x41#8]]) [] := by
  decide
/-- R108. -/
theorem decode_unknownExt : decodeBlock .expectBody [0x21#8, 0xF8#8] = .complete (.blockUnknownExt 0xF8#8) [] := by
  decide
/-- R78: left 1, top 2, width 0x0103, height 4, packed 0x87. -/
theorem decode_imageDesc :
    decodeBlock .expectBody [0x2C#8, 0x01#8, 0x00#8, 0x02#8, 0x00#8, 0x03#8, 0x01#8, 0x04#8, 0x00#8, 0x87#8] =
      .complete (.blockImageDesc ⟨1#16, 2#16, 0x0103#16, 4#16, 0x87#8⟩) [] := by decide
/-- R111. -/
theorem decode_imageData :
    decodeBlock .expectImageData [0x02#8, 0x03#8, 0x44#8, 0x02#8, 0x05#8, 0x00#8] =
      .complete (.blockImageData 2#8 [[0x44#8, 0x02#8, 0x05#8]]) [] := by decide
/-- R112. -/
theorem decode_trailer : decodeBlock .expectBody [0x3B#8] = .complete .blockTrailer [] := by decide
/-- R113: a stray terminator. -/
theorem decode_invalidIntroducer :
    decodeBlock .expectBody [0x00#8] = .complete (.blockInvalidIntroducer 0x00#8) [] := by decide

/-- R56: the codes of `44 02 05` at `m = 2` are `4/3 0/3 1/3 1/3 0/4 5/4` (S4). -/
theorem decode_code_bits :
    [codeAt [0x44#8, 0x02#8, 0x05#8] 0 3, codeAt [0x44#8, 0x02#8, 0x05#8] 3 3, codeAt [0x44#8, 0x02#8, 0x05#8] 6 3,
      codeAt [0x44#8, 0x02#8, 0x05#8] 9 3, codeAt [0x44#8, 0x02#8, 0x05#8] 12 4, codeAt [0x44#8, 0x02#8, 0x05#8] 16 4] =
      [4, 0, 1, 1, 0, 5] := by decide
/-- R142's example. -/
theorem decode_clear : decodeCode 2 9 (some 0#12) 4#12 = .codeClear 4#12 := by decide
/-- R143. -/
theorem decode_eoi : decodeCode 2 6 none 5#12 = .codeEoi 5#12 := by decide
/-- R144's example. -/
theorem decode_rootFirst : decodeCode 2 6 none 0#12 = .codeRootFirst 0#12 := by decide
/-- R145's example. -/
theorem decode_root : decodeCode 2 6 (some 0#12) 1#12 = .codeRoot 1#12 := by decide
/-- R89: 5 < 6 < 9. -/
theorem decode_defined : decodeCode 2 9 (some 0#12) 6#12 = .codeDefined 6#12 := by decide
/-- R146's example. -/
theorem decode_kwkwk : decodeCode 2 6 (some 0#12) 6#12 = .codeKwkwk 6#12 := by decide
/-- R147's examples. -/
theorem decode_undefined :
    decodeCode 2 6 none 6#12 = .codeUndefined 6#12 ∧ decodeCode 2 9 (some 0#12) 10#12 = .codeUndefined 10#12 := by decide

/-- The opcode table's words, placed by the host: the very next step runs each (log 14). -/
theorem table_words :
    [decodeTableWord 32 0x00000001, decodeTableWord 32 0x00000030, decodeTableWord 8 0x3B, decodeTableWord 8 0x2C,
      decodeTableWord 16 0xFE21, decodeTableWord 16 0xF821] =
      [some (.reset .bp false), some (.ldRun 0#8 []), some .blockTrailer,
        some (.blockImageDesc ⟨0#16, 0#16, 0#16, 0#16, 0#8⟩), some (.blockComment []), some (.blockUnknownExt 0xF8#8)] := by
  decide
theorem table_word_runs :
    (nextOf (step (State.reset.withFetchWord 8 0x3B))).map (·.results) = some [.block .trailer] := by decide

/-! ### One step of each instruction -/

/-- R170's example: RESET of BP leaves `ExpectHeader` and no error. -/
theorem step_reset :
    (nextOf (exec (.reset .bp false) (raiseFail .bp .invalidBlockTag 14 State.reset))).map (·.bp) =
      some ⟨.expectHeader, 0, [], none, 0⟩ := by decide
/-- V-RS-4. -/
theorem step_reset_all :
    (nextOf (exec (.reset .bp true) (State.reset.withMaxPixels 7#32))).map (·.maxPixels) = some 33554432#32 := by decide
/-- V-RS-3's first command. -/
theorem step_cfgWrite :
    (nextOf (step (commandState 0x00000002#32 (.value 7#32)))).map (fun s => (s.maxPixels, s.results)) =
      some (7#32, [.ok]) := by decide
/-- S10. -/
theorem step_cfgRead : resultsAfter 1 (commandState 0x00000003#32 .none) = some [.value 33554432#32] := by decide
/-- V-HC-6. -/
theorem step_statusRead :
    (nextOf (exec (.statusRead .bp) (raiseFail .bp .invalidBlockTag 14 State.reset))).map (fun s => s.results.getLast?) =
      some (some (.value 0x00000733#32)) := by decide
/-- V-BP-6: an empty SRC. -/
theorem step_bpPull : resultsAfter 2 (commandState 0x00000010#32 .none) = some [.fail .unexpectedEndOfStream] := by decide
/-- V-BP-3: the failure is repeated (R97). -/
theorem step_bpPull_failed :
    (nextOf (exec .bpPull (raiseFail .bp .malformedHeader 6 State.reset))).map (fun s => s.results.getLast?) =
      some (some (.fail .malformedHeader)) := by decide
/-- V-BF-3. -/
theorem step_bfPush :
    (nextOf (stepN 8 (commandState 0x00000020#32 (.record (.screenDesc ⟨2#16, 2#16, 0x80#8, 0#8, 0#8⟩))))).map
      (fun s => (s.sink, s.bf.pos, s.results)) =
      some ([0x02#8, 0x00#8, 0x02#8, 0x00#8, 0x80#8, 0x00#8, 0x00#8], 7, [.ok]) := by decide
/-- V-BF-7: one entry. -/
theorem step_bfPush_bad_table :
    (nextOf (step (commandState 0x00000020#32 (.record (.localTable [⟨0#8, 0#8, 0#8⟩]))))).map
      (fun s => (s.sink, s.bf.errPos, s.results)) = some ([], 0, [.fail .invalidColorTableSize]) := by decide
/-- R176's example. -/
theorem step_ldRun :
    resultsAfter 7 (commandState 0x00000230#32 (.bytes [0x44#8, 0x02#8, 0x05#8])) =
      some [.indices [0#8, 1#8, 1#8, 0#8]] := by decide
/-- V-HC-17: M = 1. -/
theorem step_ldRun_bad_m :
    resultsAfter 1 (commandState 0x00000130#32 (.bytes [])) = some [.fail .lzwCodeOutOfRange] := by decide
/-- R177's example. -/
theorem step_leRun :
    resultsAfter 6 (commandState 0x00000240#32 (.indices [0#8, 1#8, 1#8, 0#8])) =
      some [.payload [0x44#8, 0x02#8, 0x05#8]] := by decide
/-- V-HC-11. -/
theorem step_leRun_m8 :
    resultsAfter 3 (commandState 0x00000840#32 (.indices [255#8])) =
      some [.payload [0x00#8, 0xFF#8, 0x05#8, 0x04#8]] := by decide

/-- V-BP-2. -/
theorem step_header :
    (nextOf (step (bpState .expectHeader [0x47#8, 0x49#8, 0x46#8, 0x38#8, 0x37#8] [0x61#8]))).map
      (fun s => (s.bp.phase, s.bp.pos, s.results)) = some (.expectScreenDesc, 6, [.block (.header .v87a)]) := by decide
/-- V-BP-4: "GIF90a". -/
theorem step_header_malformed :
    (nextOf (step (bpState .expectHeader [0x47#8, 0x49#8, 0x46#8, 0x39#8, 0x30#8] [0x61#8]))).map
      (fun s => (s.bp.errPos, s.results)) = some (6, [.fail .malformedHeader]) := by decide
/-- R100's example: next phase `ExpectGCT(2)`. -/
theorem step_screenDesc :
    (nextOf (step (bpState .expectScreenDesc [0x02#8, 0x00#8, 0x02#8, 0x00#8, 0x80#8, 0x00#8] [0x00#8]))).map
      (fun s => s.bp.phase) = some (.expectGlobalTable 0#3) := by decide
/-- R101's example. -/
theorem step_globalTable :
    (nextOf (step (bpState (.expectGlobalTable 0#3) [0x00#8, 0x00#8, 0x00#8, 0xFF#8, 0xFF#8] [0xFF#8]))).map
      (fun s => (s.bp.phase, s.results)) =
      some (.expectBody, [.block (.globalTable [⟨0#8, 0#8, 0#8⟩, ⟨255#8, 255#8, 255#8⟩])]) := by decide
/-- R110's example. -/
theorem step_localTable :
    (nextOf (step (bpState (.expectLocalTable 0#3) [0xFF#8, 0x00#8, 0x00#8, 0x00#8, 0xFF#8] [0x00#8]))).map
      (fun s => (s.bp.phase, s.results)) =
      some (.expectImageData, [.block (.localTable [⟨255#8, 0#8, 0#8⟩, ⟨0#8, 255#8, 0#8⟩])]) := by decide
/-- R104's example. -/
theorem step_graphicControl :
    (nextOf (step (bpState .expectBody [0x21#8, 0xF9#8, 0x04#8, 0x05#8, 0x0A#8, 0x00#8, 0x03#8] [0x00#8]))).map
      (fun s => (s.bp.phase, s.results)) = some (.expectBody, [.block (.graphicControl ⟨0x05#8, 10#16, 3#8⟩)]) := by decide
/-- V-BP-12: 07 where the terminator belongs. -/
theorem step_graphicControl_terminator :
    (nextOf (step (bpState .expectBody [0x21#8, 0xF9#8, 0x04#8, 0x01#8, 0x00#8, 0x00#8, 0x03#8] [0x07#8]))).map
      (fun s => (s.bp.phase, s.bp.errPos, s.results)) = some (.failed, 8, [.fail .invalidBlockTag]) := by decide
/-- R105: `21 FE 00` is a comment with no sub-blocks. -/
theorem step_comment : resultsAfter 1 (bpState .expectBody [0x21#8, 0xFE#8] [0x00#8]) = some [.block (.comment [])] := by
  decide
/-- V-BP-14: a size of 10 fails at the size byte. -/
theorem step_appExt_size :
    (nextOf (step (bpState .expectBody [0x21#8, 0xFF#8] [0x0A#8, 0x00#8]))).map (fun s => (s.results, s.src)) =
      some ([.fail .invalidBlockTag], srcOf [0x00#8]) := by decide
/-- S11 and R121: count 5. -/
theorem step_appExt :
    resultsAfter 1 (bpState .expectBody [0x21#8, 0xFF#8, 0x0B#8, 0x4E#8, 0x45#8, 0x54#8, 0x53#8, 0x43#8, 0x41#8, 0x50#8,
      0x45#8, 0x32#8, 0x2E#8, 0x30#8, 0x03#8, 0x01#8, 0x05#8, 0x00#8] [0x00#8]) =
      some [.block (.appExt ⟨netscapeId, netscapeAuth, [[1#8, 5#8, 0#8]]⟩)] := by decide
/-- R107's example. -/
theorem step_plainText :
    resultsAfter 1 (bpState .expectBody [0x21#8, 0x01#8, 0x01#8, 0x41#8] [0x00#8]) =
      some [.block (.plainText [[0x41#8]])] := by decide
/-- V-BP-10: nothing after the label is read. -/
theorem step_unknownExt :
    (nextOf (step (bpState .expectBody [0x21#8] [0xF8#8, 0x00#8]))).map (fun s => (s.bp.errPos, s.results, s.src)) =
      some (2, [.fail .invalidBlockTag], srcOf [0x00#8]) := by decide
/-- R109's example. -/
theorem step_imageDesc :
    (nextOf (step (bpState .expectBody [0x2C#8, 0x00#8, 0x00#8, 0x00#8, 0x00#8, 0x02#8, 0x00#8, 0x02#8, 0x00#8]
      [0x00#8]))).map (fun s => (s.bp.phase, s.results)) =
      some (.expectImageData, [.block (.imageDesc ⟨0#16, 0#16, 2#16, 2#16, 0#8⟩)]) := by decide
/-- V-BP-23: two sub-blocks are joined. -/
theorem step_imageData :
    (nextOf (step (bpState .expectImageData [0x02#8, 0x01#8, 0x44#8, 0x02#8, 0x02#8, 0x05#8] [0x00#8]))).map
      (fun s => (s.bp.phase, s.results)) =
      some (.expectBody, [.block (.imageData ⟨2#8, [0x44#8, 0x02#8, 0x05#8]⟩)]) := by decide
/-- V-BP-22: the byte after the Trailer is not read. -/
theorem step_trailer :
    (nextOf (step (bpState .expectBody [] [0x3B#8, 0x3B#8]))).map (fun s => (s.bp.phase, s.results, s.src)) =
      some (.done, [.block .trailer], srcOf [0x3B#8]) := by decide
/-- V-BP-9. -/
theorem step_invalidIntroducer :
    (nextOf (step (bpState .expectBody [] [0x00#8]))).map (fun s => (s.bp.phase, s.bp.errPos, s.results)) =
      some (.failed, 1, [.fail .invalidBlockTag]) := by decide

/-- R142's example: `{width 4, next 9, prev Some(0)}` and code `4/4`. -/
theorem step_clear :
    (nextOf (step (ldState 4#4 9#13 (some 0#12) [] [0x04#8]))).map
      (fun s => (s.ld.width, s.ld.next, s.ld.prev, s.ld.bitpos)) = some (3#4, 6#13, none, 4) := by decide
/-- R143. -/
theorem step_eoi :
    (nextOf (step (ldState 3#4 6#13 none [] [0x05#8]))).map (fun s => (s.ld.phase, s.results)) =
      some (.done, [.indices []]) := by decide
/-- R144's example. -/
theorem step_rootFirst :
    (nextOf (step (ldState 3#4 6#13 none [] [0x00#8]))).map (fun s => (s.ld.out, s.ld.prev, s.ld.next)) =
      some ([0#8], some 0#12, 6#13) := by decide
/-- R145's example. -/
theorem step_root :
    (nextOf (step (ldState 3#4 6#13 (some 0#12) [] [0x01#8]))).map (fun s => (s.ld.out, s.ld.arena, s.ld.next)) =
      some ([1#8], [⟨6#12, 0#12, 1#8⟩], 7#13) := by decide
/-- R149's example: `{next 7, width 3}` and an insertion; R153's entry 6 = (0,1). -/
theorem step_defined :
    (nextOf (step (ldState 3#4 7#13 (some 1#12) [⟨6#12, 0#12, 1#8⟩] [0x06#8]))).map
      (fun s => (s.ld.out, s.ld.arena, s.ld.next, s.ld.width)) =
      some ([0#8, 1#8], [⟨7#12, 1#12, 0#8⟩, ⟨6#12, 0#12, 1#8⟩], 8#13, 4#4) := by decide
/-- R146's example. -/
theorem step_kwkwk :
    (nextOf (step (ldState 3#4 6#13 (some 0#12) [] [0x06#8]))).map (fun s => (s.ld.out, s.ld.arena)) =
      some ([0#8, 0#8], [⟨6#12, 0#12, 0#8⟩]) := by decide
/-- R147's example: `{next 6, prev None}` and code `6/3`. -/
theorem step_undefined :
    (nextOf (step (ldState 3#4 6#13 none [] [0x06#8]))).map (fun s => (s.ld.errPos, s.ld.bitpos, s.results)) =
      some (0, 0, [.fail .lzwCodeOutOfRange]) := by decide

/-! ### The rest of the machine -/

/-- V-HC-12: an unknown OP is refused. -/
theorem step_unknown_op : step (commandState 0x00000005#32 .none) = .refused (.commandRejected .unknownOpcode) := rfl
/-- R140's example: `[44]` at `m = 2` raises at bit 6 (V-LD-5). -/
theorem run_missing_eoi :
    (nextOf (stepN 4 (commandState 0x00000230#32 (.bytes [0x44#8])))).map (fun s => (s.ld.errPos, s.results)) =
      some (6, [.fail .lzwMissingEndOfInformation]) := by decide
/-- R162's example. -/
theorem step_encoder_miss :
    (nextOf (step (leState 3#4 6#13 (some 0#12) [] [0#8, 1#8] 1 0 0))).map
      (fun s => (s.le.cand, s.le.next, s.le.width, s.le.dict)) =
      some (some 1#12, 7#13, 3#4, [⟨6#12, 0#12, 1#8⟩]) := by decide
/-- R153's and R154's examples. -/
theorem seq_example :
    seqOf [⟨7#12, 6#12, 1#8⟩, ⟨6#12, 0#12, 1#8⟩] 7#12 = [0#8, 1#8, 1#8] ∧
    firstOf [⟨7#12, 6#12, 1#8⟩, ⟨6#12, 0#12, 1#8⟩] 7#12 = 0#8 := by decide
/-- S2. -/
theorem transparency_gating :
    transparentColor ⟨0x00#8, 0#16, 5#8⟩ = none ∧ transparentColor ⟨0x01#8, 0#16, 5#8⟩ = some 5#8 ∧
    transparentColor ⟨0x01#8, 0#16, 0#8⟩ = some 0#8 ∧ disposal ⟨0x1C#8, 0#16, 255#8⟩ = .reserved 7#3 := by decide
/-- V-HC-21. -/
theorem min_code_sizes :
    [1, 2, 3, 4, 5, 8, 9, 16, 17, 129, 256].map minCodeSize = [2, 2, 2, 2, 3, 3, 4, 4, 5, 8, 8] := by decide
/-- V-HC-18 to V-HC-20. -/
theorem size_guards :
    sizeGuard 2#16 2#16 33554432#32 = true ∧ sizeGuard 6000#16 6000#16 33554432#32 = false ∧
    sizeGuard 65535#16 65535#16 0xFFFFFFFF#32 = true := by decide

/-! ### States that meet the invariant -/

theorem bp_reset_inv : BpUnit.reset.Inv False := ⟨by decide, nofun, nofun, fun _ => rfl, nofun⟩
theorem bf_reset_inv : BfUnit.reset.Inv False := ⟨by decide, nofun, nofun, fun _ => rfl, nofun⟩
theorem ld_reset_inv : LdUnit.reset.Inv False := ⟨by decide, nofun, ⟨nofun, nofun⟩, nofun, nofun⟩
theorem le_reset_inv : LeUnit.reset.Inv False := ⟨by decide, nofun, ⟨nofun, nofun⟩, nofun, nofun, nofun, nofun⟩

/-- No unit runs and each is as reset left it, but for one. -/
theorem idle_inv {s : State} (ha : s.active = none) (hr : s.results = []) (h1 : s.bp.Inv False) (h2 : s.bf.Inv False)
    (h3 : s.ld.Inv False) (h4 : s.le.Inv False) : s.Inv :=
  ⟨by simpa [ha] using h1, by simpa [ha] using h2, by simpa [ha] using h3, by simpa [ha] using h4, by simp [hr]⟩

theorem hostState_inv (l : List HostAction) : (hostState l).Inv :=
  idle_inv rfl rfl bp_reset_inv bf_reset_inv ld_reset_inv le_reset_inv

/-- A state with one unit Failed and its RESET waiting. -/
def failedState (u : UnitId) (word : U32) : State :=
  { raiseFail u (if u = .bf then .invalidColorTableSize else if u = .bp then .malformedHeader else .lzwCodeOutOfRange) 0
      State.reset with
    results := [], host := [.command { word := word, operand := .none }] }

theorem failedState_inv (u : UnitId) (word : U32) : (failedState u word).Inv := by
  cases u
  · exact idle_inv rfl rfl ⟨⟨fun _ => rfl, fun _ => rfl⟩, fun _ h => by cases h; rfl, fun _ => rfl, fun _ => rfl, nofun⟩
      bf_reset_inv ld_reset_inv le_reset_inv
  · exact idle_inv rfl rfl bp_reset_inv
      ⟨⟨fun _ => rfl, fun _ => rfl⟩, fun _ h => by cases h; rfl, fun _ => rfl, fun _ => rfl, nofun⟩ ld_reset_inv
      le_reset_inv
  · exact idle_inv rfl rfl bp_reset_inv bf_reset_inv
      ⟨⟨fun _ => rfl, fun _ => rfl⟩, fun _ h => by cases h; rfl, ⟨nofun, nofun⟩, nofun, fun _ => rfl⟩ le_reset_inv
  · exact idle_inv rfl rfl bp_reset_inv bf_reset_inv ld_reset_inv
      ⟨⟨fun _ => rfl, fun _ => rfl⟩, fun _ h => by cases h; rfl, ⟨nofun, nofun⟩, nofun, nofun, nofun, fun _ => rfl⟩

/-- LE runs, and its unit meets what a run keeps. -/
theorem le_running_inv {u : LeUnit} (hp : u.phase = .running) (he : u.err = none) (hr : u.RunInv)
    (hw : u.width.toNat = min Config.wMax (bitlen (u.next.toNat - 1))) (hs : u.cand = none ↔ u.inpos = 0) :
    ((State.reset.withLe u).withActive (some .le)).Inv :=
  ⟨by simpa using (show State.reset.bp.Inv False from bp_reset_inv),
    by simpa using (show State.reset.bf.Inv False from bf_reset_inv),
    by simpa using (show State.reset.ld.Inv False from ld_reset_inv),
    by simpa using (⟨by simp [hp, he], by simp [he], by simp [hp], fun _ => hr, fun _ => hw, fun _ => hs,
      by simp [hp]⟩ : u.Inv True), nofun⟩

/-- `m = 2`, index 0 is the candidate and nothing is stored: a miss, or the end of the input, is next. -/
theorem le_first_inv (input : List Byte) (h : 1 ≤ input.length) :
    (leState 3#4 6#13 (some 0#12) [] input 1 4 3).Inv := by
  refine le_running_inv rfl rfl ?_ (show 3 = min 12 (bitlen (6 - 1)) by decide) ⟨nofun, nofun⟩
  exact ⟨show 2 ≤ 2 ∧ 2 ≤ 8 by decide, show 6 ≤ 6 ∧ 6 < 4096 by decide, show 2 + 1 ≤ 3 ∧ 3 ≤ 12 by decide, arena_nil 2,
    List.nodup_nil, fun _ h => by cases h; rfl, show 3 < 8 by decide, show 4 < 2 ^ 3 by decide, h⟩

/-- `m = 2` and no index taken. -/
theorem le_empty_inv : (leState 3#4 6#13 none [] [] 0 4 3).Inv := by
  apply le_running_inv rfl rfl _ (by decide) (by simp)
  exact ⟨by decide, by decide, by decide, by decide, List.nodup_nil, by simp, by decide, by decide, by decide⟩

/-- A dictionary of `n` entries at `m = 8`: entry `258 + k` is the pair of `k / 256` and `k mod 256`. -/
def longDict : Nat → Arena
  | 0 => []
  | n + 1 =>
    { code := BitVec.ofNat 12 (258 + n), prefixCode := BitVec.ofNat 12 (n / 256), suffix := BitVec.ofNat 8 (n % 256) }
      :: longDict n

theorem longDict_wf (n : Nat) (h : n ≤ 3838) : Arena.wf 8 (258 + n) (longDict n) = true := by
  induction n with
  | zero => exact arena_nil 8
  | succ n ih =>
    refine arena_insert (ih (by omega)) (by simp; omega) (by simp [firstFree]) ?_ (by omega)
    rw [dataCode_iff]
    simp [clearOf, eoiOf]
    omega

theorem longDict_mem {n : Nat} {e : Entry} (h : e ∈ longDict n) :
    ∃ k < n, e.prefixCode = BitVec.ofNat 12 (k / 256) ∧ e.suffix = BitVec.ofNat 8 (k % 256) := by
  induction n with
  | zero => cases h
  | succ n ih =>
    rcases List.mem_cons.1 h with rfl | h
    · exact ⟨n, by omega, rfl, rfl⟩
    · obtain ⟨k, hk, h1⟩ := ih h
      exact ⟨k, by omega, h1⟩

theorem longDict_pairs (n : Nat) (h : n ≤ 3838) : pairsDistinct (longDict n) := by
  induction n with
  | zero => exact List.nodup_nil
  | succ n ih =>
    refine List.nodup_cons.2 ⟨?_, ih (by omega)⟩
    intro hm
    obtain ⟨e, he, h1⟩ := List.mem_map.1 hm
    obtain ⟨k, hk, h2, h3⟩ := longDict_mem he
    simp only [Prod.mk.injEq, h2, h3] at h1
    have h4 := congrArg BitVec.toNat h1.1
    have h5 := congrArg BitVec.toNat h1.2
    simp only [BitVec.toNat_ofNat] at h4 h5
    omega

theorem longDict_find (n : Nat) (h : n ≤ 3838) : findPair (longDict n) 200#12 0#8 = none := by
  cases hf : findPair (longDict n) 200#12 0#8 with
  | none => rfl
  | some c =>
    obtain ⟨k, hk, h1, -⟩ := longDict_mem (findPair_some hf)
    have := congrArg BitVec.toNat h1
    simp only [BitVec.toNat_ofNat] at this
    omega

/-- `m = 8`, next code 4095: the coming miss fills the dictionary. -/
def leFull : LeUnit :=
  { LeUnit.reset with
    phase := .running, m := 8#4, width := 12#4, next := 4095#13, cand := some 200#12, dict := longDict 3837,
    input := [200#8, 0#8], inpos := 1 }

theorem leFull_inv : ((State.reset.withLe leFull).withActive (some .le)).Inv := by
  apply le_running_inv rfl rfl _ (by decide) (by simp [leFull])
  exact ⟨by decide, by decide, by decide, longDict_wf 3837 (by omega), longDict_pairs 3837 (by omega),
    by simp [leFull, dataCode, clearOf, eoiOf], by decide, by decide, by decide⟩

/-! ### Each obligation's hypotheses can be met

For a statement of several clauses: one witness a clause, at the edge of its range. -/

theorem witness_CommandsDecodeAndEncodeAgree :
    (Instr.wf (.ldRun 255#8 []) = true ∧ admits .command (.ldRun 255#8 []) = true) ∧
    decode .command (.request ⟨0x00040001#32, .none⟩) = some (.reset .bp true) := by decide

theorem witness_BlockFormsDecodeWhatTheyEncode :
    Instr.wf (.blockComment [[0x68#8]]) = true ∧ admits (.block .expectBody) (.blockComment [[0x68#8]]) = true ∧
    encode (.blockComment [[0x68#8]]) = .bytes [0x21#8, 0xFE#8, 0x01#8, 0x68#8, 0x00#8] := by decide

theorem witness_BlockDecodingLosesNoByte :
    decodeBlock .expectBody [0x21#8, 0xFE#8, 0x00#8, 0x3B#8] = .complete (.blockComment []) [0x3B#8] := by decide

theorem witness_BlockFormsEndAtTheirLastByte :
    Instr.wf .blockTrailer = true ∧ admits (.block .expectBody) .blockTrailer = true ∧
    encode .blockTrailer = .bytes [0x3B#8] ∧ 0 < [0x3B#8].length := by decide

theorem witness_CodeClassesFollowTheTable :
    firstFree 2 ≤ 6 ∧
    [decodeCode 2 6 none 4#12, decodeCode 2 6 none 5#12, decodeCode 2 6 none 3#12, decodeCode 2 8 (some 0#12) 3#12,
      decodeCode 2 8 (some 0#12) 7#12, decodeCode 2 4095 (some 0#12) 4095#12, decodeCode 2 8 (some 0#12) 9#12,
      decodeCode 2 4096 (some 0#12) 4095#12] =
      [.codeClear 4#12, .codeEoi 5#12, .codeRootFirst 3#12, .codeRoot 3#12, .codeDefined 7#12, .codeKwkwk 4095#12,
        .codeUndefined 9#12, .codeDefined 4095#12] := by decide

theorem witness_CommandWordsRefusedInThreeCases :
    (commandState 0x00000005#32 .none).active = none ∧
    (commandState 0x00000005#32 .none).host = .command ⟨0x00000005#32, .none⟩ :: [] ∧
    opcodeOf (opField 0x00000005#32) = none ∧
    opcodeOf (opField 0x00050001#32) = some .reset ∧
    attachOperand .reset 0x00050001#32 .none ≠ .reject .wrongOperand := by decide

theorem witness_StepRunsTheDecodedInstruction :
    (∃ q rest i, State.active (commandState 0x00000003#32 .none) = none ∧
      (commandState 0x00000003#32 .none).host = .command q :: rest ∧ decodeCommand q = .command i) ∧
    (∃ b rest i more, (bpState .expectBody [] [0x3B#8]).active = some .bp ∧
      (bpState .expectBody [] [0x3B#8]).params.maxBlockBytes = none ∧
      (bpState .expectBody [] [0x3B#8]).src = .byte b :: rest ∧
      decodeBlock (bpState .expectBody [] [0x3B#8]).bp.phase ((bpState .expectBody [] [0x3B#8]).bp.buf ++ [b]) =
        .complete i more) ∧
    ((ldState 3#4 6#13 none [] [0x05#8]).active = some .ld ∧
      (ldState 3#4 6#13 none [] [0x05#8]).ld.bitpos + (ldState 3#4 6#13 none [] [0x05#8]).ld.width.toNat ≤
        8 * (ldState 3#4 6#13 none [] [0x05#8]).ld.input.length) :=
  ⟨⟨_, _, _, rfl, rfl, rfl⟩, ⟨_, _, _, _, rfl, rfl, rfl, rfl⟩, by decide⟩

theorem witness_IdleStepChangesNothing : State.reset.active = none ∧ State.reset.host = [] := by decide

theorem witness_OverlappingCommandIsRefused :
    admits .command .cfgRead = true ∧ (bpState .expectBody [] []).active ≠ none := by decide

/-- A bound of one byte. -/
def boundedState (buf : List Byte) (src : List SrcAnswer) : State :=
  { bpState .expectBody buf [] with
    params := { fullDictPolicy := .freeze, maxBlockBytes := some 1 }, src := src }

theorem witness_ParserReadsOneByteAStep :
    ((boundedState [0x21#8] [.byte 0xFE#8]).active = some .bp ∧
      (boundedState [0x21#8] [.byte 0xFE#8]).src = .byte 0xFE#8 :: [] ∧
      (boundedState [0x21#8] [.byte 0xFE#8]).params.maxBlockBytes = some 1 ∧
      1 < (boundedState [0x21#8] [.byte 0xFE#8]).bp.buf.length + 1) ∧
    ((boundedState [] []).bp.buf.length + 1 ≤ 1 ∧
      (boundedState [] [.byte 0x21#8]).src = .byte 0x21#8 :: [] ∧
      decodeBlock (boundedState [] [.byte 0x21#8]).bp.phase ((boundedState [] [.byte 0x21#8]).bp.buf ++ [0x21#8]) =
        .incomplete ∧
      (boundedState [] [.eof]).src = .eof :: [] ∧ (boundedState [] []).src = [] ∧
      (boundedState [] [.ioErr ⟨1⟩]).src = .ioErr ⟨1⟩ :: []) := by decide

/-- A bound of exactly the six bytes of a Header. -/
def sixByteState : State :=
  { State.reset with params := { fullDictPolicy := .freeze, maxBlockBytes := some 6 }, src := srcOf (headerBytes .v89a) }

theorem witness_PullReadsExactlyOneForm :
    sixByteState.active = none ∧ sixByteState.params.maxBlockBytes = some 6 ∧ (headerBytes .v89a).length ≤ 6 ∧
    Instr.wf (.blockHeader (headerBytes .v89a)) = true ∧
    admits (.block sixByteState.bp.phase) (.blockHeader (headerBytes .v89a)) = true ∧
    encode (.blockHeader (headerBytes .v89a)) = .bytes (headerBytes .v89a) ∧
    sixByteState.src = srcOf (headerBytes .v89a) ++ [] := by decide

theorem witness_ResetOfOneUnitResetsOnlyIt : (raiseFail .ld .imageTooLarge 3 State.reset).active = none := by decide

theorem witness_ResetAllGivesTheResetState : (raiseFail .bf (.ioFailure ⟨2⟩) 3 State.reset).active = none := by decide

theorem witness_ConfigIsWrittenAndReadBack : (State.reset.withMaxPixels 0#32).active = none := by decide

theorem witness_StatusReadShowsPhaseAndError : (failedState .bp 0#32).active = none := by decide

theorem witness_PullDispatchesOnThePhase :
    ((failedState .bp 0#32).active = none ∧ (failedState .bp 0#32).bp.phase = .failed ∧
      (failedState .bp 0#32).bp.err = some .malformedHeader) ∧
    (State.reset.withBp { BpUnit.reset with phase := .done }).bp.phase = .done ∧
    State.reset.bp.phase ≠ .done ∧ State.reset.bp.phase ≠ .failed := by decide

theorem witness_HeaderIsCheckedWhole :
    (bpState .expectHeader [] []).active = some .bp ∧ (bpState .expectHeader [] []).bp.phase = .expectHeader := by decide

theorem witness_DescriptorsAnnounceTheirTables :
    (bpState .expectScreenDesc [] []).bp.phase = .expectScreenDesc ∧
    ((bpState (.expectGlobalTable 7#3) [] []).bp.phase = .expectGlobalTable 7#3 ∧
      (longTable 256).length = 2 ^ ((7#3 : BitVec 3).toNat + 1)) ∧
    (bpState .expectBody [] []).bp.phase = .expectBody ∧
    ((bpState (.expectLocalTable 0#3) [] []).bp.phase = .expectLocalTable 0#3 ∧
      (longTable 2).length = 2 ^ ((0#3 : BitVec 3).toNat + 1)) ∧
    (bpState .expectBody [] []).active = some .bp :=
  ⟨rfl, ⟨rfl, List.length_replicate⟩, rfl, ⟨rfl, List.length_replicate⟩, rfl⟩

theorem witness_ExtensionsReturnOrFailAtTheByte :
    (bpState .expectBody [] []).active = some .bp ∧ (bpState .expectBody [] []).bp.phase = .expectBody ∧ (1#8 : Byte) ≠ 0#8 := by
  decide

theorem witness_UnknownLabelAndIntroducerFail :
    ((bpState .expectBody [0x21#8] [0xFA#8]).active = some .bp ∧
      (bpState .expectBody [0x21#8] [0xFA#8]).bp.phase = .expectBody ∧
      (bpState .expectBody [0x21#8] [0xFA#8]).params.maxBlockBytes = none ∧
      (bpState .expectBody [0x21#8] [0xFA#8]).src = .byte 0xFA#8 :: [] ∧
      (bpState .expectBody [0x21#8] [0xFA#8]).bp.buf = [0x21#8] ∧
      (0xFA#8 : Byte) ∉ [0xF9#8, 0xFE#8, 0xFF#8, 0x01#8]) ∧
    ((bpState .expectBody [] [0x00#8]).src = .byte 0x00#8 :: [] ∧ (bpState .expectBody [] [0x00#8]).bp.buf = [] ∧
      (0x00#8 : Byte) ∉ [0x21#8, 0x2C#8, 0x3B#8]) := by decide

theorem witness_ImageDataAndTrailerReturn :
    ((bpState .expectImageData [] []).active = some .bp ∧
      (bpState .expectImageData [] []).bp.phase = .expectImageData) ∧
    (bpState .expectBody [] []).bp.phase = .expectBody := by decide

theorem witness_ReturnedBlocksFollowTheGrammar :
    ∃ t, step (bpState .expectBody [] [0x3B#8]) = .next t ∧
      t.results = (bpState .expectBody [] [0x3B#8]).results ++ [.block .trailer] := ⟨_, rfl, rfl⟩

theorem witness_PushChecksBeforeItWrites :
    ((failedState .bf 0#32).active = none ∧ (failedState .bf 0#32).bf.phase = .failed ∧
      (failedState .bf 0#32).bf.err = some .invalidColorTableSize) ∧
    (State.reset.bf.phase = .ready ∧ Block.wf (.comment [[]]) = false) ∧
    ((longTable 3).length ∉ [2, 4, 8, 16, 32, 64, 128, 256] ∧ (longTable 0).length ∉ [2, 4, 8, 16, 32, 64, 128, 256]) ∧
    (Block.wf (.globalTable (longTable 256)) = true ∧ (longTable 256).length ∈ [2, 4, 8, 16, 32, 64, 128, 256]) :=
  ⟨by decide, by decide, by decide, rfl, by rw [longTable, List.length_replicate]; decide⟩

theorem witness_PushWritesTheCanonicalBytes :
    State.reset.active = none ∧ State.reset.bf.phase = .ready ∧ Block.wf (.localTable (longTable 2)) = true ∧
    badTableSize (.localTable (longTable 2)) = false ∧ sinkNeverFails State.reset :=
  ⟨rfl, rfl, rfl, rfl, nofun⟩

/-- V-BF-22's shape: the fourth write fails. -/
theorem witness_PushStopsAtAFailedWrite :
    ∃ s : State, s.active = none ∧ s.bf.phase = .ready ∧ Block.wf (.header .v89a) = true ∧
      badTableSize (.header .v89a) = false ∧ 3 < (frameBytes (.header .v89a)).length ∧
      s.sinkAnswers = List.replicate 3 .ok ++ .ioErr ⟨2⟩ true :: [] :=
  ⟨State.reset.withSink [] [.ok, .ok, .ok, .ioErr ⟨2⟩ true], rfl, rfl, rfl, rfl, by decide, rfl⟩

theorem witness_DecoderRunStarts :
    ((failedState .ld 0#32).active = none ∧ (failedState .ld 0#32).ld.phase = .failed ∧
      (failedState .ld 0#32).ld.err = some .lzwCodeOutOfRange) ∧
    (State.reset.ld.phase ≠ .failed ∧ ¬(2 ≤ (1#8 : Byte).toNat ∧ (1#8 : Byte).toNat ≤ 8) ∧
      ¬(2 ≤ (9#8 : Byte).toNat ∧ (9#8 : Byte).toNat ≤ 8)) ∧
    (2 ≤ (2#8 : Byte).toNat ∧ (2#8 : Byte).toNat ≤ 8 ∧ 2 ≤ (8#8 : Byte).toNat ∧ (8#8 : Byte).toNat ≤ 8) := by decide

theorem witness_DecoderFailsWithoutEoi :
    (ldState 3#4 6#13 none [] []).active = some .ld ∧
    8 * (ldState 3#4 6#13 none [] []).ld.input.length <
      (ldState 3#4 6#13 none [] []).ld.bitpos + (ldState 3#4 6#13 none [] []).ld.width.toNat := by decide

theorem witness_ClearAndEoiTakeEffect :
    (ldState 3#4 6#13 none [] []).active = some .ld ∧ Config.mMin ≤ (ldState 3#4 6#13 none [] []).ld.m.toNat ∧
    (ldState 3#4 6#13 none [] []).ld.m.toNat ≤ Config.mMax ∧
    (4#12 : Code).toNat = 2 ^ (ldState 3#4 6#13 none [] []).ld.m.toNat ∧
    (5#12 : Code).toNat = 2 ^ (ldState 3#4 6#13 none [] []).ld.m.toNat + 1 := by decide

theorem witness_FirstRootIsOutput :
    (ldState 3#4 6#13 none [] []).active = some .ld ∧
    (3#12 : Code).toNat < 2 ^ (ldState 3#4 6#13 none [] []).ld.m.toNat ∧ (ldState 3#4 6#13 none [] []).ld.prev = none := by
  decide

theorem witness_KnownCodeInsertsAndOutputs :
    (ldState 12#4 4095#13 (some 0#12) [] []).active = some .ld ∧ (ldState 12#4 4095#13 (some 0#12) [] []).ld.prev = some 0#12 ∧
    (ldState 12#4 4095#13 (some 0#12) [] []).ld.next.toNat ≤ 4095 ∧
    (3#12 : Code).toNat < 2 ^ (ldState 12#4 4095#13 (some 0#12) [] []).ld.m.toNat ∧
    2 ^ (ldState 12#4 4095#13 (some 0#12) [] []).ld.m.toNat + 1 < (4094#12 : Code).toNat ∧
    (4094#12 : Code).toNat < (ldState 12#4 4095#13 (some 0#12) [] []).ld.next.toNat := by decide

theorem witness_KwkwkRepeatsTheFirstIndex :
    (ldState 12#4 4095#13 (some 0#12) [] []).active = some .ld ∧ (ldState 12#4 4095#13 (some 0#12) [] []).ld.prev = some 0#12 ∧
    (4095#12 : Code).toNat = (ldState 12#4 4095#13 (some 0#12) [] []).ld.next.toNat ∧
    2 ^ (ldState 12#4 4095#13 (some 0#12) [] []).ld.m.toNat + 1 < (4095#12 : Code).toNat := by decide

theorem witness_FullDictionaryFollowsThePolicy :
    ((ldState 12#4 4096#13 (some 0#12) [] []).active = some .ld ∧
      (ldState 12#4 4096#13 (some 0#12) [] []).ld.prev = some 0#12 ∧
      (ldState 12#4 4096#13 (some 0#12) [] []).ld.next.toNat = 4096 ∧
      (3#12 : Code).toNat < 2 ^ (ldState 12#4 4096#13 (some 0#12) [] []).ld.m.toNat ∧
      (4095#12 : Code).toNat < (ldState 12#4 4096#13 (some 0#12) [] []).ld.next.toNat) ∧
    (ldState 12#4 4096#13 (some 0#12) [] []).params.fullDictPolicy = .freeze ∧
    ({ ldState 12#4 4096#13 (some 0#12) [] [] with
        params := { fullDictPolicy := .fault, maxBlockBytes := none } } : State).params.fullDictPolicy = .fault := by
  decide

theorem witness_UndefinedCodeFails :
    ((ldState 3#4 6#13 none [] []).active = some .ld ∧
      2 ^ (ldState 3#4 6#13 none [] []).ld.m.toNat + 1 < (6#12 : Code).toNat ∧
      (ldState 3#4 6#13 none [] []).ld.prev = none) ∧
    (ldState 3#4 6#13 (some 0#12) [] []).ld.next.toNat < (7#12 : Code).toNat := by decide

theorem witness_StringsFollowThePrefixChain :
    Arena.wf 2 8 [⟨7#12, 6#12, 1#8⟩, ⟨6#12, 0#12, 1#8⟩] = true ∧ (3#12 : Code).toNat < 2 ^ 2 ∧
    2 ^ 2 + 1 < (7#12 : Code).toNat ∧ (7#12 : Code).toNat < 8 ∧ dataCode 2 8 7#12 = true := by decide

theorem witness_BytesAfterEoiAreIgnored :
    ∃ t, stepN 1 (ldState 3#4 6#13 none [] [0x05#8]) = .next t ∧
      (ldState 3#4 6#13 none [] [0x05#8]).active = some .ld ∧ t.active = none ∧
      t.results = (ldState 3#4 6#13 none [] [0x05#8]).results ++ [.indices []] := ⟨_, rfl, rfl, rfl, rfl⟩

theorem witness_DecoderRunEnds :
    ∃ t, exec (.ldRun 2#8 []) State.reset = .next t ∧ State.reset.active = none ∧ State.reset.ld.phase ≠ .failed ∧
      2 ≤ (2#8 : Byte).toNat ∧ (2#8 : Byte).toNat ≤ 8 := ⟨_, rfl, rfl, by decide, by decide, by decide⟩

theorem witness_EmitAppendsTheCodeBits :
    LeUnit.acc (leState 3#4 6#13 none [] [] 0 127 7).le < 2 ^ (leState 3#4 6#13 none [] [] 0 127 7).le.nacc ∧
    7 < 2 ^ (leState 3#4 6#13 none [] [] 0 127 7).le.width.toNat := by decide

theorem witness_EncoderRunStarts :
    ((failedState .le 0#32).active = none ∧ (failedState .le 0#32).le.phase = .failed ∧
      (failedState .le 0#32).le.err = some .lzwCodeOutOfRange) ∧
    (State.reset.le.phase ≠ .failed ∧ ¬(2 ≤ (9#8 : Byte).toNat ∧ (9#8 : Byte).toNat ≤ 8)) ∧
    (2 ≤ (8#8 : Byte).toNat ∧ (8#8 : Byte).toNat ≤ 8) := by decide

theorem witness_EncoderTakesAnIndex :
    ((leState 3#4 6#13 none [] [4#8] 0 0 0).active = some .le ∧
      (leState 3#4 6#13 none [] [4#8] 0 0 0).le.input[0]? = some 4#8 ∧
      2 ^ (leState 3#4 6#13 none [] [4#8] 0 0 0).le.m.toNat ≤ (4#8 : Byte).toNat) ∧
    ((leState 3#4 6#13 none [] [3#8] 0 0 0).le.input[0]? = some 3#8 ∧
      (3#8 : Byte).toNat < 2 ^ (leState 3#4 6#13 none [] [3#8] 0 0 0).le.m.toNat ∧
      (leState 3#4 6#13 none [] [3#8] 0 0 0).le.cand = none) ∧
    ((leState 3#4 7#13 (some 0#12) [⟨6#12, 0#12, 0#8⟩] [0#8, 0#8] 1 0 0).le.cand = some 0#12 ∧
      findPair (leState 3#4 7#13 (some 0#12) [⟨6#12, 0#12, 0#8⟩] [0#8, 0#8] 1 0 0).le.dict 0#12 0#8 = some 6#12) := by
  decide

theorem witness_EncoderMissEmitsAndInserts :
    (∃ s : State, s.active = some .le ∧ s.Inv ∧ s.le.input[s.le.inpos]? = some 1#8 ∧
      (1#8 : Byte).toNat < 2 ^ s.le.m.toNat ∧ s.le.cand = some 0#12 ∧ findPair s.le.dict 0#12 1#8 = none ∧
      s.le.next.toNat + 1 < 4096) ∧
    (∃ s : State, s.active = some .le ∧ s.Inv ∧ s.le.input[s.le.inpos]? = some 0#8 ∧
      (0#8 : Byte).toNat < 2 ^ s.le.m.toNat ∧ s.le.cand = some 200#12 ∧ findPair s.le.dict 200#12 0#8 = none ∧
      s.le.next.toNat + 1 = 4096) :=
  ⟨⟨_, rfl, le_first_inv [0#8, 1#8] (by decide), rfl, by decide, rfl, rfl, by decide⟩,
    ⟨_, rfl, leFull_inv, rfl, by decide, rfl, longDict_find 3837 (by omega), by decide⟩⟩

theorem witness_EncoderRunReturnsItsPayload :
    (∃ s : State, s.active = some .le ∧ s.Inv ∧ s.le.inpos = s.le.input.length ∧ s.le.cand = none) ∧
    (∃ s : State, s.active = some .le ∧ s.Inv ∧ s.le.inpos = s.le.input.length ∧ s.le.cand = some 0#12) :=
  ⟨⟨_, rfl, le_empty_inv, rfl, rfl⟩, ⟨_, rfl, le_first_inv [0#8] (by decide), rfl, rfl⟩⟩

theorem witness_EncoderRunEnds :
    (∃ t, exec (.leRun 8#8 [255#8]) State.reset = .next t ∧ State.reset.active = none ∧ State.reset.le.phase ≠ .failed ∧
      2 ≤ (8#8 : Byte).toNat ∧ (8#8 : Byte).toNat ≤ 8 ∧ ∀ i ∈ [255#8], BitVec.toNat i < 2 ^ (8#8 : Byte).toNat) ∧
    (∃ t, exec (.leRun 2#8 [0#8, 4#8]) State.reset = .next t ∧
      (∀ i ∈ [0#8, 4#8].take 1, BitVec.toNat i < 2 ^ (2#8 : Byte).toNat) ∧
      ∃ i, [0#8, 4#8][1]? = some i ∧ 2 ^ (2#8 : Byte).toNat ≤ BitVec.toNat i) :=
  ⟨⟨_, rfl, rfl, by decide, by decide, by decide, by decide⟩, ⟨_, rfl, by decide, _, rfl, by decide⟩⟩

/-- V-HC-17's run fails. -/
theorem witness_FailResultsComeFromAFailedUnit :
    ∃ s t : State, s.Inv ∧ step s = .next t ∧ t.results = s.results ++ [.fail .lzwCodeOutOfRange] :=
  ⟨_, _, hostState_inv [.command ⟨0x00000130#32, .bytes []⟩], rfl, rfl⟩

theorem witness_OnlyResetLeavesFailed :
    (∃ s t : State, s.Inv ∧ step s = .next t ∧ s.bp.phase = .failed ∧ t.bp.phase ≠ .failed) ∧
    (∃ s t : State, s.Inv ∧ step s = .next t ∧ s.bf.phase = .failed ∧ t.bf.phase ≠ .failed) ∧
    (∃ s t : State, s.Inv ∧ step s = .next t ∧ s.ld.phase = .failed ∧ t.ld.phase ≠ .failed) ∧
    (∃ s t : State, s.Inv ∧ step s = .next t ∧ s.le.phase = .failed ∧ t.le.phase ≠ .failed) :=
  ⟨⟨_, _, failedState_inv .bp 0x00000001#32, rfl, rfl, nofun⟩, ⟨_, _, failedState_inv .bf 0x00010001#32, rfl, rfl, nofun⟩,
    ⟨_, _, failedState_inv .ld 0x00020001#32, rfl, rfl, nofun⟩, ⟨_, _, failedState_inv .le 0x00040001#32, rfl, rfl, nofun⟩⟩

theorem witness_EveryStepKeepsTheInvariant :
    (∃ s t : State, s.Inv ∧ step s = .next t) ∧
    (∃ s t : State, s.active = some .le ∧ s.Inv ∧ step s = .next t) :=
  ⟨⟨_, _, hostState_inv [.command ⟨0x00000010#32, .none⟩], rfl⟩,
    ⟨_, _, rfl, le_first_inv [0#8, 1#8] (by decide), rfl⟩⟩

theorem witness_StepsStopOnlyOnRefusedCommands :
    (commandState 0x00000005#32 .none).Inv ∧ (hostState [.command ⟨0x00000020#32, .record (.comment [[]])⟩]).Inv :=
  ⟨hostState_inv _, hostState_inv _⟩

theorem witness_InstructionsWriteOnlyTheirUnit :
    (∃ t, exec .blockTrailer (bpState .expectBody [] []) = .next t) ∧
    admits (.block .expectBody) .blockTrailer = true ∧
    (∃ t, exec (.codeEoi 5#12) (ldState 3#4 6#13 none [] []) = .next t) ∧
    admits (.code 2 6 none) (.codeEoi 5#12) = true ∧
    (∃ t, exec (.ldRun 2#8 []) State.reset = .next t) ∧ (∃ t, exec (.leRun 2#8 []) State.reset = .next t) ∧
    (∃ t, exec (.bfPush .trailer) State.reset = .next t) ∧ (∃ t, exec .bpPull State.reset = .next t) :=
  ⟨⟨_, rfl⟩, rfl, ⟨_, rfl⟩, rfl, ⟨_, rfl⟩, ⟨_, rfl⟩, ⟨_, rfl⟩, ⟨_, rfl⟩⟩

theorem witness_StreamsMoveOneByteAStep :
    ∃ t, (bpState .expectBody [] [0x21#8]).active ≠ none ∧ step (bpState .expectBody [] [0x21#8]) = .next t :=
  ⟨_, by decide, rfl⟩

/-- The blocks of V-BP-2, without their bytes. -/
def smallStream : List Block := [.header .v87a, .screenDesc ⟨1#16, 1#16, 0#8, 0#8, 0#8⟩, .trailer]

theorem witness_FramingAndParsingAgree :
    grammatical .expectHeader smallStream = true ∧ (∀ b ∈ smallStream, b.wf = true) ∧
    State.reset.active = none ∧ State.reset.bf.phase = .ready ∧ sinkNeverFails State.reset ∧ State.reset.sink = [] ∧
    (hostState (smallStream.map fun b => .command { word := 0x00000020#32, operand := .record b })).host =
      smallStream.map (fun b => .command { word := 0x00000020#32, operand := .record b }) ∧
    State.reset.params.maxBlockBytes = none ∧ State.reset.bp.phase = .expectHeader :=
  ⟨by decide, by decide, rfl, rfl, nofun, rfl, rfl, rfl, rfl⟩

theorem witness_DecompressionInvertsCompression :
    State.reset.active = none ∧ State.reset.ld.phase ≠ .failed ∧ State.reset.le.phase ≠ .failed ∧
    2 ≤ (2#8 : Byte).toNat ∧ (2#8 : Byte).toNat ≤ 8 ∧ (∀ i ∈ [0#8, 1#8, 3#8], BitVec.toNat i < 2 ^ (2#8 : Byte).toNat) ∧
    [0#8, 1#8, 3#8].length ≤ State.reset.maxPixels.toNat := by decide

theorem witness_LoopCountNeedsTheNetscapeBlock :
    loopCount ⟨netscapeId, netscapeAuth, [[1#8, 5#8, 0#8]]⟩ = some 5#16 ∧
    loopCount ⟨netscapeId, netscapeAuth, [[2#8, 5#8, 0#8]]⟩ = none := by decide

theorem witness_MinCodeSizeFitsThePalette : 1 ≤ 256 ∧ 256 ≤ 256 ∧ minCodeSize 256 = 8 ∧ minCodeSize 1 = 2 := by decide

theorem witness_FindGivesTheStoredPair :
    7 ≤ Config.dictCap ∧ Arena.wf 2 7 [⟨6#12, 0#12, 1#8⟩] = true ∧ pairsDistinct [⟨6#12, 0#12, 1#8⟩] :=
  ⟨by decide, by decide, List.nodup_singleton _⟩

end Sys2Proof.Tests
end

/-! Scope (00_scope.md): which step a micro-step or a command is, and why a step can stop. -/

namespace Sys2Proof.Machine

variable {s : State}

/-! ### The bound of BP's buffer (40_block_parser.md R115) -/

theorem bufferFull_of_lt {n : Nat} (hn : s.params.maxBlockBytes = some n) (h : n < s.bp.buf.length + 1) :
    bufferFull s = true := by
  simp [bufferFull, hn, h]

theorem bufferFull_of_fits (h : ∀ n, s.params.maxBlockBytes = some n → s.bp.buf.length + 1 ≤ n) :
    bufferFull s = false := by
  unfold bufferFull
  split
  · rfl
  · exact decide_eq_false (Nat.not_lt.2 (h _ ‹_›))

/-! ### Operations that always give a next state -/

theorem repeatFail_isNext {err : Option ErrorKind} (h : err.isSome = true) : ∃ t, repeatFail err s = .next t := by
  obtain ⟨k, rfl⟩ := Option.isSome_iff_exists.1 h
  exact ⟨_, rfl⟩

theorem outputString_isNext (e : List Byte) (c : Code) (u : LdUnit) : ∃ t, outputString e c u s = .next t := by
  rcases outputString_cases e c u s with ⟨-, h⟩ | ⟨-, h⟩ <;> exact ⟨_, h⟩

theorem insertAndOutput_isNext (p : Code) (k : Byte) (e : List Byte) (c : Code) :
    ∃ t, insertAndOutput p k e c s = .next t := by
  rcases insertAndOutput_cases p k e c s with ⟨_, -, h⟩ | ⟨_, -, -, h⟩ <;> exact ⟨_, h⟩

theorem knownCode_isNext (c : Code) (hp : s.ld.prev.isSome = true) : ∃ t, knownCode c s = .next t := by
  obtain ⟨p, hp⟩ := Option.isSome_iff_exists.1 hp
  simpa only [knownCode, hp] using insertAndOutput_isNext p _ _ c

theorem bfMicroStep_isNext (s : State) : ∃ t, bfMicroStep s = .next t := by
  unfold bfMicroStep
  split
  · exact ⟨_, rfl⟩
  · split
    · exact ⟨_, rfl⟩
    · split <;> exact ⟨_, rfl⟩

theorem leMicroStep_isNext (s : State) : ∃ t, leMicroStep s = .next t := by
  unfold leMicroStep
  split
  · split <;> exact ⟨_, rfl⟩
  · split
    · exact ⟨_, rfl⟩
    · split
      · exact ⟨_, rfl⟩
      · split <;> exact ⟨_, rfl⟩

/-! ### Instructions in the context that admits them -/

theorem State.Inv.withHost (h : s.Inv) (rest : List HostAction) : (s.withHost rest).Inv :=
  ⟨h.bp, h.bf, h.ld, h.le, h.blocks⟩

/-- BF_PUSH is the one command with a refusal of its own (41_block_framer.md R122). -/
theorem execBfPush_isNext_or_illFormed (b : Block) (hi : s.Inv) (ha : s.active = none) :
    (∃ t, execBfPush b s = .next t) ∨ execBfPush b s = .refused .illFormedRecord := by
  rw [execBfPush, whenIdle_idle ha]
  split
  · exact .inl (repeatFail_isNext (hi.bf.err_iff.2 ‹_›))
  · split
    · exact .inr rfl
    · split <;> exact .inl ⟨_, rfl⟩

/-- A command given while no unit runs goes on, or is the push of an ill-formed record: a Failed unit has a failure to
repeat (10_state.md R23). -/
theorem exec_command_isNext_or_illFormed {i : Instr} (hi : s.Inv) (ha : s.active = none)
    (hc : admits .command i = true) : (∃ t, exec i s = .next t) ∨ exec i s = .refused .illFormedRecord := by
  cases i with
  | reset u all => exact .inl ⟨_, whenIdle_idle ha⟩
  | cfgWrite v => exact .inl ⟨_, whenIdle_idle ha⟩
  | cfgRead => exact .inl ⟨_, whenIdle_idle ha⟩
  | statusRead u => exact .inl ⟨_, whenIdle_idle ha⟩
  | bpPull =>
    left
    rw [exec, execBpPull, whenIdle_idle ha]
    split
    · exact repeatFail_isNext (hi.bp.err_iff.2 ‹_›)
    all_goals exact ⟨_, rfl⟩
  | bfPush b => exact execBfPush_isNext_or_illFormed b hi ha
  | ldRun m payload =>
    left
    rw [exec, execLdRun, whenIdle_idle ha]
    split
    · exact repeatFail_isNext (hi.ld.err_iff.2 ‹_›)
    · split <;> exact ⟨_, rfl⟩
  | leRun m indices =>
    left
    rw [exec, execLeRun, whenIdle_idle ha]
    split
    · exact repeatFail_isNext (hi.le.err_iff.2 ‹_›)
    · split <;> exact ⟨_, rfl⟩
  | _ => cases hc

/-- A block form in a phase that selects it returns its block or raises a failure of BP. -/
theorem exec_block_isNext {i : Instr} (ha : s.active = some .bp) (hb : admits (.block s.bp.phase) i = true) :
    ∃ t, exec i s = .next t := by
  cases i with
  | blockHeader raw =>
    rw [exec, execBlockHeader, inBlockContext_of ha hb]
    split_ifs <;> exact ⟨_, rfl⟩
  | blockGraphicControl op =>
    cases op with
    | wrongSize size => exact ⟨_, inBlockContext_of ha hb⟩
    | fields r terminator =>
      rw [exec, execBlockGraphicControl, inBlockContext_of ha hb]
      split_ifs <;> exact ⟨_, rfl⟩
  | blockAppExt op => cases op <;> exact ⟨_, inBlockContext_of ha hb⟩
  | blockScreenDesc | blockGlobalTable | blockLocalTable | blockComment | blockPlainText | blockUnknownExt
  | blockImageDesc | blockImageData | blockTrailer | blockInvalidIntroducer =>
    exact ⟨_, inBlockContext_of ha hb⟩
  | _ => cases hb

/-- The classes that insert into the dictionary are read after a previous code (30_encoding.md R89). -/
theorem prev_isSome_of_admits {u : LdUnit} {i : Instr} {c : Code} (h : admits u.context i = true)
    (hi : i = .codeRoot c ∨ i = .codeDefined c ∨ i = .codeKwkwk c) : u.prev.isSome = true := by
  rcases hi with rfl | rfl | rfl <;> simp_all [admits, LdUnit.context, Context.inCode]

/-- A code class under its condition of 30_encoding.md R89 writes LD or raises a failure of it. -/
theorem exec_code_isNext {i : Instr} (ha : s.active = some .ld) (hc : admits s.ld.context i = true) :
    ∃ t, exec i s = .next t := by
  cases i with
  | codeClear c => exact ⟨_, inCodeContext_of ha hc⟩
  | codeEoi c => exact ⟨_, inCodeContext_of ha hc⟩
  | codeUndefined c => exact ⟨_, inCodeContext_of ha hc⟩
  | codeRootFirst c =>
    rw [exec, execCodeRootFirst, inCodeContext_of ha hc]
    exact outputString_isNext _ c _
  | codeRoot c =>
    rw [exec, execCodeRoot, inCodeContext_of ha hc]
    exact knownCode_isNext c (prev_isSome_of_admits hc (.inl rfl))
  | codeDefined c =>
    rw [exec, execCodeDefined, inCodeContext_of ha hc]
    exact knownCode_isNext c (prev_isSome_of_admits hc (.inr (.inl rfl)))
  | codeKwkwk c =>
    rw [exec, execCodeKwkwk, inCodeContext_of ha hc]
    obtain ⟨p, hp⟩ := Option.isSome_iff_exists.1 (prev_isSome_of_admits hc (.inr (.inr rfl)))
    simpa only [hp] using insertAndOutput_isNext p _ _ c
  | _ => cases hc

/-! ### Every phase but Done and Failed expects a block (40_block_parser.md R96) -/

theorem decodeTable_ne_noBlock (form : List Rgb → Instr) (k : BitVec 3) (bs : List Byte) :
    decodeTable form k bs ≠ .noBlock := by
  unfold decodeTable; split <;> nofun

theorem decodeSubsForm_ne_noBlock (form : List (List Byte) → Instr) (bs : List Byte) :
    decodeSubsForm form bs ≠ .noBlock := by
  unfold decodeSubsForm; split <;> nofun

theorem decodeHeader_ne_noBlock (bs : List Byte) : decodeHeader bs ≠ .noBlock := by
  unfold decodeHeader; split <;> nofun

theorem decodeScreenDesc_ne_noBlock (bs : List Byte) : decodeScreenDesc bs ≠ .noBlock := by
  unfold decodeScreenDesc; split <;> nofun

theorem decodeImageDesc_ne_noBlock (bs : List Byte) : decodeImageDesc bs ≠ .noBlock := by
  unfold decodeImageDesc; split <;> nofun

theorem decodeImageData_ne_noBlock (bs : List Byte) : decodeImageData bs ≠ .noBlock := by
  unfold decodeImageData
  split
  · nofun
  · exact decodeSubsForm_ne_noBlock _ _

theorem decodeGraphicControl_ne_noBlock (bs : List Byte) : decodeGraphicControl bs ≠ .noBlock := by
  unfold decodeGraphicControl
  split
  · nofun
  · split
    · split <;> nofun
    · nofun

theorem decodeAppExt_ne_noBlock (bs : List Byte) : decodeAppExt bs ≠ .noBlock := by
  unfold decodeAppExt
  repeat' split
  all_goals nofun

theorem decodeExtension_ne_noBlock (bs : List Byte) : decodeExtension bs ≠ .noBlock := by
  unfold decodeExtension
  split
  · nofun
  · split_ifs
    exacts [decodeGraphicControl_ne_noBlock _, decodeSubsForm_ne_noBlock _ _, decodeAppExt_ne_noBlock _,
      decodeSubsForm_ne_noBlock _ _, nofun]

theorem decodeBody_ne_noBlock (bs : List Byte) : decodeBody bs ≠ .noBlock := by
  unfold decodeBody
  split
  · nofun
  · split_ifs
    exacts [decodeExtension_ne_noBlock _, decodeImageDesc_ne_noBlock _, nofun, nofun]

/-- A phase in which some bytes are incomplete expects a block, whatever bytes come. -/
theorem decodeBlock_ne_noBlock_of_incomplete {phase : BpPhase} {bs : List Byte}
    (h : decodeBlock phase bs = .incomplete) (bs' : List Byte) : decodeBlock phase bs' ≠ .noBlock := by
  cases phase with
  | expectHeader => exact decodeHeader_ne_noBlock bs'
  | expectScreenDesc => exact decodeScreenDesc_ne_noBlock bs'
  | expectGlobalTable k => exact decodeTable_ne_noBlock _ k bs'
  | expectBody => exact decodeBody_ne_noBlock bs'
  | expectLocalTable k => exact decodeTable_ne_noBlock _ k bs'
  | expectImageData => exact decodeImageData_ne_noBlock bs'
  | done => cases h
  | failed => cases h

/-! ### Steps that stop -/

theorem step_command_isNext_or_refused (hi : s.Inv) (ha : s.active = none) :
    (∃ t, step s = .next t) ∨ (∃ r, step s = .refused (.commandRejected r)) ∨ step s = .refused .illFormedRecord := by
  rcases hh : s.host with _ | ⟨q | answers | answers, rest⟩
  · exact .inl ⟨_, step_idle ha hh⟩
  · cases hd : decodeCommand q with
    | command i =>
      rw [step_command ha hh hd]
      exact (exec_command_isNext_or_illFormed (hi.withHost rest) ha (decodeCommand_admits hd)).imp_right .inr
    | reject r => exact .inr (.inl ⟨r, step_reject ha hh hd⟩)
  · exact .inl ⟨_, step_bindSrc ha hh⟩
  · exact .inl ⟨_, step_bindSink ha hh⟩

theorem step_bp_isNext (hi : s.Inv) (ha : s.active = some .bp) : ∃ t, step s = .next t := by
  rcases read1_cases s with ⟨b, rest, hs, -⟩ | ⟨-, hr⟩ | ⟨_, -, hr⟩ | ⟨_, _, -, hr⟩
  · cases hf : bufferFull s with
    | true => exact ⟨_, step_bp_full ha hf hs⟩
    | false =>
      rw [step_bp_byte ha hf hs]
      split
      · exact ⟨_, rfl⟩
      · exact exec_block_isNext ha (decodeBlock_complete ‹_›).2
      · exact absurd ‹_› (decodeBlock_ne_noBlock_of_incomplete (hi.bp.reading ha) _)
  all_goals exact ⟨_, step_bp_error ha hr⟩

theorem step_ld_isNext (ha : s.active = some .ld) : ∃ t, step s = .next t := by
  rcases Nat.lt_or_ge (8 * s.ld.input.length) (s.ld.bitpos + s.ld.width.toNat) with h | h
  · exact ⟨_, step_ld_short ha h⟩
  · rw [step_ld_code ha h]
    exact exec_code_isNext ha (admits_decodeCode _ _ _ _)

/-! ### The settled statements -/

/-- Settles O9: each clause is what `step` does for one running unit. -/
theorem stepRunsTheDecodedInstruction : Obligations.StepRunsTheDecodedInstruction := by
  unfold Obligations.StepRunsTheDecodedInstruction
  refine ⟨fun s q rest i => step_command, fun s b rest i more ha hs hfits hd => ?_, fun s => step_ld_code⟩
  simp only [step_bp_byte ha (bufferFull_of_fits hfits) hs, hd]

/-- Settles O12: by SRC's answer, and for a byte by the buffer's bound. -/
theorem parserReadsOneByteAStep : Obligations.ParserReadsOneByteAStep := by
  unfold Obligations.ParserReadsOneByteAStep
  intro s ha
  refine ⟨fun b rest hs => ⟨fun n hn hfull => ?_, fun hfits hd => ?_⟩, fun rest hs => ?_, fun hs => ?_,
    fun e rest hs => ?_⟩
  · exact step_bp_full ha (bufferFull_of_lt hn hfull) hs
  · simp only [step_bp_byte ha (bufferFull_of_fits hfits) hs, hd]
  all_goals exact step_bp_error ha (by simp only [read1, hs])

/-- Settles O51: by the unit that runs; only a command can be refused. -/
theorem stepsStopOnlyOnRefusedCommands : Obligations.StepsStopOnlyOnRefusedCommands := by
  unfold Obligations.StepsStopOnlyOnRefusedCommands
  intro s hi
  match ha : s.active with
  | none => exact step_command_isNext_or_refused hi ha
  | some .bp => exact .inl (step_bp_isNext hi ha)
  | some .bf => exact .inl (step_bf ha ▸ bfMicroStep_isNext s)
  | some .ld => exact .inl (step_ld_isNext ha)
  | some .le => exact .inl (step_le ha ▸ leMicroStep_isNext s)

end Sys2Proof.Machine

/-! The state (10_state.md): what `find` answers, and that the invariant holds at reset and is kept by every step. -/

namespace Sys2Proof.Machine

variable {s t : State}

/-! ### `find` is the lookup of the pair (10_state.md R29) -/

/-- A cell that holds a value is an entry of its code. -/
theorem entryAt_some {a : Arena} {c : Code} {e : Entry} (h : entryAt a c = some e) : e ∈ a ∧ e.code = c := by
  induction a with
  | nil => cases h
  | cons x a ih =>
    rw [entryAt] at h
    split at h
    · cases h
      exact ⟨List.mem_cons_self, ‹_›⟩
    · exact (ih h).imp_left (List.mem_cons_of_mem x)

/-- In the canonical form a code has one entry: the older ones have lesser codes. -/
theorem entryAt_of_mem {m next : Nat} {a : Arena} {e : Entry} (h : Arena.wf m next a = true) (he : e ∈ a) :
    entryAt a e.code = some e := by
  induction a generalizing next with
  | nil => cases he
  | cons x a ih =>
    obtain ⟨-, -, -, -, ha⟩ := arena_cons_iff.1 h
    rcases List.mem_cons.1 he with rfl | he
    · rw [entryAt, if_pos rfl]
    · have hlt := (dataCode_iff.1 (arena_mem ha he).1).1
      have hne : x.code ≠ e.code := by intro hx; rw [hx] at hlt; omega
      rw [entryAt, if_neg hne]
      exact ih ha he

/-- With distinct pairs the first entry that holds a pair is the only one. -/
theorem findPair_of_mem {a : Arena} {e : Entry} (h : pairsDistinct a) (he : e ∈ a) :
    findPair a e.prefixCode e.suffix = some e.code := by
  induction a with
  | nil => cases he
  | cons x a ih =>
    obtain ⟨hx, ha⟩ := List.nodup_cons.1 h
    rcases List.mem_cons.1 he with rfl | he
    · rw [findPair, if_pos ⟨rfl, rfl⟩]
    · have hne : ¬(x.prefixCode = e.prefixCode ∧ x.suffix = e.suffix) := fun hp =>
        hx (List.mem_map.2 ⟨e, he, Prod.ext hp.1.symm hp.2.symm⟩)
      rw [findPair, if_neg hne]
      exact ih ha he

/-- Settles O59: both sides say that the dictionary has the entry. -/
theorem findGivesTheStoredPair : Obligations.FindGivesTheStoredPair := by
  unfold Obligations.FindGivesTheStoredPair
  intro m next d p i c _ hwf hpairs
  refine ⟨fun h => entryAt_of_mem hwf (findPair_some h), fun h => ?_⟩
  exact findPair_of_mem hpairs (entryAt_some h).1

/-! ### A step writes the unit of its command alone (00_scope.md R5) -/

/-- No error is recorded where the record stands for a condition that does not hold (10_state.md R23). -/
theorem err_eq_none {err : Option ErrorKind} {failed : Prop} (h : err.isSome = true ↔ failed) (hf : ¬failed) :
    err = none := by
  simpa using mt h.1 hf

/-- A step of unit `v`'s command changes nothing about whether another unit runs. -/
theorem running_eq {u v : UnitId} (hs : s.active = none ∨ s.active = some v) (ht : t.active = none ∨ t.active = some v)
    (hne : v ≠ u) : (s.active = some u) = (t.active = some u) := by
  rcases hs with hs | hs <;> rcases ht with ht | ht <;> simp [hs, ht, hne]

/-- A result that is no ill-formed block. -/
def Result.wf (r : Result) : Prop := ∀ b, r = .block b → b.wf = true

theorem blocks_append {l : List Result} {r : Result} (h : ∀ b, .block b ∈ l → b.wf = true) (hr : r.wf) :
    ∀ b, .block b ∈ l ++ [r] → b.wf = true := by
  intro b hb
  rcases List.mem_append.1 hb with hb | hb
  · exact h b hb
  · exact hr b (List.mem_singleton.1 hb).symm

section one_unit
variable (h : s.Inv) (hb : ∀ b, .block b ∈ t.results → b.wf = true)
include h hb

/-- The invariant after a step of BP's command that wrote BP alone. -/
theorem State.Inv.of_bp (hs : s.active = none ∨ s.active = some .bp) (ht : t.active = none ∨ t.active = some .bp)
    (hbf : t.bf = s.bf) (hld : t.ld = s.ld) (hle : t.le = s.le) (hu : t.bp.Inv (t.active = some .bp)) : t.Inv where
  bp := hu
  bf := hbf ▸ running_eq (u := .bf) hs ht (by decide) ▸ h.bf
  ld := hld ▸ running_eq (u := .ld) hs ht (by decide) ▸ h.ld
  le := hle ▸ running_eq (u := .le) hs ht (by decide) ▸ h.le
  blocks := hb

/-- The invariant after a step of BF's command that wrote BF alone. -/
theorem State.Inv.of_bf (hs : s.active = none ∨ s.active = some .bf) (ht : t.active = none ∨ t.active = some .bf)
    (hbp : t.bp = s.bp) (hld : t.ld = s.ld) (hle : t.le = s.le) (hu : t.bf.Inv (t.active = some .bf)) : t.Inv where
  bp := hbp ▸ running_eq (u := .bp) hs ht (by decide) ▸ h.bp
  bf := hu
  ld := hld ▸ running_eq (u := .ld) hs ht (by decide) ▸ h.ld
  le := hle ▸ running_eq (u := .le) hs ht (by decide) ▸ h.le
  blocks := hb

/-- The invariant after a step of LD's command that wrote LD alone. -/
theorem State.Inv.of_ld (hs : s.active = none ∨ s.active = some .ld) (ht : t.active = none ∨ t.active = some .ld)
    (hbp : t.bp = s.bp) (hbf : t.bf = s.bf) (hle : t.le = s.le) (hu : t.ld.Inv (t.active = some .ld)) : t.Inv where
  bp := hbp ▸ running_eq (u := .bp) hs ht (by decide) ▸ h.bp
  bf := hbf ▸ running_eq (u := .bf) hs ht (by decide) ▸ h.bf
  ld := hu
  le := hle ▸ running_eq (u := .le) hs ht (by decide) ▸ h.le
  blocks := hb

/-- The invariant after a step of LE's command that wrote LE alone. -/
theorem State.Inv.of_le (hs : s.active = none ∨ s.active = some .le) (ht : t.active = none ∨ t.active = some .le)
    (hbp : t.bp = s.bp) (hbf : t.bf = s.bf) (hld : t.ld = s.ld) (hu : t.le.Inv (t.active = some .le)) : t.Inv where
  bp := hbp ▸ running_eq (u := .bp) hs ht (by decide) ▸ h.bp
  bf := hbf ▸ running_eq (u := .bf) hs ht (by decide) ▸ h.bf
  ld := hld ▸ running_eq (u := .ld) hs ht (by decide) ▸ h.ld
  le := hu
  blocks := hb

end one_unit

/-- A command that runs no unit ends with a result. -/
theorem State.Inv.finish (h : s.Inv) (ha : s.active = none) {r : Result} (hr : r.wf) : (s.finish r).Inv :=
  h.of_bp (blocks_append h.blocks hr) (.inl ha) (.inl rfl) rfl rfl rfl (by simpa [ha] using h.bp)

/-- A command to a Failed unit changes nothing but its result. -/
theorem State.Inv.repeatFail {err : Option ErrorKind} (h : s.Inv) (ha : s.active = none)
    (hx : repeatFail err s = .next t) : t.Inv := by
  obtain ⟨k, -, rfl⟩ := repeatFail_next hx
  exact h.finish ha nofun

/-! ### Failure entry (60_exceptions.md R186, R188, R189) -/

section failure
variable {k : ErrorKind} {P : Prop} (hP : ¬P) (n : Nat)
include hP

theorem BpUnit.Inv.of_failed (u : BpUnit) (hk : mayRaise .bp k = true) :
    BpUnit.Inv { u with phase := .failed, buf := [], err := some k, errPos := u.pos } P where
  err_iff := by simp
  err_kind := by rintro _ ⟨⟩; exact hk
  err_at _ := rfl
  idle _ := rfl
  reading h := absurd h hP

theorem BfUnit.Inv.of_failed (u : BfUnit) (hk : mayRaise .bf k = true) :
    BfUnit.Inv { u with phase := .failed, pending := [], err := some k, errPos := u.pos } P where
  err_iff := by simp
  err_kind := by rintro _ ⟨⟩; exact hk
  err_at _ := rfl
  idle _ := rfl
  writing h := absurd h hP

theorem LdUnit.Inv.of_failed (u : LdUnit) (hk : mayRaise .ld k = true) :
    LdUnit.Inv { u with phase := .failed, out := [], err := some k, errPos := n } P where
  err_iff := by simp
  err_kind := by rintro _ ⟨⟩; exact hk
  run_iff := by simp [hP]
  run := by rintro (h | h) <;> cases h
  failed _ := rfl

theorem LeUnit.Inv.of_failed (u : LeUnit) (hk : mayRaise .le k = true) :
    LeUnit.Inv { u with phase := .failed, out := [], err := some k, errPos := n } P where
  err_iff := by simp
  err_kind := by rintro _ ⟨⟩; exact hk
  run_iff := by simp [hP]
  run := by rintro (h | h) <;> cases h
  width h := by cases h
  started h := by cases h
  failed _ := rfl

end failure

section raise
variable {k : ErrorKind} (h : s.Inv) (n : Nat)
include h

/-- A failure of LD, before or during a run. -/
theorem State.Inv.raiseLd (ha : s.active = none ∨ s.active = some .ld) (hk : mayRaise .ld k = true) :
    (raiseFail .ld k n s).Inv :=
  h.of_ld (blocks_append h.blocks nofun) ha (.inl rfl) rfl rfl rfl (.of_failed nofun n s.ld hk)

/-- A failure of LE, before or during a run. -/
theorem State.Inv.raiseLe (ha : s.active = none ∨ s.active = some .le) (hk : mayRaise .le k = true) :
    (raiseFail .le k n s).Inv :=
  h.of_le (blocks_append h.blocks nofun) ha (.inl rfl) rfl rfl rfl (.of_failed nofun n s.le hk)

end raise

/-! ### Reset (70_reset_and_hazards.md R200, R201) -/

section reset
variable {P : Prop} (hP : ¬P)
include hP

theorem BpUnit.reset_inv : BpUnit.reset.Inv P :=
  ⟨by simp [BpUnit.reset], nofun, nofun, fun _ => rfl, fun h => absurd h hP⟩

theorem BfUnit.reset_inv : BfUnit.reset.Inv P :=
  ⟨by simp [BfUnit.reset], nofun, nofun, fun _ => rfl, fun h => absurd h hP⟩

theorem LdUnit.reset_inv : LdUnit.reset.Inv P :=
  ⟨by simp [LdUnit.reset], nofun, by simp [LdUnit.reset, hP], by simp [LdUnit.reset], nofun⟩

theorem LeUnit.reset_inv : LeUnit.reset.Inv P :=
  ⟨by simp [LeUnit.reset], nofun, by simp [LeUnit.reset, hP], by simp [LeUnit.reset], nofun, nofun, nofun⟩

end reset

/-- Settles O49: every unit is as RESET leaves it, and no command runs. -/
theorem resetStateMeetsTheInvariant : Obligations.ResetStateMeetsTheInvariant :=
  ⟨BpUnit.reset_inv nofun, BfUnit.reset_inv nofun, LdUnit.reset_inv nofun, LeUnit.reset_inv nofun, nofun⟩

theorem State.Inv.resetUnit (h : s.Inv) (ha : s.active = none) (u : UnitId) : (resetUnit u s).Inv := by
  have hne : ∀ v, ¬s.active = some v := by simp [ha]
  cases u with
  | bp => exact h.of_bp h.blocks (.inl ha) (.inl ha) rfl rfl rfl (BpUnit.reset_inv (hne _))
  | bf => exact h.of_bf h.blocks (.inl ha) (.inl ha) rfl rfl rfl (BfUnit.reset_inv (hne _))
  | ld => exact h.of_ld h.blocks (.inl ha) (.inl ha) rfl rfl rfl (LdUnit.reset_inv (hne _))
  | le => exact h.of_le h.blocks (.inl ha) (.inl ha) rfl rfl rfl (LeUnit.reset_inv (hne _))

/-- `cfg.max_pixels` is in no clause. -/
theorem State.Inv.withMaxPixels (h : s.Inv) (v : U32) : (s.withMaxPixels v).Inv := ⟨h.bp, h.bf, h.ld, h.le, h.blocks⟩

theorem State.Inv.resetAll (h : s.Inv) (ha : s.active = none) : (resetAll s).Inv :=
  ((((h.resetUnit ha .bp).resetUnit ha .bf).resetUnit ha .ld).resetUnit ha .le).withMaxPixels _

/-! ### BP (40_block_parser.md) -/

/-- What a block form can do: a failure of BP at the bytes consumed, or a block, well formed as the form is, and another
phase than Failed. -/
theorem exec_block_cases {i : Instr} {phase : BpPhase} (hc : admits (.block phase) i = true) (hw : i.wf = true)
    (hx : exec i s = .next t) :
    (∃ k, mayRaise .bp k = true ∧ t = raiseFail .bp k s.bp.pos s) ∨
    (∃ b phase', b.wf = true ∧ phase' ≠ .failed ∧
      t = (s.withBp { s.bp with phase := phase', buf := [] }).finish (.block b)) := by
  have raised {k} (hk : mayRaise .bp k = true) (hx : raiseBp k s = .next t) :
      ∃ k, mayRaise .bp k = true ∧ t = raiseFail .bp k s.bp.pos s := by
    cases hx
    exact ⟨k, hk, rfl⟩
  have returned {b phase'} (hx : returnBlock b phase' s = .next t) (hb : b.wf = true) (hp : phase' ≠ .failed) :
      ∃ b phase', b.wf = true ∧ phase' ≠ .failed ∧
        t = (s.withBp { s.bp with phase := phase', buf := [] }).finish (.block b) := by
    cases hx
    exact ⟨b, phase', hb, hp, rfl⟩
  cases i with
  | blockHeader raw =>
    obtain ⟨-, -, hx⟩ := inBlockContext_next hx
    split_ifs at hx
    · exact .inl (raised rfl hx)
    · exact .inr (returned hx rfl nofun)
    · exact .inr (returned hx rfl nofun)
    · exact .inl (raised rfl hx)
  | blockScreenDesc r =>
    obtain ⟨-, -, hx⟩ := inBlockContext_next hx
    exact .inr (returned hx rfl (by split <;> nofun))
  | blockImageDesc r =>
    obtain ⟨-, -, hx⟩ := inBlockContext_next hx
    exact .inr (returned hx rfl (by split <;> nofun))
  | blockGraphicControl op =>
    obtain ⟨-, -, hx⟩ := inBlockContext_next hx
    cases op with
    | wrongSize size => exact .inl (raised rfl hx)
    | fields r terminator =>
      dsimp only at hx
      split_ifs at hx
      · exact .inl (raised rfl hx)
      · exact .inr (returned hx rfl nofun)
  | blockAppExt op =>
    obtain ⟨-, -, hx⟩ := inBlockContext_next hx
    cases op with
    | wrongSize size => exact .inl (raised rfl hx)
    | fields r => exact .inr (returned hx hw nofun)
  | blockUnknownExt | blockInvalidIntroducer =>
    obtain ⟨-, -, hx⟩ := inBlockContext_next hx
    exact .inl (raised rfl hx)
  | blockComment | blockPlainText =>
    obtain ⟨-, -, hx⟩ := inBlockContext_next hx
    exact .inr (returned hx hw nofun)
  | blockGlobalTable | blockLocalTable | blockImageData | blockTrailer =>
    obtain ⟨-, -, hx⟩ := inBlockContext_next hx
    exact .inr (returned hx rfl nofun)
  | _ => cases hc

/-- BP in a phase that expects a block has no error record. -/
theorem BpUnit.Inv.err_none {u : BpUnit} (h : u.Inv True) : u.phase ≠ .failed ∧ u.err = none := by
  have hp : u.phase ≠ .failed := by
    intro hp
    have hd := h.reading trivial
    rw [hp] at hd
    cases hd
  exact ⟨hp, err_eq_none h.err_iff hp⟩

/-- BP that has not failed: nothing is buffered between commands, and no whole block during one. -/
theorem BpUnit.Inv.of_ok {u : BpUnit} {P : Prop} (hp : u.phase ≠ .failed) (he : u.err = none) (hi : ¬P → u.buf = [])
    (hr : P → decodeBlock u.phase u.buf = .incomplete) : u.Inv P where
  err_iff := by simp [he, hp]
  err_kind := by simp [he]
  err_at h := absurd h hp
  idle := hi
  reading := hr

/-- BP's micro-step fails at the bytes consumed, buffers a byte of an incomplete form, or returns a block (R96). -/
theorem step_bp_keeps (h : s.Inv) (ha : s.active = some .bp) (hx : step s = .next t) : t.Inv := by
  have hu : s.bp.Inv True := by simpa [ha] using h.bp
  obtain ⟨hp, he⟩ := hu.err_none
  have raised {k s'} (hk : mayRaise .bp k = true) (hbf : s'.bf = s.bf) (hld : s'.ld = s.ld) (hle : s'.le = s.le)
      (hr : s'.results = s.results) : (raiseFail .bp k s'.bp.pos s').Inv :=
    h.of_bp (by rw [raiseFail_results, hr]; exact blocks_append h.blocks nofun) (.inr ha) (.inl rfl) hbf hld hle
      (.of_failed nofun s'.bp hk)
  rcases read1_cases s with ⟨b, rest, hs, -⟩ | ⟨-, hr⟩ | ⟨rest, -, hr⟩ | ⟨e, rest, -, hr⟩
  · cases hf : bufferFull s with
    | true =>
      rw [step_bp_full ha hf hs] at hx
      cases hx
      exact raised rfl rfl rfl rfl rfl
    | false =>
      rw [step_bp_byte ha hf hs] at hx
      split at hx
      · cases hx
        exact h.of_bp h.blocks (.inr ha) (.inr ha) rfl rfl rfl (.of_ok hp he (absurd ha) fun _ => ‹_›)
      · obtain ⟨hw, hc⟩ := decodeBlock_complete ‹_›
        rcases exec_block_cases hc hw hx with ⟨k, hk, rfl⟩ | ⟨blk, phase, hb, hp', rfl⟩
        · exact raised hk rfl rfl rfl rfl
        · exact h.of_bp (blocks_append h.blocks (by rintro _ ⟨⟩; exact hb)) (.inr ha) (.inl rfl) rfl rfl rfl
            (.of_ok hp' he (fun _ => rfl) nofun)
      · cases hx
  all_goals
    rw [step_bp_error ha hr] at hx
    cases hx
    exact raised rfl rfl rfl rfl rfl

/-! ### BF (41_block_framer.md) -/

/-- BF that has not failed: bytes are left to write exactly while it runs. -/
theorem BfUnit.Inv.of_ok {u : BfUnit} {P : Prop} (hp : u.phase = .ready) (he : u.err = none)
    (hi : ¬P → u.pending = []) (hw : P → u.pending ≠ []) : u.Inv P where
  err_iff := by simp [he, hp]
  err_kind := by simp [he]
  err_at h := by simp [hp] at h
  idle := hi
  writing h := ⟨hp, hw h⟩

/-- Every block has a byte, once its table's size is legal. -/
theorem frameBytes_ne_nil {b : Block} (h : badTableSize b = false) : frameBytes b ≠ [] := by
  cases b with
  | header v => cases v <;> nofun
  | globalTable es => exact Laws.OneLanguage.table_ne_nil (by simpa [badTableSize] using h)
  | localTable es => exact Laws.OneLanguage.table_ne_nil (by simpa [badTableSize] using h)
  | _ => nofun

theorem State.Inv.bf_ready (h : s.Inv) (hp : s.bf.phase = .ready) : s.bf.err = none :=
  err_eq_none h.bf.err_iff (by simp [hp])

/-- BF's micro-step writes a byte or fails; after the last byte the push ends (R122, R137). -/
theorem step_bf_keeps (h : s.Inv) (ha : s.active = some .bf) (hx : step s = .next t) : t.Inv := by
  obtain ⟨hp, hne⟩ := h.bf.writing ha
  have he := h.bf_ready hp
  obtain ⟨b, rest, hb⟩ := List.exists_cons_of_ne_nil hne
  simp only [step_bf ha, bfMicroStep, hb] at hx
  rcases write1_cases s b with ⟨answers, -, hw⟩ | ⟨e, kept, answers, -, hw⟩ <;> simp only [hw] at hx
  · cases rest with
    | nil =>
      cases hx
      exact h.of_bf (blocks_append h.blocks nofun) (.inr ha) (.inl rfl) rfl rfl rfl
        (.of_ok hp he (fun _ => rfl) nofun)
    | cons b' rest' =>
      cases hx
      exact h.of_bf h.blocks (.inr ha) (.inr ha) rfl rfl rfl (.of_ok hp he (absurd ha) nofun)
  · cases hx
    exact h.of_bf (blocks_append h.blocks nofun) (.inr ha) (.inl rfl) rfl rfl rfl (.of_failed nofun s.bf rfl)

/-! ### LD (42_lzw_decoder.md) -/

/-- The first assignable code leaves room in the dictionary (00_scope.md R7). -/
theorem firstFree_lt {m : Nat} (hm : m ≤ 8) : firstFree m < 512 := by
  have : 2 ^ m ≤ 2 ^ 8 := Nat.pow_le_pow_right (by omega) hm
  simp only [firstFree]
  omega

/-- The registers of a run that has just started, or just read a clear code (R139, R142). -/
theorem LdUnit.RunInv.of_clear {u : LdUnit} (hm : 2 ≤ u.m.toNat ∧ u.m.toNat ≤ 8)
    (hnext : u.next.toNat = firstFree u.m.toNat) (hwidth : u.width.toNat = u.m.toNat + 1) (hprev : u.prev = none)
    (harena : u.arena = []) (hbits : u.bitpos ≤ 8 * u.input.length) (hout : ∀ i ∈ u.out, i.toNat < 2 ^ u.m.toNat)
    (hlimit : u.out.length ≤ u.maxOut.toNat) : u.RunInv where
  m_range := hm
  next_range := by
    have := firstFree_lt hm.2
    simp only [hnext, Config.dictCap]
    omega
  width_eq := by
    rw [hwidth, hnext, (bitlen_firstFree hm.1).1]
    simp only [Config.wMax]
    omega
  arena_wf := by rw [hnext, harena]; exact arena_nil _
  prev_data := by simp [hprev]
  prev_none _ := hnext
  bitpos_le := hbits
  out_range := hout
  out_limit := hlimit

theorem LdUnit.start_runInv (u : LdUnit) {m : Byte} (payload : List Byte) (limit : U32)
    (hm : codeSizeLegal m = true) : (u.start m payload limit).RunInv := by
  obtain ⟨h2, h8⟩ := (codeSizeLegal_iff m).1 hm
  have hm4 := codeSize_m h8
  refine .of_clear ?_ ?_ ?_ rfl rfl (Nat.zero_le _) nofun (Nat.zero_le _)
  · exact hm4.symm ▸ ⟨h2, h8⟩
  · exact (firstFree_next h8).trans (congrArg firstFree hm4.symm)
  · exact (codeSize_width h8).trans (congrArg (· + 1) hm4.symm)

theorem LdUnit.insert_same {u u' : LdUnit} {policy p k} (h : u.insert policy p k = some u') :
    u'.phase = u.phase ∧ u'.err = u.err ∧ u'.m = u.m ∧ u'.out = u.out ∧ u'.maxOut = u.maxOut := by
  rw [LdUnit.insert_frame h]
  exact ⟨rfl, rfl, rfl, rfl, rfl⟩

section ld_run
variable {u u' : LdUnit} (h : u.RunInv)
include h

/-- The bits of a code that is there are consumed (R140). -/
theorem LdUnit.RunInv.advance (hb : u.bitpos + u.width.toNat ≤ 8 * u.input.length) : u.advance.RunInv :=
  { h with bitpos_le := hb }

/-- CLEAR (R142). -/
theorem LdUnit.RunInv.clear : LdUnit.RunInv
    { u with width := u.m + 1#4, next := BitVec.ofNat 13 (firstFree u.m.toNat), prev := none, arena := [] } :=
  have hm : u.m.toNat ≤ 8 := h.m_range.2
  .of_clear h.m_range (firstFree_next hm) (width_succ (by omega)) rfl rfl h.bitpos_le h.out_range h.out_limit

/-- The next code after an insertion is one more, until the dictionary is full (R148, R150). -/
theorem LdUnit.RunInv.insert_next {policy p k} (hi : u.insert policy p k = some u') :
    u'.next.toNat = min Config.dictCap (u.next.toNat + 1) := by
  have hle : u.next.toNat ≤ 4096 := h.next_range.2
  simp only [Config.dictCap]
  rcases u.insert_cases policy p k with ⟨hlt, e⟩ | ⟨hge, -, e⟩ | ⟨-, -, e⟩ <;> rw [e] at hi <;> cases hi
  · rw [next_succ hle]
    simp only [Config.dictCap] at hlt
    omega
  · simp only [Config.dictCap] at hge
    omega

/-- Inserting the previous code and an index keeps the registers' ranges (R148, R149). -/
theorem LdUnit.RunInv.insert {policy p k} (hp : u.prev = some p) (hk : k.toNat < 2 ^ u.m.toNat)
    (hi : u.insert policy p k = some u') : u'.RunInv := by
  rcases u.insert_cases policy p k with ⟨hlt, e⟩ | ⟨-, -, e⟩ | ⟨-, -, e⟩ <;> rw [e] at hi <;> cases hi
  · have hs : (u.next + 1#13).toNat = u.next.toNat + 1 := next_succ hlt.le
    have hpd := h.prev_data p hp
    refine { h with
      next_range := ?_, width_eq := ?_, arena_wf := ?_, prev_data := fun q hq => ?_, prev_none := fun hn => ?_ }
    · have := h.next_range
      simp only [hs]
      omega
    · rw [hs, ← width_step h.width_eq, apply_ite BitVec.toNat]
      split_ifs with hc
      · exact width_succ hc.2
      · rfl
    · rw [hs]
      exact arena_insert h.arena_wf (next_code hlt) h.next_range.1 hpd hk
    · rw [hs]
      exact dataCode_mono (Nat.le_succ _) (h.prev_data q hq)
    · cases hp.symm.trans hn
  · exact h

/-- A string of indices within the limit goes out, and a data code is remembered (R151). -/
theorem LdUnit.RunInv.output {e : List Byte} {c : Code} (he : ∀ i ∈ e, i.toNat < 2 ^ u.m.toNat)
    (hl : u.out.length + e.length ≤ u.maxOut.toNat) (hc : dataCode u.m.toNat u.next.toNat c = true) :
    LdUnit.RunInv { u with out := u.out ++ e, prev := some c } :=
  { h with
    prev_data := by rintro _ ⟨⟩; exact hc
    prev_none := nofun
    out_range := fun i hi => (List.mem_append.1 hi).elim (h.out_range i) (he i)
    out_limit := by simpa using hl }

end ld_run

/-- LD that has not failed. -/
theorem LdUnit.Inv.of_ok {u : LdUnit} {P : Prop} (hp : u.phase ≠ .failed) (he : u.err = none)
    (hr : P ↔ u.phase = .running) (hu : u.RunInv) : u.Inv P where
  err_iff := by simp [he, hp]
  err_kind := by simp [he]
  run_iff := hr
  run _ := hu
  failed h := absurd h hp

/-- The root classes are those of the codes below the clear code (30_encoding.md R89). -/
theorem root_of_admits {u : LdUnit} {i : Instr} {c : Code} (h : admits u.context i = true)
    (hi : i = .codeRootFirst c ∨ i = .codeRoot c) : c.toNat < 2 ^ u.m.toNat := by
  rcases hi with rfl | rfl
  all_goals
    simp only [admits, LdUnit.context, Context.inCode, Bool.and_eq_true, decide_eq_true_eq] at h
    exact h.1

section ld_step
variable (h : s.Inv) (ha : s.active = some .ld)
include h ha

theorem State.Inv.ld_running : s.ld.phase = .running ∧ s.ld.err = none ∧ s.ld.RunInv := by
  have hp := h.ld.run_iff.1 ha
  exact ⟨hp, err_eq_none h.ld.err_iff (by simp [hp]), h.ld.run (.inl hp)⟩

/-- LD goes on to its next code. -/
theorem State.Inv.withLd {u : LdUnit} (hp : u.phase = s.ld.phase) (he : u.err = s.ld.err) (hu : u.RunInv) :
    (s.withLd u).Inv := by
  obtain ⟨hrun, herr, -⟩ := h.ld_running ha
  rw [hrun] at hp
  exact h.of_ld h.blocks (.inr ha) (.inr ha) rfl rfl rfl
    (.of_ok (by simp [hp]) (he.trans herr) (by simp [ha, hp]) hu)

/-- Inserting the pair of the previous code and an index, then putting out a string (R145, R146). -/
theorem insertAndOutput_keeps {p c : Code} {k : Byte} {e : List Byte}
    (hb : s.ld.bitpos + s.ld.width.toNat ≤ 8 * s.ld.input.length) (hp : s.ld.prev = some p)
    (hk : k.toNat < 2 ^ s.ld.m.toNat) (he : ∀ i ∈ e, i.toNat < 2 ^ s.ld.m.toNat)
    (hc : dataCode s.ld.m.toNat (min Config.dictCap (s.ld.next.toNat + 1)) c = true)
    (hx : insertAndOutput p k e c s = .next t) : t.Inv := by
  obtain ⟨-, -, hr⟩ := h.ld_running ha
  rcases insertAndOutput_cases p k e c s with ⟨kind, hkind, hx'⟩ | ⟨u, hu, hl, hx'⟩ <;> rw [hx'] at hx <;> cases hx
  · exact h.raiseLd _ (.inr ha) (by rcases hkind with rfl | rfl <;> rfl)
  · have hru := (hr.advance hb).insert hp hk hu
    have hn := (hr.advance hb).insert_next hu
    obtain ⟨hphase, herr, hm, hout, hmax⟩ := LdUnit.insert_same hu
    refine h.withLd ha hphase herr (hru.output ?_ ?_ ?_)
    · rwa [hm]
    · rwa [hout, hmax]
    · rw [hm, hn]
      exact hc

/-- ROOT and DEFINED: a data code below the next one (R145). -/
theorem knownCode_keeps {c : Code} (hb : s.ld.bitpos + s.ld.width.toNat ≤ 8 * s.ld.input.length)
    (hc : dataCode s.ld.m.toNat s.ld.next.toNat c = true) (hx : knownCode c s = .next t) : t.Inv := by
  obtain ⟨-, -, hr⟩ := h.ld_running ha
  unfold knownCode at hx
  split at hx
  · cases hx
  · have hle := hr.next_range.2
    exact insertAndOutput_keeps h ha hb ‹_› (firstOf_range hr.m_range.2 hr.arena_wf hc)
      (seqOf_range hr.m_range.2 hr.arena_wf hc) (dataCode_mono (by omega) hc) hx

/-- A code class whose bits are there keeps the invariant (R142 to R147). -/
theorem exec_code_keeps {i : Instr} (hb : s.ld.bitpos + s.ld.width.toNat ≤ 8 * s.ld.input.length)
    (hc : admits s.ld.context i = true) (hx : exec i s = .next t) : t.Inv := by
  obtain ⟨-, he, hr⟩ := h.ld_running ha
  have hadv := hr.advance hb
  have hfree := hr.next_range.1
  cases i with
  | codeClear c =>
    obtain ⟨-, -, ⟨⟩⟩ := inCodeContext_next hx
    exact h.withLd ha rfl rfl hadv.clear
  | codeEoi c =>
    obtain ⟨-, -, ⟨⟩⟩ := inCodeContext_next hx
    exact h.of_ld (blocks_append h.blocks nofun) (.inr ha) (.inl rfl) rfl rfl rfl
      (.of_ok nofun he (by simp) { hadv with })
  | codeUndefined c =>
    obtain ⟨-, -, ⟨⟩⟩ := inCodeContext_next hx
    exact h.raiseLd _ (.inr ha) rfl
  | codeRootFirst c =>
    obtain ⟨-, -, hx⟩ := inCodeContext_next hx
    have hroot := root_of_admits hc (.inl rfl)
    rcases outputString_cases [c.setWidth 8] c s.ld.advance s with ⟨hl, hx'⟩ | ⟨-, hx'⟩ <;> rw [hx'] at hx <;> cases hx
    · refine h.withLd ha rfl rfl (hadv.output ?_ hl (dataCode_root hroot hfree))
      simp only [List.mem_singleton, forall_eq, BitVec.toNat_setWidth]
      exact lt_of_le_of_lt (Nat.mod_le _ _) hroot
    · exact h.raiseLd _ (.inr ha) rfl
  | codeRoot c =>
    obtain ⟨-, -, hx⟩ := inCodeContext_next hx
    exact knownCode_keeps h ha hb (dataCode_root (root_of_admits hc (.inr rfl)) hfree) hx
  | codeDefined c =>
    obtain ⟨-, -, hx⟩ := inCodeContext_next hx
    simp only [admits, LdUnit.context, Context.inCode, Bool.and_eq_true, decide_eq_true_eq] at hc
    obtain ⟨⟨hgt, hlt⟩, -⟩ := hc
    refine knownCode_keeps h ha hb (dataCode_iff.2 ⟨hlt, ?_, hgt.ne'⟩) hx
    simp only [eoiOf, clearOf] at *
    omega
  | codeKwkwk c =>
    obtain ⟨-, -, hx⟩ := inCodeContext_next hx
    simp only [admits, LdUnit.context, Context.inCode, Bool.and_eq_true, decide_eq_true_eq, beq_iff_eq] at hc
    obtain ⟨⟨⟨hgt, hnext⟩, -⟩, hle⟩ := hc
    split at hx
    · cases hx
    · have hpd := hr.prev_data _ ‹_›
      have hk := firstOf_range hr.m_range.2 hr.arena_wf hpd
      have hseq := seqOf_range hr.m_range.2 hr.arena_wf hpd
      refine insertAndOutput_keeps h ha hb ‹_› hk ?_ (dataCode_iff.2 ⟨?_, ?_, hgt.ne'⟩) hx
      · intro i hi
        rcases List.mem_append.1 hi with hi | hi
        · exact hseq i hi
        · exact List.mem_singleton.1 hi ▸ hk
      · simp only [Config.dictCap]
        omega
      · simp only [eoiOf, clearOf] at *
        omega
  | _ => cases hc

/-- LD's micro-step fails for want of bits, or runs the class of the code read (R140, R141). -/
theorem step_ld_keeps (hx : step s = .next t) : t.Inv := by
  rcases Nat.lt_or_ge (8 * s.ld.input.length) (s.ld.bitpos + s.ld.width.toNat) with hb | hb
  · rw [step_ld_short ha hb] at hx
    cases hx
    exact h.raiseLd _ (.inr ha) rfl
  · rw [step_ld_code ha hb] at hx
    exact exec_code_keeps h ha hb (admits_decodeCode _ _ _ _) hx

end ld_step

/-! ### LE (43_lzw_encoder.md) -/

/-- The width of a running LE is that of the code assigned last (R163). -/
def LeUnit.Lockstep (u : LeUnit) : Prop := u.width.toNat = min Config.wMax (bitlen (u.next.toNat - 1))

/-- The registers of a running LE. -/
def LeUnit.Going (u : LeUnit) : Prop := u.RunInv ∧ u.Lockstep

/-- The clear and the EOI code fit a width above `m`. -/
theorem clear_eoi_lt {m w : Nat} (hm : 2 ≤ m) (hw : m + 1 ≤ w) : clearOf m < 2 ^ w ∧ eoiOf m < 2 ^ w := by
  have h4 : 2 ^ 2 ≤ 2 ^ m := Nat.pow_le_pow_right (by omega) hm
  have hpow : 2 ^ (m + 1) ≤ 2 ^ w := Nat.pow_le_pow_right (by omega) hw
  have h2 : 2 ^ (m + 1) = 2 * 2 ^ m := by ring
  simp only [clearOf, eoiOf]
  omega

/-- The registers of a run that has just started or cleared its dictionary (R157, R164), but for the accumulator. -/
theorem LeUnit.going_of_clear {u : LeUnit} (hm : 2 ≤ u.m.toNat ∧ u.m.toNat ≤ 8)
    (hnext : u.next.toNat = firstFree u.m.toNat) (hwidth : u.width.toNat = u.m.toNat + 1) (hdict : u.dict = [])
    (hcand : ∀ p, u.cand = some p → p.toNat < 2 ^ u.m.toNat) (hnacc : u.nacc < 8) (hacc : u.acc < 2 ^ u.nacc)
    (hpos : u.inpos ≤ u.input.length) : u.Going := by
  have hcap := firstFree_lt hm.2
  have hmax : Config.wMax = 12 := rfl
  refine ⟨⟨hm, ?_, ?_, ?_, ?_, fun p hp => dataCode_root (hcand p hp) hnext.ge, hnacc, hacc, hpos⟩, ?_⟩
  · simp only [hnext, Config.dictCap]
    omega
  · omega
  · rw [hnext, hdict]
    exact arena_nil _
  · rw [hdict]
    exact List.nodup_nil
  · rw [LeUnit.Lockstep, hwidth, hnext, (bitlen_firstFree hm.1).2]
    omega

theorem LeUnit.start_going (u : LeUnit) {m : Byte} (indices : List Byte) (hm : codeSizeLegal m = true) :
    (u.start m indices).Going := by
  obtain ⟨h2, h8⟩ := (codeSizeLegal_iff m).1 hm
  have hm4 := codeSize_m h8
  refine LeUnit.going_of_clear ?_ ?_ ?_ rfl nofun (Nat.zero_lt_succ _) (Nat.zero_lt_succ _) (Nat.zero_le _)
  · exact hm4.symm ▸ ⟨h2, h8⟩
  · exact (firstFree_next h8).trans (congrArg firstFree hm4.symm)
  · exact (codeSize_width h8).trans (congrArg (· + 1) hm4.symm)

theorem LeUnit.widenAt_width (c : Nat) (u : LeUnit) :
    (u.widenAt c).width.toNat =
      if c = 2 ^ u.width.toNat ∧ u.width.toNat < Config.wMax then u.width.toNat + 1 else u.width.toNat := by
  rw [LeUnit.widenAt_eq, apply_ite BitVec.toNat]
  split_ifs with hc
  · exact width_succ hc.2
  · rfl

theorem LeUnit.insert_eq (p : Code) (i : Byte) (u : LeUnit) :
    u.insert p i = { u with
      width := (u.widenAt u.next.toNat).width
      dict := { code := u.next.setWidth 12, prefixCode := p, suffix := i } :: u.dict
      next := u.next + 1#13 } := by
  rw [LeUnit.insert, LeUnit.widenAt_eq]

/-- The root code of an index (R160). -/
theorem setWidth_code_lt {i : Byte} {n : Nat} (hi : i.toNat < n) : (i.setWidth 12 : Code).toNat < n := by
  simpa using lt_of_le_of_lt (Nat.mod_le _ _) hi

/-- A data code fits the current width. -/
theorem LeUnit.Lockstep.data_lt {u : LeUnit} (hw : u.Lockstep) {p : Code}
    (hp : dataCode u.m.toNat u.next.toNat p = true) :
    p.toNat < 2 ^ u.width.toNat := by
  have hlt := (dataCode_iff.1 hp).1
  rw [hw]
  rcases min_choice Config.wMax (bitlen (u.next.toNat - 1)) with hmin | hmin <;> rw [hmin]
  · exact p.isLt
  · have := (bitlen_le_iff (u.next.toNat - 1) _).1 le_rfl
    omega

section le_run
variable {u : LeUnit} (h : u.RunInv)
include h

theorem LeUnit.RunInv.emit {c : Nat} (hc : c < 2 ^ u.width.toNat) : (u.emit c).RunInv where
  m_range := by simpa using h.m_range
  next_range := by simpa using h.next_range
  width_range := by simpa using h.width_range
  dict_wf := by simpa using h.dict_wf
  dict_pairs := by simpa using h.dict_pairs
  cand_data := by simpa using h.cand_data
  nacc_lt := u.emit_nacc c
  acc_lt := LeUnit.emit_acc h.acc_lt hc
  inpos_le := by simpa using h.inpos_le

theorem LeUnit.RunInv.flush : u.flush.RunInv :=
  { h with nacc_lt := Nat.zero_lt_succ _, acc_lt := Nat.zero_lt_succ _ }

theorem LeUnit.RunInv.widenAt_range (c : Nat) :
    u.m.toNat + 1 ≤ (u.widenAt c).width.toNat ∧ (u.widenAt c).width.toNat ≤ Config.wMax := by
  have := h.width_range
  rw [LeUnit.widenAt_width]
  split_ifs <;> omega

theorem LeUnit.RunInv.widenAt (c : Nat) : (u.widenAt c).RunInv := by
  have hw := h.widenAt_range c
  rw [LeUnit.widenAt_eq] at hw ⊢
  exact { h with width_range := hw }

/-- The width test on the code assigned keeps the lockstep with the next one (R163). -/
theorem LeUnit.RunInv.widenAt_next (hw : u.Lockstep) :
    (u.widenAt u.next.toNat).width.toNat = min Config.wMax (bitlen u.next.toNat) := by
  have hstep := width_step hw
  have hfree := h.next_range.1
  have hpos : u.next.toNat - 1 + 1 = u.next.toNat := Nat.sub_add_cancel (le_trans (Nat.succ_pos _) hfree)
  rw [hpos] at hstep
  rw [LeUnit.widenAt_width, hstep]

/-- Inserting a pair that is not stored, then clearing a full dictionary, then starting again from an index (R162 to
R164). -/
theorem LeUnit.RunInv.miss (hw : u.Lockstep) {p c : Code} {i : Byte} {n : Nat}
    (hp : dataCode u.m.toNat u.next.toNat p = true) (hi : i.toNat < 2 ^ u.m.toNat)
    (hf : findPair u.dict p i = none) (hc : c.toNat < 2 ^ u.m.toNat) (hn : n ≤ u.input.length) :
    LeUnit.Going { (u.insert p i).clearIfFull with cand := some c, inpos := n } := by
  have hcap := h.next_range.2
  have hsucc : (u.next + 1#13).toNat = u.next.toNat + 1 := next_succ hcap.le
  have hrange := h.widenAt_range u.next.toNat
  have hfree := h.next_range.1
  rw [LeUnit.insert_eq]
  unfold LeUnit.clearIfFull
  split
  · have hm : 2 ≤ u.m.toNat ∧ u.m.toNat ≤ 8 := h.m_range
    refine LeUnit.going_of_clear ?_ ?_ ?_ rfl ?_ (LeUnit.emit_nacc _ _) (LeUnit.emit_acc h.acc_lt ?_) ?_
    · simpa using hm
    · simpa using firstFree_next hm.2
    · simpa using width_succ (Nat.lt_of_le_of_lt hm.2 (by decide))
    · rintro _ ⟨⟩
      simpa using hc
    · exact (clear_eoi_lt hm.1 hrange.1).1
    · simpa using hn
  · rename_i hfull
    simp only [hsucc] at hfull
    refine ⟨{ h with
      next_range := ?_, width_range := hrange, dict_wf := ?_, dict_pairs := pairsDistinct_insert h.dict_pairs hf,
      cand_data := ?_, inpos_le := hn }, ?_⟩
    · simp only [hsucc]
      omega
    · rw [hsucc]
      exact arena_insert h.dict_wf (next_code hcap) hfree hp hi
    · rintro _ ⟨⟩
      simp only [hsucc]
      exact dataCode_root hc (by omega)
    · simpa only [LeUnit.Lockstep, hsucc, Nat.add_sub_cancel] using h.widenAt_next hw

end le_run

/-- LE that has not failed. -/
theorem LeUnit.Inv.of_ok {u : LeUnit} {P : Prop} (hp : u.phase ≠ .failed) (he : u.err = none)
    (hr : P ↔ u.phase = .running) (hu : u.RunInv)
    (hrun : u.phase = .running → u.Lockstep ∧ (u.cand = none ↔ u.inpos = 0)) : u.Inv P where
  err_iff := by simp [he, hp]
  err_kind := by simp [he]
  run_iff := hr
  run _ := hu
  width h := (hrun h).1
  started h := (hrun h).2
  failed h := absurd h hp

@[simp] theorem LeUnit.insert_clearIfFull_same (p : Code) (i : Byte) (u : LeUnit) :
    (u.insert p i).clearIfFull.phase = u.phase ∧ (u.insert p i).clearIfFull.err = u.err := by
  rw [LeUnit.insert_eq]
  unfold LeUnit.clearIfFull
  split <;> simp

section le_step
variable (h : s.Inv) (ha : s.active = some .le)
include h ha

theorem State.Inv.le_running : s.le.phase = .running ∧ s.le.err = none ∧ s.le.RunInv ∧ s.le.Lockstep := by
  have hp := h.le.run_iff.1 ha
  exact ⟨hp, err_eq_none h.le.err_iff (by simp [hp]), h.le.run (.inl hp), h.le.width hp⟩

/-- LE goes on, with a candidate, to its next index. -/
theorem State.Inv.withLe {u : LeUnit} {c : Code} {n : Nat} (hp : u.phase = s.le.phase) (he : u.err = s.le.err)
    (hu : LeUnit.Going { u with cand := some c, inpos := n + 1 }) :
    (s.withLe { u with cand := some c, inpos := n + 1 }).Inv := by
  obtain ⟨hrun, herr, -⟩ := h.le_running ha
  rw [hrun] at hp
  exact h.of_le h.blocks (.inr ha) (.inr ha) rfl rfl rfl
    (.of_ok (by simp [hp]) (he.trans herr) (by simp [ha, hp]) hu.1 fun _ => ⟨hu.2, by simp⟩)

/-- The end of a run (R159, R165). -/
theorem leReturn_keeps {u : LeUnit} (he : u.err = none) (hu : u.RunInv) (hx : leReturn u s = .next t) : t.Inv := by
  have hu' := (hu.emit (clear_eoi_lt hu.m_range.1 hu.width_range.1).2).flush
  cases hx
  exact h.of_le (blocks_append h.blocks nofun) (.inr ha) (.inl rfl) rfl rfl rfl
    (.of_ok nofun ((u.emit_err _).trans he) (by simp) { hu' with } nofun)

/-- A miss (R162 to R164). -/
theorem leMiss_keeps {p : Code} {i : Byte} (hp : dataCode s.le.m.toNat s.le.next.toNat p = true)
    (hi : i.toNat < 2 ^ s.le.m.toNat) (hf : findPair s.le.dict p i = none)
    (hpos : s.le.inpos + 1 ≤ s.le.input.length) (hx : leMiss p i s = .next t) : t.Inv := by
  obtain ⟨-, -, hu, hw⟩ := h.le_running ha
  have hue := hu.emit (hw.data_lt hp)
  cases hx
  refine h.withLe ha (by simp) (by simp) (hue.miss ?_ ?_ ?_ ?_ ?_ ?_)
  · simpa [LeUnit.Lockstep] using hw
  · simpa using hp
  · simpa using hi
  · simpa using hf
  · simpa using setWidth_code_lt hi
  · simpa using hpos

/-- LE's micro-step ends the run, fails at an index, or leaves a candidate (R159 to R165). -/
theorem step_le_keeps (hx : step s = .next t) : t.Inv := by
  obtain ⟨-, he, hu, hw⟩ := h.le_running ha
  rw [step_le ha] at hx
  unfold leMicroStep at hx
  split at hx
  · split at hx
    · exact leReturn_keeps h ha he hu hx
    · have hu' := (hu.emit (hw.data_lt (hu.cand_data _ ‹_›))).widenAt s.le.next.toNat
      refine leReturn_keeps h ha ?_ hu' ?_
      · simpa [LeUnit.widenAt_eq] using he
      · simpa [leEndOfInput] using hx
  · rename_i i hi
    have hpos : s.le.inpos + 1 ≤ s.le.input.length := (List.getElem?_eq_some_iff.1 hi).1
    split at hx
    · cases hx
      exact h.raiseLe _ (.inr ha) rfl
    · have hlt : i.toNat < 2 ^ s.le.m.toNat := by omega
      split at hx
      · cases hx
        refine h.withLe ha rfl rfl ⟨{ hu with cand_data := ?_, inpos_le := hpos }, hw⟩
        rintro _ ⟨⟩
        exact dataCode_root (setWidth_code_lt hlt) hu.next_range.1
      · have hpd := hu.cand_data _ ‹_›
        split at hx
        · cases hx
          refine h.withLe ha rfl rfl ⟨{ hu with cand_data := ?_, inpos_le := hpos }, hw⟩
          rintro _ ⟨⟩
          exact (arena_mem hu.dict_wf (findPair_some ‹_›)).1
        · exact leMiss_keeps h ha hpd hlt ‹_› hpos hx

end le_step

/-! ### Commands (44_host_commands.md) -/

/-- A command given while no unit runs keeps the invariant. -/
theorem exec_command_keeps {i : Instr} (h : s.Inv) (ha : s.active = none) (hc : admits .command i = true)
    (hx : exec i s = .next t) : t.Inv := by
  cases i with
  | reset u all =>
    obtain ⟨-, ⟨⟩⟩ := whenIdle_next hx
    split
    · exact (h.resetAll ha).finish ha nofun
    · exact (h.resetUnit ha u).finish (by cases u <;> exact ha) nofun
  | cfgWrite v =>
    obtain ⟨-, ⟨⟩⟩ := whenIdle_next hx
    exact (h.withMaxPixels v).finish ha nofun
  | cfgRead | statusRead u =>
    obtain ⟨-, ⟨⟩⟩ := whenIdle_next hx
    exact h.finish ha nofun
  | bpPull =>
    obtain ⟨-, hx⟩ := whenIdle_next hx
    split at hx
    · exact h.repeatFail ha hx
    · cases hx
      exact h.finish ha nofun
    · rename_i hf hd
      cases hx
      exact h.of_bp h.blocks (.inl ha) (.inr rfl) rfl rfl rfl
        (.of_ok hf (err_eq_none h.bp.err_iff hf) (fun _ => rfl) fun _ => decodeBlock_nil hd hf)
  | bfPush b =>
    obtain ⟨-, hx⟩ := whenIdle_next hx
    split at hx
    · exact h.repeatFail ha hx
    · rename_i hp
      split_ifs at hx with hwf hbad
      · cases hx
        exact h.of_bf (blocks_append h.blocks nofun) (.inl ha) (.inl rfl) rfl rfl rfl (.of_failed nofun s.bf rfl)
      · cases hx
        exact h.of_bf h.blocks (.inl ha) (.inr rfl) rfl rfl rfl
          (.of_ok hp (h.bf_ready hp) (absurd rfl) fun _ => frameBytes_ne_nil (by simpa using hbad))
  | ldRun m payload =>
    obtain ⟨-, hx⟩ := whenIdle_next hx
    split at hx
    · exact h.repeatFail ha hx
    · rename_i hp
      split_ifs at hx with hm
      · cases hx
        exact h.of_ld h.blocks (.inl ha) (.inr rfl) rfl rfl rfl
          (.of_ok nofun (err_eq_none h.ld.err_iff hp) (iff_of_true rfl rfl) (s.ld.start_runInv payload _ hm))
      · cases hx
        exact h.raiseLd 0 (.inl ha) rfl
  | leRun m indices =>
    obtain ⟨-, hx⟩ := whenIdle_next hx
    split at hx
    · exact h.repeatFail ha hx
    · rename_i hp
      split_ifs at hx with hm
      · rw [LeUnit.leadingClear_eq] at hx
        cases hx
        obtain ⟨hu, hw⟩ := s.le.start_going indices hm
        have hclear := (clear_eoi_lt hu.m_range.1 hu.width_range.1).1
        refine h.of_le h.blocks (.inl ha) (.inr rfl) rfl rfl rfl (.of_ok ?_ ?_ ?_ (hu.emit hclear) fun _ => ⟨?_, ?_⟩)
        · simp [LeUnit.start]
        · simpa [LeUnit.start] using err_eq_none h.le.err_iff hp
        · simp [LeUnit.start]
        · simpa [LeUnit.Lockstep] using hw
        · simp [LeUnit.start]
      · cases hx
        exact h.raiseLe 0 (.inl ha) rfl
  | _ => cases hc

/-- What the HOST does while no unit runs keeps the invariant. -/
theorem step_idle_keeps (h : s.Inv) (ha : s.active = none) (hx : step s = .next t) : t.Inv := by
  rcases hh : s.host with _ | ⟨q | answers | answers, rest⟩
  · rw [step_idle ha hh] at hx
    cases hx
    exact h
  · cases hd : decodeCommand q with
    | command i =>
      rw [step_command ha hh hd] at hx
      exact exec_command_keeps (h.withHost rest) ha (decodeCommand_admits hd) hx
    | reject r =>
      rw [step_reject ha hh hd] at hx
      cases hx
  · rw [step_bindSrc ha hh] at hx
    cases hx
    exact ⟨h.bp, h.bf, h.ld, h.le, h.blocks⟩
  · rw [step_bindSink ha hh] at hx
    cases hx
    exact ⟨h.bp, h.bf, h.ld, h.le, h.blocks⟩

/-- Settles O50: by the unit that runs. -/
theorem everyStepKeepsTheInvariant : Obligations.EveryStepKeepsTheInvariant := by
  unfold Obligations.EveryStepKeepsTheInvariant
  intro s t h hx
  match ha : s.active with
  | none => exact step_idle_keeps h ha hx
  | some .bp => exact step_bp_keeps h ha hx
  | some .bf => exact step_bf_keeps h ha hx
  | some .ld => exact step_ld_keeps h ha hx
  | some .le => exact step_le_keeps h ha hx

end Sys2Proof.Machine

/-! Memory (20_memory.md): what each instruction leaves unchanged; only a running BP or BF moves the streams. -/

namespace Sys2Proof.Machine

variable {s t : State}

/-! ### A command runs on or ends (00_scope.md R5, R14) -/

/-- Of all the state `s`, only the running unit and the results are still to be written: unit `v` runs, or the command
ended with one result. -/
def RunsOrEnds (v : UnitId) (s t : State) : Prop := t = s.withActive (some v) ∨ ∃ r, t = s.finish r

theorem RunsOrEnds.frame {v : UnitId} (h : RunsOrEnds v s t) :
    t = { s with active := t.active, results := t.results } := by
  rcases h with rfl | ⟨r, rfl⟩ <;> rfl

theorem RunsOrEnds.maxPixels {v : UnitId} (h : RunsOrEnds v s t) : t.maxPixels = s.maxPixels := by
  rw [h.frame]

theorem RunsOrEnds.outcome {v : UnitId} (h : RunsOrEnds v s t) :
    t.results = s.results ∧ t.active = some v ∨ t.active = none ∧ ∃ r, t.results = s.results ++ [r] := by
  rcases h with rfl | ⟨r, rfl⟩
  · exact .inl ⟨rfl, rfl⟩
  · exact .inr ⟨rfl, r, rfl⟩

/-- A unit that runs and stays active runs on. -/
theorem RunsOrEnds.of_running {v : UnitId} (ha : s.active = some v) : RunsOrEnds v s s :=
  .inl (by rw [State.withActive, ← ha])

theorem repeatFail_ends {v : UnitId} {err : Option ErrorKind} (hx : repeatFail err s = .next t) : RunsOrEnds v s t := by
  obtain ⟨k, -, ht⟩ := repeatFail_next hx
  exact .inr ⟨.fail k, ht⟩

/-! ### What an instruction writes, by the unit it acts on -/

/-- BP's command wrote BP alone, and its count of bytes not. -/
def WritesBp (s t : State) : Prop := ∃ u : BpUnit, RunsOrEnds .bp (s.withBp u) t ∧ u.pos = s.bp.pos

/-- BF's command wrote BF alone, and its count of bytes not. -/
def WritesBf (s t : State) : Prop := ∃ u : BfUnit, RunsOrEnds .bf (s.withBf u) t ∧ u.pos = s.bf.pos

/-- LD's command wrote LD alone. -/
def WritesLd (s t : State) : Prop := ∃ u : LdUnit, RunsOrEnds .ld (s.withLd u) t

/-- LE's command wrote LE alone. -/
def WritesLe (s t : State) : Prop := ∃ u : LeUnit, RunsOrEnds .le (s.withLe u) t

/-- BP's command ended: BP alone was written, its count of bytes not, and its buffer is empty (10_state.md R24). -/
def EndsPull (s t : State) : Prop :=
  ∃ (u : BpUnit) (r : Result), t = (s.withBp u).finish r ∧ u.pos = s.bp.pos ∧ u.buf = []

/-- A code class wrote LD alone, and the operands of its run not. -/
def TakesCode (s t : State) : Prop :=
  ∃ u : LdUnit, RunsOrEnds .ld (s.withLd u) t ∧ u.m = s.ld.m ∧ u.input = s.ld.input ∧ u.maxOut = s.ld.maxOut

/-! ### Commands (44_host_commands.md) -/

theorem execBpPull_writes (hx : execBpPull s = .next t) : WritesBp s t := by
  obtain ⟨-, hx⟩ := whenIdle_next hx
  split at hx
  · exact ⟨s.bp, repeatFail_ends hx, rfl⟩
  · cases hx
    exact ⟨s.bp, .inr ⟨_, rfl⟩, rfl⟩
  · cases hx
    exact ⟨_, .inl rfl, rfl⟩

theorem execBfPush_writes {b : Block} (hx : execBfPush b s = .next t) : WritesBf s t := by
  obtain ⟨-, hx⟩ := whenIdle_next hx
  split at hx
  · exact ⟨s.bf, repeatFail_ends hx, rfl⟩
  · split_ifs at hx
    · cases hx
      exact ⟨_, .inr ⟨_, rfl⟩, rfl⟩
    · cases hx
      exact ⟨_, .inl rfl, rfl⟩

theorem execLdRun_writes {m : Byte} {payload : List Byte} (hx : execLdRun m payload s = .next t) : WritesLd s t := by
  obtain ⟨-, hx⟩ := whenIdle_next hx
  split at hx
  · exact ⟨s.ld, repeatFail_ends hx⟩
  · split_ifs at hx
    · cases hx
      exact ⟨_, .inl rfl⟩
    · cases hx
      exact ⟨_, .inr ⟨_, rfl⟩⟩

theorem execLeRun_writes {m : Byte} {indices : List Byte} (hx : execLeRun m indices s = .next t) : WritesLe s t := by
  obtain ⟨-, hx⟩ := whenIdle_next hx
  split at hx
  · exact ⟨s.le, repeatFail_ends hx⟩
  · split_ifs at hx
    · cases hx
      exact ⟨_, .inl rfl⟩
    · cases hx
      exact ⟨_, .inr ⟨_, rfl⟩⟩

/-! ### Block forms (40_block_parser.md R99 to R113) -/

theorem returnBlock_endsPull {b : Block} {phase : BpPhase} (hx : returnBlock b phase s = .next t) : EndsPull s t := by
  cases hx
  exact ⟨_, _, rfl, rfl, rfl⟩

theorem raiseBp_endsPull {k : ErrorKind} (hx : raiseBp k s = .next t) : EndsPull s t := by
  cases hx
  exact ⟨_, _, rfl, rfl, rfl⟩

/-- Well formed or not, a block form that is read ends its pull. -/
theorem exec_block_endsPull {i : Instr} {phase : BpPhase} (hc : admits (.block phase) i = true)
    (hx : exec i s = .next t) : EndsPull s t := by
  cases i with
  | blockHeader raw =>
    obtain ⟨-, -, hx⟩ := inBlockContext_next hx
    split_ifs at hx
    · exact raiseBp_endsPull hx
    · exact returnBlock_endsPull hx
    · exact returnBlock_endsPull hx
    · exact raiseBp_endsPull hx
  | blockGraphicControl op =>
    obtain ⟨-, -, hx⟩ := inBlockContext_next hx
    cases op with
    | wrongSize size => exact raiseBp_endsPull hx
    | fields r terminator =>
      dsimp only at hx
      split_ifs at hx
      · exact raiseBp_endsPull hx
      · exact returnBlock_endsPull hx
  | blockAppExt op =>
    obtain ⟨-, -, hx⟩ := inBlockContext_next hx
    cases op with
    | wrongSize size => exact raiseBp_endsPull hx
    | fields r => exact returnBlock_endsPull hx
  | blockUnknownExt | blockInvalidIntroducer =>
    obtain ⟨-, -, hx⟩ := inBlockContext_next hx
    exact raiseBp_endsPull hx
  | blockScreenDesc | blockGlobalTable | blockLocalTable | blockComment | blockPlainText | blockImageDesc
  | blockImageData | blockTrailer =>
    obtain ⟨-, -, hx⟩ := inBlockContext_next hx
    exact returnBlock_endsPull hx
  | _ => cases hc

/-! ### Code classes (42_lzw_decoder.md R142 to R147) -/

theorem raiseLd_takesCode {k : ErrorKind} (hx : raiseLd k s = .next t) : TakesCode s t := by
  cases hx
  exact ⟨_, .inr ⟨_, rfl⟩, rfl, rfl, rfl⟩

theorem insertAndOutput_takesCode {p c : Code} {k : Byte} {e : List Byte} (ha : s.active = some .ld)
    (hx : insertAndOutput p k e c s = .next t) : TakesCode s t := by
  rcases insertAndOutput_cases p k e c s with ⟨kind, -, hx'⟩ | ⟨u, hu, -, hx'⟩ <;> rw [hx'] at hx
  · exact raiseLd_takesCode hx
  · cases hx
    obtain ⟨-, -, hm, -, hmax⟩ := LdUnit.insert_same hu
    have hin : u.input = s.ld.input := by rw [LdUnit.insert_frame hu]; rfl
    exact ⟨_, .of_running ha, hm, hin, hmax⟩

theorem knownCode_takesCode {c : Code} (ha : s.active = some .ld) (hx : knownCode c s = .next t) : TakesCode s t := by
  unfold knownCode at hx
  split at hx
  · cases hx
  · exact insertAndOutput_takesCode ha hx

theorem exec_code_takesCode {i : Instr} {m next : Nat} {prev : Option Code} (hc : admits (.code m next prev) i = true)
    (hx : exec i s = .next t) : TakesCode s t := by
  cases i with
  | codeClear c =>
    obtain ⟨ha, -, ⟨⟩⟩ := inCodeContext_next hx
    exact ⟨_, .of_running ha, rfl, rfl, rfl⟩
  | codeEoi c =>
    obtain ⟨-, -, ⟨⟩⟩ := inCodeContext_next hx
    exact ⟨_, .inr ⟨_, rfl⟩, rfl, rfl, rfl⟩
  | codeRootFirst c =>
    obtain ⟨ha, -, hx⟩ := inCodeContext_next hx
    rcases outputString_cases [c.setWidth 8] c s.ld.advance s with ⟨-, hx'⟩ | ⟨-, hx'⟩ <;> rw [hx'] at hx
    · cases hx
      exact ⟨_, .of_running ha, rfl, rfl, rfl⟩
    · exact raiseLd_takesCode hx
  | codeRoot c | codeDefined c =>
    obtain ⟨ha, -, hx⟩ := inCodeContext_next hx
    exact knownCode_takesCode ha hx
  | codeKwkwk c =>
    obtain ⟨ha, -, hx⟩ := inCodeContext_next hx
    split at hx
    · cases hx
    · exact insertAndOutput_takesCode ha hx
  | codeUndefined c =>
    obtain ⟨-, -, hx⟩ := inCodeContext_next hx
    exact raiseLd_takesCode hx
  | _ => cases hc

/-! ### What every instruction leaves unchanged -/

/-- The parameters, the HOST's list and the streams are as they were, and at most one result came. -/
def KeepsStreams (s t : State) : Prop :=
  t.params = s.params ∧ t.host = s.host ∧ t.src = s.src ∧ t.sink = s.sink ∧ t.sinkAnswers = s.sinkAnswers ∧
    (t.results = s.results ∨ ∃ r, t.results = s.results ++ [r])

theorem finish_keepsStreams (r : Result) : KeepsStreams s (s.finish r) :=
  ⟨rfl, rfl, rfl, rfl, rfl, .inr ⟨r, rfl⟩⟩

theorem RunsOrEnds.keepsStreams {v : UnitId} (h : RunsOrEnds v s t) : KeepsStreams s t := by
  rcases h with rfl | ⟨r, rfl⟩
  · exact ⟨rfl, rfl, rfl, rfl, rfl, .inl rfl⟩
  · exact finish_keepsStreams r

/-- An instruction that gives a next state was given in a context that admits it: a command while no unit runs, a block
form while BP runs, a code class while LD runs. -/
theorem exec_next_admits {i : Instr} (hx : exec i s = .next t) :
    admits .command i = true ∨ admits (.block s.bp.phase) i = true ∨ admits s.ld.context i = true := by
  cases i with
  | reset | cfgWrite | cfgRead | statusRead | bpPull | bfPush | ldRun | leRun => exact .inl rfl
  | blockHeader | blockScreenDesc | blockGlobalTable | blockLocalTable | blockGraphicControl | blockComment
  | blockAppExt | blockPlainText | blockUnknownExt | blockImageDesc | blockImageData | blockTrailer
  | blockInvalidIntroducer => exact .inr (.inl (inBlockContext_next hx).2.1)
  | codeClear | codeEoi | codeRootFirst | codeRoot | codeDefined | codeKwkwk | codeUndefined =>
    exact .inr (.inr (inCodeContext_next hx).2.1)

theorem exec_command_keepsStreams {i : Instr} (hc : admits .command i = true) (hx : exec i s = .next t) :
    KeepsStreams s t := by
  cases i with
  | reset u all =>
    obtain ⟨-, ⟨⟩⟩ := whenIdle_next hx
    split
    · exact finish_keepsStreams (s := resetAll s) .ok
    · cases u <;> exact finish_keepsStreams (s := resetUnit _ s) .ok
  | cfgWrite v =>
    obtain ⟨-, ⟨⟩⟩ := whenIdle_next hx
    exact finish_keepsStreams (s := s.withMaxPixels v) .ok
  | cfgRead | statusRead u =>
    obtain ⟨-, ⟨⟩⟩ := whenIdle_next hx
    exact finish_keepsStreams _
  | bpPull =>
    obtain ⟨u, h, -⟩ := execBpPull_writes hx
    exact h.keepsStreams
  | bfPush b =>
    obtain ⟨u, h, -⟩ := execBfPush_writes hx
    exact h.keepsStreams
  | ldRun m payload =>
    obtain ⟨u, h⟩ := execLdRun_writes hx
    exact h.keepsStreams
  | leRun m indices =>
    obtain ⟨u, h⟩ := execLeRun_writes hx
    exact h.keepsStreams
  | _ => cases hc

theorem exec_keepsStreams {i : Instr} (hx : exec i s = .next t) : KeepsStreams s t := by
  rcases exec_next_admits hx with hc | hc | hc
  · exact exec_command_keepsStreams hc hx
  · obtain ⟨u, r, rfl, -⟩ := exec_block_endsPull hc hx
    exact finish_keepsStreams (s := s.withBp u) r
  · obtain ⟨u, h, -⟩ := exec_code_takesCode hc hx
    exact h.keepsStreams

/-- Settles O52: by the unit an instruction acts on. -/
theorem instructionsWriteOnlyTheirUnit : Obligations.InstructionsWriteOnlyTheirUnit := by
  unfold Obligations.InstructionsWriteOnlyTheirUnit
  intro i s t hx
  obtain ⟨hparams, hhost, hsrc, hsink, hanswers, hresults⟩ := exec_keepsStreams hx
  refine ⟨hparams, hhost, hsrc, hsink, hanswers, hresults, fun phase hc => ?_, fun m next prev hc => ?_,
    ?_, ?_, ?_, ?_⟩
  · obtain ⟨u, r, rfl, hpos, hbuf⟩ := exec_block_endsPull hc hx
    exact ⟨rfl, rfl, rfl, rfl, hpos, hbuf⟩
  · obtain ⟨u, h, hm, hin, hmax⟩ := exec_code_takesCode hc hx
    rw [h.frame]
    exact ⟨rfl, rfl, rfl, rfl, hm, hin, hmax⟩
  · rintro ⟨m, payload, rfl⟩
    obtain ⟨u, h⟩ := execLdRun_writes hx
    rw [h.frame]
    exact ⟨rfl, rfl, rfl, rfl⟩
  · rintro ⟨m, indices, rfl⟩
    obtain ⟨u, h⟩ := execLeRun_writes hx
    rw [h.frame]
    exact ⟨rfl, rfl, rfl, rfl⟩
  · rintro ⟨b, rfl⟩
    obtain ⟨u, h, hpos⟩ := execBfPush_writes hx
    rw [h.frame]
    exact ⟨rfl, rfl, rfl, rfl, hpos⟩
  · rintro rfl
    obtain ⟨u, h, hpos⟩ := execBpPull_writes hx
    rw [h.frame]
    exact ⟨rfl, rfl, rfl, rfl, hpos⟩

/-! ### Steps while a unit runs (20_memory.md R51, R52, R60) -/

/-- BP's micro-step takes at most one answer of SRC and writes BP. -/
theorem step_bp_moves (ha : s.active = some .bp) (hx : step s = .next t) :
    ∃ answers u, (answers = s.src ∨ ∃ a, s.src = a :: answers) ∧
      RunsOrEnds .bp ((s.withSrc answers).withBp u) t := by
  rcases read1_cases s with ⟨b, rest, hs, -⟩ | ⟨-, hr⟩ | ⟨rest, hs, hr⟩ | ⟨e, rest, hs, hr⟩
  · refine ⟨rest, ?_⟩
    cases hf : bufferFull s with
    | true =>
      rw [step_bp_full ha hf hs] at hx
      cases hx
      exact ⟨_, .inr ⟨_, hs⟩, .inr ⟨_, rfl⟩⟩
    | false =>
      rw [step_bp_byte ha hf hs] at hx
      split at hx
      · cases hx
        exact ⟨_, .inr ⟨_, hs⟩, .of_running ha⟩
      · obtain ⟨u, r, rfl, -⟩ := exec_block_endsPull (decodeBlock_complete ‹_›).2 hx
        exact ⟨u, .inr ⟨_, hs⟩, .inr ⟨r, rfl⟩⟩
      · cases hx
  · rw [step_bp_error ha hr] at hx
    cases hx
    exact ⟨s.src, _, .inl rfl, .inr ⟨_, rfl⟩⟩
  all_goals
    rw [step_bp_error ha hr] at hx
    cases hx
    exact ⟨rest, _, .inr ⟨_, hs⟩, .inr ⟨_, rfl⟩⟩

/-- BF's micro-step appends at most one byte to SINK, takes at most one answer of it and writes BF. -/
theorem step_bf_moves (ha : s.active = some .bf) (hx : step s = .next t) :
    ∃ bytes answers u, (bytes = s.sink ∨ ∃ b, bytes = s.sink ++ [b]) ∧
      (answers = s.sinkAnswers ∨ ∃ a, s.sinkAnswers = a :: answers) ∧
      RunsOrEnds .bf ((s.withSink bytes answers).withBf u) t := by
  rw [step_bf ha] at hx
  unfold bfMicroStep at hx
  split at hx
  · cases hx
    exact ⟨s.sink, s.sinkAnswers, s.bf, .inl rfl, .inl rfl, .inr ⟨_, rfl⟩⟩
  · rename_i b rest _
    rcases write1_cases s b with ⟨answers, hs, hw⟩ | ⟨e, kept, answers, hs, hw⟩ <;> simp only [hw] at hx
    · have hanswers : answers = s.sinkAnswers ∨ ∃ a, s.sinkAnswers = a :: answers :=
        hs.imp (fun h => h.2.trans h.1.symm) fun h => ⟨_, h⟩
      refine ⟨s.sink ++ [b], answers, ?_⟩
      cases rest with
      | nil =>
        cases hx
        exact ⟨_, .inr ⟨b, rfl⟩, hanswers, .inr ⟨_, rfl⟩⟩
      | cons b' rest' =>
        cases hx
        exact ⟨_, .inr ⟨b, rfl⟩, hanswers, .of_running ha⟩
    · cases hx
      refine ⟨if kept then s.sink ++ [b] else s.sink, answers, _, ?_, .inr ⟨_, hs⟩, .inr ⟨_, rfl⟩⟩
      cases kept
      · exact .inl rfl
      · exact .inr ⟨b, rfl⟩

theorem step_ld_writes (ha : s.active = some .ld) (hx : step s = .next t) : WritesLd s t := by
  rcases Nat.lt_or_ge (8 * s.ld.input.length) (s.ld.bitpos + s.ld.width.toNat) with hb | hb
  · rw [step_ld_short ha hb] at hx
    cases hx
    exact ⟨_, .inr ⟨_, rfl⟩⟩
  · rw [step_ld_code ha hb] at hx
    obtain ⟨u, h, -⟩ := exec_code_takesCode (admits_decodeCode _ _ _ _) hx
    exact ⟨u, h⟩

theorem leReturn_writes {u : LeUnit} (hx : leReturn u s = .next t) : WritesLe s t := by
  cases hx
  exact ⟨_, .inr ⟨_, rfl⟩⟩

theorem step_le_writes (ha : s.active = some .le) (hx : step s = .next t) : WritesLe s t := by
  rw [step_le ha] at hx
  unfold leMicroStep at hx
  split at hx
  · split at hx
    · exact leReturn_writes hx
    · exact leReturn_writes hx
  · split at hx
    · cases hx
      exact ⟨_, .inr ⟨_, rfl⟩⟩
    · split at hx
      · cases hx
        exact ⟨_, .of_running ha⟩
      · split at hx <;> cases hx <;> exact ⟨_, .of_running ha⟩

/-- Settles O53: by the unit that runs. -/
theorem streamsMoveOneByteAStep : Obligations.StreamsMoveOneByteAStep := by
  unfold Obligations.StreamsMoveOneByteAStep
  intro s t hrun hx
  obtain ⟨v, ha⟩ := Option.ne_none_iff_exists'.1 hrun
  rw [ha]
  cases v with
  | bp =>
    obtain ⟨answers, u, hsrc, h⟩ := step_bp_moves ha hx
    obtain ⟨hparams, hhost, rfl, hsink, hanswers, -⟩ := h.keepsStreams
    exact ⟨hparams, hhost, h.maxPixels, hsrc.imp_right fun hcons => ⟨rfl, hcons⟩, .inl hsink,
      .inl hanswers, h.outcome⟩
  | bf =>
    obtain ⟨bytes, answers, u, hbytes, hanswers, h⟩ := step_bf_moves ha hx
    obtain ⟨hparams, hhost, hsrc, rfl, rfl, -⟩ := h.keepsStreams
    exact ⟨hparams, hhost, h.maxPixels, .inl hsrc, hbytes.imp_right fun happend => ⟨rfl, happend⟩,
      hanswers.imp_right fun hcons => ⟨rfl, hcons⟩, h.outcome⟩
  | ld =>
    obtain ⟨u, h⟩ := step_ld_writes ha hx
    obtain ⟨hparams, hhost, hsrc, hsink, hanswers, -⟩ := h.keepsStreams
    exact ⟨hparams, hhost, h.maxPixels, .inl hsrc, .inl hsink, .inl hanswers, h.outcome⟩
  | le =>
    obtain ⟨u, h⟩ := step_le_writes ha hx
    obtain ⟨hparams, hhost, hsrc, hsink, hanswers, -⟩ := h.keepsStreams
    exact ⟨hparams, hhost, h.maxPixels, .inl hsrc, .inl hsink, .inl hanswers, h.outcome⟩

end Sys2Proof.Machine

/-! Encodings (30_encoding.md): decoding and encoding of the block forms and the command words, the code classes, and the
grammar of the blocks BP returns. -/

namespace Sys2Proof

/-! ### The decoder reads back each form's bytes, whatever follows (R65 to R84) -/

theorem takeBytes_append_of_length {n : Nat} {d : List Byte} (h : d.length = n) (r : List Byte) :
    takeBytes n (d ++ r) = some (d, r) := h ▸ takeBytes_append d r

theorem decodeHeader_append {raw : List Byte} (h : raw.length = 6) (rest : List Byte) :
    decodeHeader (raw ++ rest) = .complete (.blockHeader raw) rest := by
  simp only [decodeHeader, takeBytes_append_of_length h]

theorem decodeScreenDesc_screenDescBytes (r : ScreenDesc) (rest : List Byte) :
    decodeScreenDesc (screenDescBytes r ++ rest) = .complete (.blockScreenDesc r) rest := by
  simp [screenDescBytes, bytesLE16, decodeScreenDesc, le16_bytesLE16]

theorem decodeTable_tableBytes (form : List Rgb → Instr) {k : BitVec 3} {es : List Rgb}
    (h : es.length = tableEntries k) (rest : List Byte) :
    decodeTable form k (tableBytes es ++ rest) = .complete (form es) rest := by
  have hl : (tableBytes es).length = 3 * tableEntries k := by rw [tableBytes_length, h]
  simp only [decodeTable, takeBytes_append_of_length hl, triples_tableBytes]

theorem decodeSubsForm_subsBytes (form : List (List Byte) → Instr) {subs : List (List Byte)} (h : subsWf subs = true)
    (rest : List Byte) : decodeSubsForm form (subsBytes subs ++ rest) = .complete (form subs) rest := by
  simp only [decodeSubsForm, readSubs_subsBytes rest h]

theorem decodeBody_imageDescBytes (r : ImageDesc) (rest : List Byte) :
    decodeBody (imageDescBytes r ++ rest) = .complete (.blockImageDesc r) rest := by
  simp [imageDescBytes, bytesLE16, decodeBody, decodeImageDesc, le16_bytesLE16]

theorem decodeBody_graphicControlBytes (r : GraphicControl) (z : Byte) (rest : List Byte) :
    decodeBody (graphicControlBytes r z ++ rest) = .complete (.blockGraphicControl (.fields r z)) rest := by
  simp [graphicControlBytes, bytesLE16, decodeBody, decodeExtension, decodeGraphicControl, le16_bytesLE16]

theorem decodeBody_appExtBytes {r : AppExt} (h : r.wf = true) (rest : List Byte) :
    decodeBody (appExtBytes r ++ rest) = .complete (.blockAppExt (.fields r)) rest := by
  simp only [AppExt.wf, Bool.and_eq_true, beq_iff_eq] at h
  obtain ⟨⟨hid, hauth⟩, hsubs⟩ := h
  simp [appExtBytes, decodeBody, decodeExtension, decodeAppExt, takeBytes_append_of_length hid,
    takeBytes_append_of_length hauth, readSubs_subsBytes rest hsubs]

/-- A label that is not known selects the form of an unknown extension (R67). -/
theorem decodeExtension_unknown {l : Byte} (h : knownLabel l = false) (rest : List Byte) :
    decodeExtension (l :: rest) = .complete (.blockUnknownExt l) rest := by
  simp_all [knownLabel, decodeExtension]

/-- A byte that is no introducer is a form of its own (R67). -/
theorem decodeBody_invalidIntroducer {t : Byte} (h : knownIntroducer t = false) (rest : List Byte) :
    decodeBody (t :: rest) = .complete (.blockInvalidIntroducer t) rest := by
  simp_all [knownIntroducer, decodeBody]

/-- After the Trailer and after a failure no form is read (40_block_parser.md R97, R98). -/
theorem phase_of_admits {phase : BpPhase} {i : Instr} (hc : admits (.block phase) i = true) :
    phase ≠ .done ∧ phase ≠ .failed := by
  constructor <;> rintro rfl <;> cases i <;> cases hc

/-- Phase `ExpectBody` reads back each of its forms. -/
theorem decodeBody_encode {i : Instr} {bs : List Byte} (hw : i.wf = true)
    (hc : admits (.block .expectBody) i = true) (he : encode i = .bytes bs) (rest : List Byte) :
    decodeBody (bs ++ rest) = .complete i rest := by
  cases i with
  | blockGraphicControl op =>
    cases op with
    | wrongSize s =>
      cases he
      have hs : s ≠ 4#8 := by simpa [Instr.wf] using hw
      change decodeGraphicControl (s :: rest) = _
      exact if_neg hs
    | fields r z =>
      cases he
      exact decodeBody_graphicControlBytes r z rest
  | blockAppExt op =>
    cases op with
    | wrongSize s =>
      cases he
      have hs : s ≠ 11#8 := by simpa [Instr.wf] using hw
      change decodeAppExt (s :: rest) = _
      exact if_neg hs
    | fields r =>
      cases he
      exact decodeBody_appExtBytes hw rest
  | blockComment subs | blockPlainText subs =>
    cases he
    exact decodeSubsForm_subsBytes _ hw rest
  | blockUnknownExt l =>
    cases he
    exact decodeExtension_unknown (by simpa [Instr.wf] using hw) rest
  | blockImageDesc r =>
    cases he
    exact decodeBody_imageDescBytes r rest
  | blockTrailer =>
    cases he
    rfl
  | blockInvalidIntroducer t =>
    cases he
    exact decodeBody_invalidIntroducer (by simpa [Instr.wf] using hw) rest
  | _ => cases hc

/-- Settles O2: by the phase, which leaves one form, but for `ExpectBody`. -/
theorem blockFormsDecodeWhatTheyEncode : Obligations.BlockFormsDecodeWhatTheyEncode := by
  unfold Obligations.BlockFormsDecodeWhatTheyEncode
  intro phase i bs rest hw hc he
  cases phase with
  | expectHeader =>
    cases i with
    | blockHeader raw =>
      cases he
      exact decodeHeader_append (by simpa [Instr.wf] using hw) rest
    | _ => cases hc
  | expectScreenDesc =>
    cases i with
    | blockScreenDesc r =>
      cases he
      exact decodeScreenDesc_screenDescBytes r rest
    | _ => cases hc
  | expectGlobalTable k =>
    cases i with
    | blockGlobalTable es =>
      cases he
      exact decodeTable_tableBytes _ (by simpa [admits, Context.inPhase, announcesGlobal] using hc) rest
    | _ => cases hc
  | expectLocalTable k =>
    cases i with
    | blockLocalTable es =>
      cases he
      exact decodeTable_tableBytes _ (by simpa [admits, Context.inPhase, announcesLocal] using hc) rest
    | _ => cases hc
  | expectBody => exact decodeBody_encode hw hc he rest
  | expectImageData =>
    cases i with
    | blockImageData m subs =>
      cases he
      exact decodeSubsForm_subsBytes _ hw rest
    | _ => cases hc
  | done => exact absurd rfl (phase_of_admits hc).1
  | failed => exact absurd rfl (phase_of_admits hc).2

/-! ### What is decoded encodes to the bytes read (R65 to R84) -/

/-- The bytes are the encoding of a form, followed by the rest. -/
def BeginsWith (bs : List Byte) (i : Instr) (rest : List Byte) : Prop :=
  ∃ used, encode i = .bytes used ∧ bs = used ++ rest

section complete
variable {bs rest : List Byte} {i : Instr}

theorem decodeHeader_complete (h : decodeHeader bs = .complete i rest) : BeginsWith bs i rest := by
  unfold decodeHeader at h
  split at h
  · cases h
  · cases h
    exact ⟨_, rfl, (takeBytes_some ‹_›).1⟩

theorem decodeScreenDesc_complete (h : decodeScreenDesc bs = .complete i rest) : BeginsWith bs i rest := by
  unfold decodeScreenDesc at h
  split at h
  · cases h
    exact ⟨_, rfl, by simp [screenDescBytes, bytesLE16_le16]⟩
  · cases h

theorem decodeTable_complete {form : List Rgb → Instr} {k : BitVec 3} (h : decodeTable form k bs = .complete i rest) :
    ∃ es, i = form es ∧ bs = tableBytes es ++ rest := by
  unfold decodeTable at h
  split at h
  · cases h
  · cases h
    obtain ⟨rfl, hl⟩ := takeBytes_some ‹_›
    exact ⟨_, rfl, by rw [(tableBytes_triples hl).1]⟩

theorem decodeSubsForm_complete {form : List (List Byte) → Instr} (h : decodeSubsForm form bs = .complete i rest) :
    ∃ subs, i = form subs ∧ bs = subsBytes subs ++ rest := by
  unfold decodeSubsForm at h
  split at h
  · cases h
  · cases h
    exact ⟨_, rfl, (readSubs_some ‹_›).1⟩

theorem decodeImageData_complete (h : decodeImageData bs = .complete i rest) : BeginsWith bs i rest := by
  unfold decodeImageData at h
  split at h
  · cases h
  · obtain ⟨subs, rfl, rfl⟩ := decodeSubsForm_complete h
    exact ⟨_, rfl, rfl⟩

theorem decodeImageDesc_complete (h : decodeImageDesc bs = .complete i rest) : BeginsWith (0x2C#8 :: bs) i rest := by
  unfold decodeImageDesc at h
  split at h
  · cases h
    exact ⟨_, rfl, by simp [imageDescBytes, bytesLE16_le16]⟩
  · cases h

theorem decodeGraphicControl_complete (h : decodeGraphicControl bs = .complete i rest) :
    BeginsWith (0x21#8 :: 0xF9#8 :: bs) i rest := by
  unfold decodeGraphicControl at h
  split at h
  · cases h
  · split_ifs at h
    · subst ‹_ = 4#8›
      split at h
      · cases h
        exact ⟨_, rfl, by simp [graphicControlBytes, bytesLE16_le16]⟩
      · cases h
    · cases h
      exact ⟨_, rfl, rfl⟩

theorem decodeAppExt_complete (h : decodeAppExt bs = .complete i rest) :
    BeginsWith (0x21#8 :: 0xFF#8 :: bs) i rest := by
  unfold decodeAppExt at h
  split at h
  · cases h
  · split_ifs at h
    · subst ‹_ = 11#8›
      split at h
      · cases h
      · rename_i hid
        split at h
        · cases h
        · rename_i hauth
          split at h
          · cases h
          · rename_i hsubs
            cases h
            obtain ⟨rfl, -⟩ := takeBytes_some hid
            obtain ⟨rfl, -⟩ := takeBytes_some hauth
            obtain ⟨rfl, -⟩ := readSubs_some hsubs
            exact ⟨_, rfl, by simp [appExtBytes]⟩
    · cases h
      exact ⟨_, rfl, rfl⟩

theorem decodeExtension_complete (h : decodeExtension bs = .complete i rest) : BeginsWith (0x21#8 :: bs) i rest := by
  unfold decodeExtension at h
  split at h
  · cases h
  · split_ifs at h
    · subst ‹_ = 0xF9#8›
      exact decodeGraphicControl_complete h
    · subst ‹_ = 0xFE#8›
      obtain ⟨subs, rfl, rfl⟩ := decodeSubsForm_complete h
      exact ⟨_, rfl, rfl⟩
    · subst ‹_ = 0xFF#8›
      exact decodeAppExt_complete h
    · subst ‹_ = 0x01#8›
      obtain ⟨subs, rfl, rfl⟩ := decodeSubsForm_complete h
      exact ⟨_, rfl, rfl⟩
    · cases h
      exact ⟨_, rfl, rfl⟩

theorem decodeBody_complete (h : decodeBody bs = .complete i rest) : BeginsWith bs i rest := by
  unfold decodeBody at h
  split at h
  · cases h
  · split_ifs at h
    · subst ‹_ = 0x21#8›
      exact decodeExtension_complete h
    · subst ‹_ = 0x2C#8›
      exact decodeImageDesc_complete h
    · subst ‹_ = 0x3B#8›
      cases h
      exact ⟨_, rfl, rfl⟩
    · cases h
      exact ⟨_, rfl, rfl⟩

theorem decodeBlock_beginsWith {phase : BpPhase} (h : decodeBlock phase bs = .complete i rest) :
    BeginsWith bs i rest := by
  cases phase with
  | expectHeader => exact decodeHeader_complete h
  | expectScreenDesc => exact decodeScreenDesc_complete h
  | expectGlobalTable k | expectLocalTable k =>
    obtain ⟨es, rfl, rfl⟩ := decodeTable_complete h
    exact ⟨_, rfl, rfl⟩
  | expectBody => exact decodeBody_complete h
  | expectImageData => exact decodeImageData_complete h
  | done | failed => cases h

end complete

/-- Settles O3: the form is admitted, and the bytes read are its encoding. -/
theorem blockDecodingLosesNoByte : Obligations.BlockDecodingLosesNoByte := by
  unfold Obligations.BlockDecodingLosesNoByte
  intro phase i bs rest h
  obtain ⟨hw, hc⟩ := Machine.decodeBlock_complete h
  exact ⟨hw, hc, decodeBlock_beginsWith h⟩

/-- A phase that admits a form expects a block, whatever bytes come. -/
theorem decodeBlock_ne_noBlock_of_admits {phase : BpPhase} (hc : admits (.block phase) i = true) (bs : List Byte) :
    decodeBlock phase bs ≠ .noBlock :=
  have ⟨hd, hf⟩ := phase_of_admits hc
  Machine.decodeBlock_ne_noBlock_of_incomplete (decodeBlock_nil hd hf) bs

/-- Settles O4: a form completed early would be completed again, with bytes left over, by all of the bytes. -/
theorem blockFormsEndAtTheirLastByte : Obligations.BlockFormsEndAtTheirLastByte := by
  unfold Obligations.BlockFormsEndAtTheirLastByte
  intro phase i bs hw hc he n hn
  cases hd : decodeBlock phase (bs.take n) with
  | incomplete => rfl
  | noBlock => exact absurd hd (decodeBlock_ne_noBlock_of_admits hc _)
  | complete j rest =>
    obtain ⟨hjw, hjc⟩ := Machine.decodeBlock_complete hd
    obtain ⟨used, hje, hused⟩ := decodeBlock_beginsWith hd
    have hbs : bs ++ [] = used ++ (rest ++ bs.drop n) := by
      rw [List.append_nil, ← List.append_assoc, ← hused, List.take_append_drop]
    have hi := blockFormsDecodeWhatTheyEncode phase i bs [] hw hc he
    rw [hbs, blockFormsDecodeWhatTheyEncode phase j used _ hjw hjc hje] at hi
    have hdrop : bs.drop n = [] := (List.append_eq_nil_iff.1 (BlockDecode.complete.inj hi).2).2
    exact absurd (List.drop_eq_nil_iff.1 hdrop) (Nat.not_le.2 hn)

/-! ### Command words and their fields (R90) -/

section word
variable (op m : Byte) (unit : BitVec 2) (all : BitVec 1)

@[simp] theorem opField_commandWord : opField (commandWord op m unit all) = op :=
  BitVec.extractLsb'_append_eq_right

@[simp] theorem mField_commandWord : mField (commandWord op m unit all) = m :=
  (BitVec.extractLsb'_append_eq_of_le (by decide)).trans BitVec.extractLsb'_append_eq_right

@[simp] theorem unitField_commandWord : unitField (commandWord op m unit all) = unit := by
  refine (BitVec.extractLsb'_append_eq_of_le (by decide)).trans ?_
  refine (BitVec.extractLsb'_append_eq_of_le (by decide)).trans ?_
  exact BitVec.extractLsb'_append_eq_right

@[simp] theorem allField_commandWord : allField (commandWord op m unit all) = all := by
  refine (BitVec.extractLsb'_append_eq_of_le (by decide)).trans ?_
  refine (BitVec.extractLsb'_append_eq_of_le (by decide)).trans ?_
  refine (BitVec.extractLsb'_append_eq_of_le (by decide)).trans ?_
  exact BitVec.extractLsb'_append_eq_right

@[simp] theorem reservedField_commandWord : reservedField (commandWord op m unit all) = 0#13 := by
  refine (BitVec.extractLsb'_append_eq_of_le (by decide)).trans ?_
  refine (BitVec.extractLsb'_append_eq_of_le (by decide)).trans ?_
  refine (BitVec.extractLsb'_append_eq_of_le (by decide)).trans ?_
  exact BitVec.extractLsb'_append_eq_left

end word

/-- The five fields are the whole word. -/
theorem word_eq_fields (w : U32) : w = reservedField w ++ allField w ++ unitField w ++ mField w ++ opField w := by
  have h18 : reservedField w ++ allField w = w.extractLsb' 18 14 :=
    BitVec.extractLsb'_append_extractLsb'_eq_extractLsb' rfl
  have h16 : w.extractLsb' 18 14 ++ unitField w = w.extractLsb' 16 16 :=
    BitVec.extractLsb'_append_extractLsb'_eq_extractLsb' rfl
  have h8 : w.extractLsb' 16 16 ++ mField w = w.extractLsb' 8 24 :=
    BitVec.extractLsb'_append_extractLsb'_eq_extractLsb' rfl
  have h0 : w.extractLsb' 8 24 ++ opField w = w.extractLsb' 0 32 :=
    BitVec.extractLsb'_append_extractLsb'_eq_extractLsb' rfl
  rw [h18, h16, h8, h0, BitVec.extractLsb'_eq_self]

theorem word_ext_iff {v w : U32} : v = w ↔ opField v = opField w ∧ mField v = mField w ∧ unitField v = unitField w ∧
    allField v = allField w ∧ reservedField v = reservedField w := by
  refine ⟨by rintro rfl; simp, fun ⟨ho, hm, hu, ha, hr⟩ => ?_⟩
  rw [word_eq_fields v, word_eq_fields w, ho, hm, hu, ha, hr]

/-- A row of the opcode table matches a word field by field. -/
theorem word_and_eq_iff {w mask row : U32} : w &&& mask = row ↔
    opField w &&& opField mask = opField row ∧ mField w &&& mField mask = mField row ∧
    unitField w &&& unitField mask = unitField row ∧ allField w &&& allField mask = allField row ∧
    reservedField w &&& reservedField mask = reservedField row := by
  simp only [word_ext_iff, opField, mField, unitField, allField, reservedField, BitVec.extractLsb'_and]

/-! ### The rows of the opcode table (R91) -/

/-- The OP value of an opcode (R91). -/
def Opcode.bits : Opcode → Byte
  | .reset => 0x01#8
  | .cfgWrite => 0x02#8
  | .cfgRead => 0x03#8
  | .statusRead => 0x04#8
  | .bpPull => 0x10#8
  | .bfPush => 0x20#8
  | .ldRun => 0x30#8
  | .leRun => 0x40#8

/-- The mask column of the opcode table: every bit but those of the fields the opcode uses. -/
def Opcode.mask : Opcode → U32
  | .reset => 0xFFF8FFFF#32
  | .statusRead => 0xFFFCFFFF#32
  | .ldRun => 0xFFFF00FF#32
  | .leRun => 0xFFFF00FF#32
  | _ => 0xFFFFFFFF#32

/-- The match column of the opcode table. -/
def Opcode.row (o : Opcode) : U32 := commandWord o.bits 0#8 0#2 0#1

/-- The opcode of a command. -/
def Instr.opcode : Instr → Option Opcode
  | .reset _ _ => some .reset
  | .cfgWrite _ => some .cfgWrite
  | .cfgRead => some .cfgRead
  | .statusRead _ => some .statusRead
  | .bpPull => some .bpPull
  | .bfPush _ => some .bfPush
  | .ldRun _ _ => some .ldRun
  | .leRun _ _ => some .leRun
  | _ => none

theorem opcodeOf_eq_some_iff {op : Byte} {o : Opcode} : opcodeOf op = some o ↔ op = o.bits := by
  constructor
  · unfold opcodeOf
    split_ifs <;> rintro ⟨⟩ <;> assumption
  · rintro rfl
    cases o <;> rfl

theorem opcodeOf_eq_none_iff {op : Byte} :
    opcodeOf op = none ↔ op ∉ [0x01#8, 0x02#8, 0x03#8, 0x04#8, 0x10#8, 0x20#8, 0x30#8, 0x40#8] := by
  unfold opcodeOf
  split_ifs <;> simp_all

theorem fieldNotZero_eq_false_iff {o : Opcode} {w : U32} : fieldNotZero o w = false ↔
    reservedField w = 0#13 ∧ (o.usesM = false → mField w = 0#8) ∧ (o.usesUnit = false → unitField w = 0#2) ∧
      (o.usesAll = false → allField w = 0#1) := by
  simp [fieldNotZero, and_assoc]

section mask
variable (o : Opcode)

theorem opField_mask : opField o.mask = BitVec.allOnes 8 := by cases o <;> rfl
theorem mField_mask : mField o.mask = if o.usesM then 0#8 else BitVec.allOnes 8 := by cases o <;> rfl
theorem unitField_mask : unitField o.mask = if o.usesUnit then 0#2 else BitVec.allOnes 2 := by cases o <;> rfl
theorem allField_mask : allField o.mask = if o.usesAll then 0#1 else BitVec.allOnes 1 := by cases o <;> rfl
theorem reservedField_mask : reservedField o.mask = BitVec.allOnes 13 := by cases o <;> rfl

end mask

/-- A field under its mask is 0 exactly when it is 0 or used. -/
theorem and_fieldMask_eq_zero_iff {n : Nat} (used : Bool) (x : BitVec n) :
    x &&& (if used then 0#n else BitVec.allOnes n) = 0#n ↔ (used = false → x = 0#n) := by
  cases used <;> simp

/-- A word is in an opcode's row exactly when it has the OP value and zeros in the fields the opcode does not use. -/
theorem and_mask_eq_row_iff {o : Opcode} {w : U32} :
    w &&& o.mask = o.row ↔ opField w = o.bits ∧ fieldNotZero o w = false := by
  simp only [word_and_eq_iff, Opcode.row, opField_mask, mField_mask, unitField_mask, allField_mask, reservedField_mask,
    opField_commandWord, mField_commandWord, unitField_commandWord, allField_commandWord, reservedField_commandWord,
    and_fieldMask_eq_zero_iff, BitVec.and_allOnes, fieldNotZero_eq_false_iff]
  tauto

/-! ### The command decoder (R90 to R92) -/

@[simp] theorem withNone_eq_command {i j : Instr} {d : Operand} : withNone i d = .command j ↔ d = .none ∧ i = j := by
  cases d <;> simp [withNone]

@[simp] theorem withValue_eq_command {f : U32 → Instr} {j : Instr} {d : Operand} :
    withValue f d = .command j ↔ ∃ v, d = .value v ∧ f v = j := by
  cases d <;> simp [withValue]

@[simp] theorem withRecord_eq_command {f : Block → Instr} {j : Instr} {d : Operand} :
    withRecord f d = .command j ↔ ∃ b, d = .record b ∧ f b = j := by
  cases d <;> simp [withRecord]

@[simp] theorem withBytes_eq_command {f : List Byte → Instr} {j : Instr} {d : Operand} :
    withBytes f d = .command j ↔ ∃ p, d = .bytes p ∧ f p = j := by
  cases d <;> simp [withBytes]

@[simp] theorem withIndices_eq_command {f : List Byte → Instr} {j : Instr} {d : Operand} :
    withIndices f d = .command j ↔ ∃ x, d = .indices x ∧ f x = j := by
  cases d <;> simp [withIndices]

theorem opcode_of_attachOperand {o : Opcode} {w : U32} {d : Operand} {i : Instr}
    (h : attachOperand o w d = .command i) : i.opcode = some o := by
  cases o with
  | reset | cfgRead | statusRead | bpPull =>
    obtain ⟨-, rfl⟩ := withNone_eq_command.1 h
    rfl
  | cfgWrite =>
    obtain ⟨_, -, rfl⟩ := withValue_eq_command.1 h
    rfl
  | bfPush =>
    obtain ⟨_, -, rfl⟩ := withRecord_eq_command.1 h
    rfl
  | ldRun =>
    obtain ⟨_, -, rfl⟩ := withBytes_eq_command.1 h
    rfl
  | leRun =>
    obtain ⟨_, -, rfl⟩ := withIndices_eq_command.1 h
    rfl

/-- An operand of another kind is the one thing attaching an operand can refuse. -/
theorem attachOperand_eq_reject {o : Opcode} {w : U32} {d : Operand} {r : Reject}
    (h : attachOperand o w d = .reject r) : r = .wrongOperand := by
  cases o <;> cases d <;> cases h <;> rfl

/-- ALL = 1 with a UNIT other than 0 (R92). -/
def allWithUnit (w : U32) : Bool := allField w == 1#1 && unitField w != 0#2

theorem decodeCommand_of_unknown {q : Request} (h : opcodeOf (opField q.word) = none) :
    decodeCommand q = .reject .unknownOpcode := by
  simp only [decodeCommand, h]

theorem decodeCommand_of_opcode {q : Request} {o : Opcode} (h : opField q.word = o.bits) : decodeCommand q =
    if fieldNotZero o q.word then .reject .fieldNotZero
    else if allWithUnit q.word then .reject .allWithUnit
    else attachOperand o q.word q.operand := by
  unfold decodeCommand
  rw [opcodeOf_eq_some_iff.2 h]
  rfl

/-- A request is a command exactly when its word is in the command's row, ALL comes with no UNIT, and the operand makes
the command. -/
theorem decodeCommand_eq_command_iff {q : Request} {i : Instr} {o : Opcode} (hi : i.opcode = some o) :
    decodeCommand q = .command i ↔
      q.word &&& o.mask = o.row ∧ allWithUnit q.word = false ∧ attachOperand o q.word q.operand = .command i := by
  rw [and_mask_eq_row_iff]
  constructor
  · intro h
    cases ho : opcodeOf (opField q.word) with
    | none => simp [decodeCommand_of_unknown ho] at h
    | some o' =>
      have hop := opcodeOf_eq_some_iff.1 ho
      rw [decodeCommand_of_opcode hop] at h
      split_ifs at h with hz hu
      obtain rfl : o = o' := Option.some.inj (hi.symm.trans (opcode_of_attachOperand h))
      exact ⟨⟨hop, by simpa using hz⟩, by simpa using hu, h⟩
  · rintro ⟨⟨hop, hz⟩, hu, h⟩
    simp [decodeCommand_of_opcode hop, hz, hu, h]

@[simp] theorem unitOfBits_unitBits (u : UnitId) : unitOfBits (unitBits u) = u := by cases u <;> rfl

@[simp] theorem unitBits_unitOfBits (u : BitVec 2) : unitBits (unitOfBits u) = u := by revert u; decide

@[simp] theorem ofBool_beq_one (a : BitVec 1) : BitVec.ofBool (a == 1#1) = a := by revert a; decide

@[simp] theorem ofBool_eq_one (a : Bool) : (BitVec.ofBool a == 1#1) = a := by cases a <;> rfl

/-- A command's words are a request (R90). -/
theorem encode_command {i : Instr} (hc : admits .command i = true) : ∃ q, encode i = .request q := by
  cases i with
  | reset | cfgWrite | cfgRead | statusRead | bpPull | bfPush | ldRun | leRun => exact ⟨_, rfl⟩
  | _ => cases hc

/-- The word of a command's request is in the command's row. -/
theorem decodeCommand_encode {i : Instr} {q : Request} (hw : i.wf = true) (hc : admits .command i = true)
    (he : encode i = .request q) : decodeCommand q = .command i := by
  cases i with
  | reset u all =>
    cases he
    refine (decodeCommand_eq_command_iff rfl).2 ⟨and_mask_eq_row_iff.2 ⟨opField_commandWord .., ?_⟩, ?_, ?_⟩
    · simp [fieldNotZero_eq_false_iff, Opcode.usesUnit, Opcode.usesAll]
    · have hu : all = true → u = .bp := by simpa [Instr.wf, imp_iff_not_or] using hw
      simp only [allWithUnit, allField_commandWord, unitField_commandWord, ofBool_eq_one]
      cases all with
      | false => rfl
      | true => rw [hu rfl]; rfl
    · simp [attachOperand]
  | cfgWrite | cfgRead | bpPull | bfPush | statusRead | ldRun | leRun =>
    cases he
    refine (decodeCommand_eq_command_iff rfl).2 ⟨and_mask_eq_row_iff.2 ⟨opField_commandWord .., ?_⟩, ?_, ?_⟩
    · simp [fieldNotZero_eq_false_iff, Opcode.usesM, Opcode.usesUnit]
    · simp [allWithUnit]
    · simp [attachOperand]
  | _ => cases hc

/-- A word in an opcode's row is put together from the fields the opcode uses. -/
theorem eq_commandWord_of_row {o : Opcode} {w : U32} (h : w &&& o.mask = o.row) :
    w = commandWord o.bits (if o.usesM then mField w else 0#8) (if o.usesUnit then unitField w else 0#2)
      (if o.usesAll then allField w else 0#1) := by
  obtain ⟨hop, hz⟩ := and_mask_eq_row_iff.1 h
  obtain ⟨hr, hm, hu, ha⟩ := fieldNotZero_eq_false_iff.1 hz
  refine word_ext_iff.2 ⟨?_, ?_, ?_, ?_, ?_⟩
  · simpa using hop
  · simpa using hm
  · simpa using hu
  · simpa using ha
  · simpa using hr

theorem request_of_row {o : Opcode} {w : U32} (h : w &&& o.mask = o.row) (d : Operand) :
    Words.request ⟨commandWord o.bits (if o.usesM then mField w else 0#8) (if o.usesUnit then unitField w else 0#2)
      (if o.usesAll then allField w else 0#1), d⟩ = .request ⟨w, d⟩ := by
  rw [← eq_commandWord_of_row h]

/-- What is read as a command encodes to the request read. -/
theorem encode_of_decodeCommand {w : U32} {d : Operand} {i : Instr} (h : decodeCommand ⟨w, d⟩ = .command i) :
    encode i = .request ⟨w, d⟩ ∧ i.wf = true := by
  have hc := Machine.decodeCommand_admits h
  cases i with
  | reset u all =>
    obtain ⟨hrow, hau, ha⟩ := (decodeCommand_eq_command_iff rfl).1 h
    obtain ⟨rfl, hi⟩ := withNone_eq_command.1 ha
    cases hi
    refine ⟨?_, ?_⟩
    · simpa [encode, Opcode.bits, Opcode.usesM, Opcode.usesUnit, Opcode.usesAll] using request_of_row hrow .none
    · simp only [allWithUnit, Bool.and_eq_false_iff] at hau
      rcases hau with hau | hau
      · simp [Instr.wf, hau]
      · obtain hau : unitField w = 0#2 := by simpa using hau
        simp [Instr.wf, hau, unitOfBits]
  | statusRead u =>
    obtain ⟨hrow, -, ha⟩ := (decodeCommand_eq_command_iff rfl).1 h
    obtain ⟨rfl, hi⟩ := withNone_eq_command.1 ha
    cases hi
    refine ⟨?_, rfl⟩
    simpa [encode, Opcode.bits, Opcode.usesM, Opcode.usesUnit, Opcode.usesAll] using request_of_row hrow .none
  | cfgRead | bpPull =>
    obtain ⟨hrow, -, ha⟩ := (decodeCommand_eq_command_iff rfl).1 h
    obtain ⟨rfl, -⟩ := withNone_eq_command.1 ha
    exact ⟨request_of_row hrow _, rfl⟩
  | cfgWrite v =>
    obtain ⟨hrow, -, ha⟩ := (decodeCommand_eq_command_iff rfl).1 h
    obtain ⟨_, rfl, ⟨⟩⟩ := withValue_eq_command.1 ha
    exact ⟨request_of_row hrow _, rfl⟩
  | bfPush b =>
    obtain ⟨hrow, -, ha⟩ := (decodeCommand_eq_command_iff rfl).1 h
    obtain ⟨_, rfl, ⟨⟩⟩ := withRecord_eq_command.1 ha
    exact ⟨request_of_row hrow _, rfl⟩
  | ldRun m p =>
    obtain ⟨hrow, -, ha⟩ := (decodeCommand_eq_command_iff rfl).1 h
    obtain ⟨_, rfl, ⟨⟩⟩ := withBytes_eq_command.1 ha
    exact ⟨request_of_row hrow _, rfl⟩
  | leRun m x =>
    obtain ⟨hrow, -, ha⟩ := (decodeCommand_eq_command_iff rfl).1 h
    obtain ⟨_, rfl, ⟨⟩⟩ := withIndices_eq_command.1 ha
    exact ⟨request_of_row hrow _, rfl⟩
  | _ => cases hc

/-- Settles O1: the words are a request, and its word is in the command's row. -/
theorem commandsDecodeAndEncodeAgree : Obligations.CommandsDecodeAndEncodeAgree := by
  unfold Obligations.CommandsDecodeAndEncodeAgree
  constructor
  · intro i hw hc
    obtain ⟨q, he⟩ := encode_command hc
    simp only [he, decode, decodeCommand_encode hw hc he]
  · rintro (⟨w, d⟩ | bs | c) i h
    · simp only [decode] at h
      split at h
      · cases h
        obtain ⟨he, hw⟩ := encode_of_decodeCommand ‹_›
        exact ⟨he, hw, Machine.decodeCommand_admits ‹_›⟩
      · cases h
    all_goals cases h

/-! ### The rows of the commands in the opcode table -/

/-- ALL is not combined with a UNIT in a word of an opcode that does not use ALL. -/
theorem allWithUnit_of_row {o : Opcode} {w : U32} (ho : o.usesAll = false) (h : w &&& o.mask = o.row) :
    allWithUnit w = false := by
  obtain ⟨-, -, -, ha⟩ := fieldNotZero_eq_false_iff.1 (and_mask_eq_row_iff.1 h).2
  simp [allWithUnit, ha ho]

/-- With an operand that makes the command, the word decides. -/
theorem decodeCommand_iff_row {o : Opcode} {w : U32} {d : Operand} {i : Instr} (hi : i.opcode = some o)
    (ho : o.usesAll = false) (h : attachOperand o w d = .command i) :
    decodeCommand ⟨w, d⟩ = .command i ↔ w &&& o.mask = o.row :=
  (decodeCommand_eq_command_iff hi).trans
    ⟨fun h' => h'.1, fun hrow => ⟨hrow, allWithUnit_of_row ho hrow, h⟩⟩

/-- An opcode that uses no field has one word. -/
theorem decodeCommand_iff_eq {o : Opcode} {w : U32} {d : Operand} {i : Instr} (hi : i.opcode = some o)
    (ho : o.usesAll = false) (hm : o.mask = BitVec.allOnes 32) (h : attachOperand o w d = .command i) :
    decodeCommand ⟨w, d⟩ = .command i ↔ w = o.row := by
  rw [decodeCommand_iff_row hi ho h, hm, BitVec.and_allOnes]

/-- ALL is bit 18 (R90). -/
theorem allWithUnit_eq_false_iff {w : U32} :
    allWithUnit w = false ↔ ¬(w.getLsbD 18 = true ∧ w.extractLsb' 16 2 ≠ 0#2) := by
  rw [BitVec.getLsbD_eq_extractLsb']
  simp [allWithUnit, allField, unitField]

theorem row_of_decodeCommand {o : Opcode} {w : U32} {d : Operand} {i : Instr} (hi : i.opcode = some o)
    (h : decodeCommand ⟨w, d⟩ = .command i) : w &&& o.mask = o.row :=
  ((decodeCommand_eq_command_iff hi).1 h).1

/-- Settles O6: four opcodes have one word, and the words of the others are those of their rows. -/
theorem commandRowsMatchTheTable : Obligations.CommandRowsMatchTheTable := by
  unfold Obligations.CommandRowsMatchTheTable
  intro w
  refine ⟨⟨?_, ?_⟩,
    fun v => decodeCommand_iff_eq (o := .cfgWrite) rfl rfl rfl rfl,
    decodeCommand_iff_eq (o := .cfgRead) rfl rfl rfl rfl,
    ⟨fun ⟨_, h⟩ => row_of_decodeCommand (o := .statusRead) rfl h, fun hrow => ?_⟩,
    decodeCommand_iff_eq (o := .bpPull) rfl rfl rfl rfl,
    fun b => decodeCommand_iff_eq (o := .bfPush) rfl rfl rfl rfl,
    fun p => ⟨fun ⟨_, h⟩ => row_of_decodeCommand (o := .ldRun) rfl h, fun hrow => ?_⟩,
    fun x => ⟨fun ⟨_, h⟩ => row_of_decodeCommand (o := .leRun) rfl h, fun hrow => ?_⟩⟩
  · rintro ⟨u, a, h⟩
    obtain ⟨hrow, hau, -⟩ := (decodeCommand_eq_command_iff rfl).1 h
    exact ⟨hrow, allWithUnit_eq_false_iff.1 hau⟩
  · rintro ⟨hrow, hau⟩
    exact ⟨_, _, (decodeCommand_eq_command_iff (o := .reset) rfl).2 ⟨hrow, allWithUnit_eq_false_iff.2 hau, rfl⟩⟩
  · exact ⟨_, (decodeCommand_iff_row (o := .statusRead) rfl rfl rfl).2 hrow⟩
  · exact ⟨_, (decodeCommand_iff_row (o := .ldRun) rfl rfl rfl).2 hrow⟩
  · exact ⟨_, (decodeCommand_iff_row (o := .leRun) rfl rfl rfl).2 hrow⟩

/-! ### Refusals (R92) -/

theorem decodeCommand_reject_iff {q : Request} {o : Opcode} (hop : opField q.word = o.bits)
    (hk : attachOperand o q.word q.operand ≠ .reject .wrongOperand) :
    (∃ r, decodeCommand q = .reject r) ↔ fieldNotZero o q.word = true ∨ allWithUnit q.word = true := by
  rw [decodeCommand_of_opcode hop]
  split_ifs with hz hau
  · simp [hz]
  · simp [hau]
  · refine iff_of_false ?_ (not_or.2 ⟨hz, hau⟩)
    rintro ⟨r, hr⟩
    obtain rfl := attachOperand_eq_reject hr
    exact hk hr

theorem fieldNotZero_eq_true_iff {o : Opcode} {w : U32} : fieldNotZero o w = true ↔
    reservedField w ≠ 0#13 ∨ (mField w ≠ 0#8 ∧ o.bits ∉ [0x30#8, 0x40#8]) ∨
      (unitField w ≠ 0#2 ∧ o.bits ∉ [0x01#8, 0x04#8]) ∨ (allField w ≠ 0#1 ∧ o.bits ≠ 0x01#8) := by
  cases o <;> simp [fieldNotZero, Opcode.usesM, Opcode.usesUnit, Opcode.usesAll, Opcode.bits, or_assoc]

theorem Opcode.bits_mem (o : Opcode) :
    o.bits ∈ [0x01#8, 0x02#8, 0x03#8, 0x04#8, 0x10#8, 0x20#8, 0x30#8, 0x40#8] := by cases o <;> decide

/-! ### Code classes (R89) -/

section code
variable {m next : Nat} {prev : Option Code} {c : Code}

theorem decodeCode_clear (h : c.toNat = clearOf m) : decodeCode m next prev c = .codeClear c := if_pos h

theorem decodeCode_eoi (h : c.toNat = eoiOf m) : decodeCode m next prev c = .codeEoi c := by
  have hc : c.toNat ≠ clearOf m := by simp only [clearOf, eoiOf] at *; omega
  unfold decodeCode
  rw [if_neg hc, if_pos h]

theorem decodeCode_rootFirst (h : c.toNat < clearOf m) : decodeCode m next none c = .codeRootFirst c := by
  have he : c.toNat ≠ eoiOf m := by simp only [clearOf, eoiOf] at *; omega
  simp only [decodeCode, h.ne, he, h, if_false, if_true]

theorem decodeCode_root {p : Code} (h : c.toNat < clearOf m) : decodeCode m next (some p) c = .codeRoot c := by
  have he : c.toNat ≠ eoiOf m := by simp only [clearOf, eoiOf] at *; omega
  simp only [decodeCode, h.ne, he, h, if_false, if_true]

/-- A code above the two special ones is undefined without a previous code, and is classed by the next code with one. -/
theorem decodeCode_of_gt (h : eoiOf m < c.toNat) : decodeCode m next prev c =
    if prev = none ∨ next < c.toNat then .codeUndefined c
    else if c.toNat = next then .codeKwkwk c else .codeDefined c := by
  have hroot : ¬c.toNat < clearOf m := by simp only [clearOf, eoiOf] at *; omega
  have hclear : c.toNat ≠ clearOf m := by simp only [clearOf, eoiOf] at *; omega
  simp only [decodeCode, hclear, h.ne', hroot, if_false]
  cases prev with
  | none => simp
  | some p =>
    rcases Nat.lt_trichotomy c.toNat next with hn | hn | hn
    · simp [hn, hn.ne, hn.le]
    · simp [hn]
    · simp [hn, hn.ne', hn.le]

theorem admits_of_decodeCode {i : Instr} (h : decodeCode m next prev c = i) : admits (.code m next prev) i = true :=
  h ▸ admits_decodeCode m next prev c

theorem decodeCode_eq_codeClear_iff : decodeCode m next prev c = .codeClear c ↔ c.toNat = clearOf m :=
  ⟨fun h => by simpa [admits, Context.inCode] using admits_of_decodeCode h, decodeCode_clear⟩

theorem decodeCode_eq_codeEoi_iff : decodeCode m next prev c = .codeEoi c ↔ c.toNat = eoiOf m :=
  ⟨fun h => by simpa [admits, Context.inCode] using admits_of_decodeCode h, decodeCode_eoi⟩

theorem decodeCode_eq_codeRootFirst_iff :
    decodeCode m next prev c = .codeRootFirst c ↔ c.toNat < clearOf m ∧ prev = none := by
  refine ⟨fun h => by simpa [admits, Context.inCode] using admits_of_decodeCode h, ?_⟩
  rintro ⟨hc, rfl⟩
  exact decodeCode_rootFirst hc

theorem decodeCode_eq_codeRoot_iff : decodeCode m next prev c = .codeRoot c ↔ c.toNat < clearOf m ∧ prev ≠ none := by
  refine ⟨fun h => by simpa [admits, Context.inCode, Option.isSome_iff_ne_none] using admits_of_decodeCode h, ?_⟩
  rintro ⟨hc, hp⟩
  obtain ⟨p, rfl⟩ := Option.ne_none_iff_exists'.1 hp
  exact decodeCode_root hc

theorem decodeCode_eq_codeDefined_iff :
    decodeCode m next prev c = .codeDefined c ↔ eoiOf m < c.toNat ∧ c.toNat < next ∧ prev ≠ none := by
  refine ⟨fun h => ?_, fun ⟨hc, hn, hp⟩ => ?_⟩
  · simpa [admits, Context.inCode, Option.isSome_iff_ne_none, and_assoc] using admits_of_decodeCode h
  · rw [decodeCode_of_gt hc, if_neg (by simp [hp, hn.le]), if_neg hn.ne]

theorem decodeCode_eq_codeUndefined_iff :
    decodeCode m next prev c = .codeUndefined c ↔ eoiOf m < c.toNat ∧ (prev = none ∨ next < c.toNat) := by
  refine ⟨fun h => by simpa [admits, Context.inCode] using admits_of_decodeCode h, fun ⟨hc, hu⟩ => ?_⟩
  rw [decodeCode_of_gt hc, if_pos hu]

/-- The next code is above the two special ones, so a code equal to it is too. -/
theorem decodeCode_eq_codeKwkwk_iff (hn : firstFree m ≤ next) :
    decodeCode m next prev c = .codeKwkwk c ↔ c.toNat = next ∧ prev ≠ none ∧ next ≤ 4095 := by
  refine ⟨fun h => ?_, fun ⟨hc, hp, _⟩ => ?_⟩
  · have ha := admits_of_decodeCode h
    simp only [admits, Context.inCode, Bool.and_eq_true, decide_eq_true_eq, beq_iff_eq,
      Option.isSome_iff_ne_none] at ha
    obtain ⟨⟨⟨-, hc⟩, hp⟩, hle⟩ := ha
    exact ⟨hc, hp, hle⟩
  · have hgt : eoiOf m < c.toNat := by simp only [eoiOf, firstFree] at *; omega
    rw [decodeCode_of_gt hgt, if_neg (by simp [hp, hc]), if_pos hc]

theorem decodeCode_mem : decodeCode m next prev c ∈
    [.codeClear c, .codeEoi c, .codeRootFirst c, .codeRoot c, .codeDefined c, .codeKwkwk c, .codeUndefined c] := by
  unfold decodeCode
  cases prev <;> split_ifs <;> simp

end code

/-- Settles O5: a class is read only where it is admitted, and its condition leaves no other. -/
theorem codeClassesFollowTheTable : Obligations.CodeClassesFollowTheTable := by
  unfold Obligations.CodeClassesFollowTheTable
  intro m next prev c hn
  exact ⟨decodeCode_eq_codeClear_iff, decodeCode_eq_codeEoi_iff, decodeCode_eq_codeRootFirst_iff,
    decodeCode_eq_codeRoot_iff, decodeCode_eq_codeDefined_iff, decodeCode_eq_codeKwkwk_iff hn,
    decodeCode_eq_codeUndefined_iff, decodeCode_mem⟩

end Sys2Proof

namespace Sys2Proof.Machine

variable {s t : State}

/-! ### A command is refused by the decoder alone (R92) -/

theorem repeatFail_ne_refused {err : Option ErrorKind} {r : Refusal} : repeatFail err s ≠ .refused r := by
  cases err <;> nofun

/-- A command that is decoded is not refused as one that is not. -/
theorem exec_command_ne_rejected {i : Instr} {r : Reject} (hc : admits .command i = true) (ha : s.active = none) :
    exec i s ≠ .refused (.commandRejected r) := by
  cases i with
  | reset | cfgWrite | cfgRead | statusRead =>
    intro h
    cases (whenIdle_idle ha).symm.trans h
  | bpPull =>
    intro h
    replace h := (whenIdle_idle ha).symm.trans h
    split at h
    · exact repeatFail_ne_refused h
    all_goals cases h
  | bfPush | ldRun | leRun =>
    intro h
    replace h := (whenIdle_idle ha).symm.trans h
    split at h
    · exact repeatFail_ne_refused h
    · split_ifs at h <;> cases h
  | _ => cases hc

/-- A step refuses a command as undecoded exactly when the decoder rejects it. -/
theorem step_rejected_iff {q : Request} {rest : List HostAction} (ha : s.active = none)
    (hh : s.host = .command q :: rest) :
    (∃ r, step s = .refused (.commandRejected r)) ↔ ∃ r, decodeCommand q = .reject r := by
  cases hd : decodeCommand q with
  | command i =>
    rw [step_command ha hh hd]
    refine iff_of_false ?_ nofun
    rintro ⟨r, hr⟩
    exact exec_command_ne_rejected (s := s.withHost rest) (decodeCommand_admits hd) ha hr
  | reject r => exact iff_of_true ⟨r, step_reject ha hh hd⟩ ⟨r, rfl⟩

/-- Settles O8: by the opcode, known or not. -/
theorem commandWordsRefusedInThreeCases : Obligations.CommandWordsRefusedInThreeCases := by
  unfold Obligations.CommandWordsRefusedInThreeCases
  intro s q rest ha hh hk
  rw [step_rejected_iff ha hh]
  rcases hk with hunknown | ⟨o, hop, hk⟩
  · exact iff_of_true ⟨_, decodeCommand_of_unknown hunknown⟩ (.inl (opcodeOf_eq_none_iff.1 hunknown))
  · replace hop := opcodeOf_eq_some_iff.1 hop
    rw [decodeCommand_reject_iff hop hk, fieldNotZero_eq_true_iff, hop]
    simp only [o.bits_mem, not_true_eq_false, false_or, allWithUnit, Bool.and_eq_true, beq_iff_eq, bne_iff_ne, or_assoc]

/-! ### Returned blocks follow the grammar (R66) -/

/-- A step from `s` to `t` returned nothing, or a result that is no block. -/
def ReturnsNoBlock (s t : State) : Prop :=
  t.results = s.results ∨ ∃ r, t.results = s.results ++ [r] ∧ ∀ b, r ≠ .block b

/-- A block that was returned is the grammar's next in the phase, and `t` is in the grammar's phase after it. -/
def FollowsGrammar (phase : BpPhase) (results : List Result) (t : State) : Prop :=
  ∀ b, t.results = results ++ [.block b] → grammarNext phase b = some t.bp.phase

theorem ReturnsNoBlock.follows (h : ReturnsNoBlock s t) : FollowsGrammar s.bp.phase s.results t := by
  intro b hb
  rcases h with h | ⟨r, h, hr⟩ <;> rw [hb] at h
  · simp at h
  · exact absurd (List.singleton_inj.1 (List.append_cancel_left h)).symm (hr b)

theorem repeatFail_returnsNoBlock {err : Option ErrorKind} (hx : repeatFail err s = .next t) : ReturnsNoBlock s t := by
  obtain ⟨k, -, rfl⟩ := repeatFail_next hx
  exact .inr ⟨_, rfl, nofun⟩

theorem raiseFail_returnsNoBlock (u : UnitId) (k : ErrorKind) (n : Nat) : ReturnsNoBlock s (raiseFail u k n s) :=
  .inr ⟨_, raiseFail_results s k n u, nofun⟩

theorem exec_command_returnsNoBlock {i : Instr} (hc : admits .command i = true) (hx : exec i s = .next t) :
    ReturnsNoBlock s t := by
  cases i with
  | reset u all =>
    obtain ⟨-, ⟨⟩⟩ := whenIdle_next hx
    refine .inr ⟨.ok, ?_, nofun⟩
    split
    · rfl
    · cases u <;> rfl
  | cfgWrite | cfgRead | statusRead =>
    obtain ⟨-, ⟨⟩⟩ := whenIdle_next hx
    exact .inr ⟨_, rfl, nofun⟩
  | bpPull =>
    obtain ⟨-, hx⟩ := whenIdle_next hx
    split at hx
    · exact repeatFail_returnsNoBlock hx
    · cases hx
      exact .inr ⟨_, rfl, nofun⟩
    · cases hx
      exact .inl rfl
  | bfPush b =>
    obtain ⟨-, hx⟩ := whenIdle_next hx
    split at hx
    · exact repeatFail_returnsNoBlock hx
    · split_ifs at hx
      · cases hx
        exact raiseFail_returnsNoBlock ..
      · cases hx
        exact .inl rfl
  | ldRun | leRun =>
    obtain ⟨-, hx⟩ := whenIdle_next hx
    split at hx
    · exact repeatFail_returnsNoBlock hx
    · split_ifs at hx
      · cases hx
        exact .inl rfl
      · cases hx
        exact raiseFail_returnsNoBlock ..
  | _ => cases hc

theorem step_idle_returnsNoBlock (ha : s.active = none) (hx : step s = .next t) : ReturnsNoBlock s t := by
  rcases hh : s.host with _ | ⟨q | answers | answers, rest⟩
  · rw [step_idle ha hh] at hx
    cases hx
    exact .inl rfl
  · cases hd : decodeCommand q with
    | command i =>
      rw [step_command ha hh hd] at hx
      exact exec_command_returnsNoBlock (s := s.withHost rest) (decodeCommand_admits hd) hx
    | reject r =>
      rw [step_reject ha hh hd] at hx
      cases hx
  · rw [step_bindSrc ha hh] at hx
    cases hx
    exact .inl rfl
  · rw [step_bindSink ha hh] at hx
    cases hx
    exact .inl rfl

theorem step_bf_returnsNoBlock (ha : s.active = some .bf) (hx : step s = .next t) : ReturnsNoBlock s t := by
  rw [step_bf ha] at hx
  unfold bfMicroStep at hx
  split at hx
  · cases hx
    exact .inr ⟨_, rfl, nofun⟩
  · rename_i b rest _
    rcases write1_cases s b with ⟨answers, -, hw⟩ | ⟨e, kept, answers, -, hw⟩ <;> simp only [hw] at hx
    · cases rest with
      | nil =>
        cases hx
        exact .inr ⟨_, rfl, nofun⟩
      | cons b' rest' =>
        cases hx
        exact .inl rfl
    · cases hx
      exact .inr ⟨_, rfl, nofun⟩

theorem insertAndOutput_returnsNoBlock {p c : Code} {k : Byte} {e : List Byte}
    (hx : insertAndOutput p k e c s = .next t) : ReturnsNoBlock s t := by
  rcases insertAndOutput_cases p k e c s with ⟨kind, -, hx'⟩ | ⟨u, -, -, hx'⟩ <;> rw [hx'] at hx <;> cases hx
  · exact raiseFail_returnsNoBlock ..
  · exact .inl rfl

theorem knownCode_returnsNoBlock {c : Code} (hx : knownCode c s = .next t) : ReturnsNoBlock s t := by
  unfold knownCode at hx
  split at hx
  · cases hx
  · exact insertAndOutput_returnsNoBlock hx

theorem exec_code_returnsNoBlock {i : Instr} (hc : admits s.ld.context i = true) (hx : exec i s = .next t) :
    ReturnsNoBlock s t := by
  cases i with
  | codeClear c =>
    obtain ⟨-, -, ⟨⟩⟩ := inCodeContext_next hx
    exact .inl rfl
  | codeEoi c =>
    obtain ⟨-, -, ⟨⟩⟩ := inCodeContext_next hx
    exact .inr ⟨_, rfl, nofun⟩
  | codeUndefined c =>
    obtain ⟨-, -, ⟨⟩⟩ := inCodeContext_next hx
    exact raiseFail_returnsNoBlock ..
  | codeRootFirst c =>
    obtain ⟨-, -, hx⟩ := inCodeContext_next hx
    rcases outputString_cases [c.setWidth 8] c s.ld.advance s with ⟨-, hx'⟩ | ⟨-, hx'⟩ <;> rw [hx'] at hx <;> cases hx
    · exact .inl rfl
    · exact raiseFail_returnsNoBlock ..
  | codeRoot c | codeDefined c =>
    obtain ⟨-, -, hx⟩ := inCodeContext_next hx
    exact knownCode_returnsNoBlock hx
  | codeKwkwk c =>
    obtain ⟨-, -, hx⟩ := inCodeContext_next hx
    split at hx
    · cases hx
    · exact insertAndOutput_returnsNoBlock hx
  | _ => cases hc

theorem step_ld_returnsNoBlock (ha : s.active = some .ld) (hx : step s = .next t) : ReturnsNoBlock s t := by
  rcases Nat.lt_or_ge (8 * s.ld.input.length) (s.ld.bitpos + s.ld.width.toNat) with hb | hb
  · rw [step_ld_short ha hb] at hx
    cases hx
    exact raiseFail_returnsNoBlock ..
  · rw [step_ld_code ha hb] at hx
    exact exec_code_returnsNoBlock (admits_decodeCode _ _ _ _) hx

theorem step_le_returnsNoBlock (ha : s.active = some .le) (hx : step s = .next t) : ReturnsNoBlock s t := by
  rw [step_le ha] at hx
  unfold leMicroStep at hx
  split at hx
  · split at hx <;> cases hx <;> exact .inr ⟨_, rfl, nofun⟩
  · split at hx
    · cases hx
      exact raiseFail_returnsNoBlock ..
    · split at hx
      · cases hx
        exact .inl rfl
      · split at hx <;> cases hx <;> exact .inl rfl

theorem announcesGlobal_iff {n : Nat} {phase : BpPhase} :
    announcesGlobal n phase = true ↔ ∃ k, phase = .expectGlobalTable k ∧ n = tableEntries k := by
  cases phase <;> simp [announcesGlobal]

theorem announcesLocal_iff {n : Nat} {phase : BpPhase} :
    announcesLocal n phase = true ↔ ∃ k, phase = .expectLocalTable k ∧ n = tableEntries k := by
  cases phase <;> simp [announcesLocal]

theorem raiseBp_follows {k : ErrorKind} (hx : raiseBp k s = .next t) : FollowsGrammar s.bp.phase s.results t := by
  cases hx
  exact (raiseFail_returnsNoBlock ..).follows

theorem returnBlock_follows {b : Block} {phase' : BpPhase} (hx : returnBlock b phase' s = .next t)
    (hg : grammarNext s.bp.phase b = some phase') : FollowsGrammar s.bp.phase s.results t := by
  cases hx
  intro b' hb
  obtain rfl : b = b' := by simpa using hb
  exact hg

/-- A form returns the grammar's block in the phase that admits it, or fails. -/
theorem exec_block_follows {i : Instr} (hx : exec i s = .next t) (hc : admits (.block s.bp.phase) i = true) :
    FollowsGrammar s.bp.phase s.results t := by
  cases i with
  | blockHeader raw =>
    obtain ⟨-, -, hx⟩ := inBlockContext_next hx
    have hp : s.bp.phase = .expectHeader := eq_of_beq hc
    split_ifs at hx
    · exact raiseBp_follows hx
    · exact returnBlock_follows hx (by rw [hp]; rfl)
    · exact returnBlock_follows hx (by rw [hp]; rfl)
    · exact raiseBp_follows hx
  | blockScreenDesc r =>
    obtain ⟨-, -, hx⟩ := inBlockContext_next hx
    have hp : s.bp.phase = .expectScreenDesc := eq_of_beq hc
    exact returnBlock_follows hx (by rw [hp]; rfl)
  | blockGlobalTable es =>
    obtain ⟨-, -, hx⟩ := inBlockContext_next hx
    obtain ⟨k, hp, hl⟩ := announcesGlobal_iff.1 hc
    exact returnBlock_follows hx (by rw [hp]; exact if_pos hl)
  | blockLocalTable es =>
    obtain ⟨-, -, hx⟩ := inBlockContext_next hx
    obtain ⟨k, hp, hl⟩ := announcesLocal_iff.1 hc
    exact returnBlock_follows hx (by rw [hp]; exact if_pos hl)
  | blockImageData m subs =>
    obtain ⟨-, -, hx⟩ := inBlockContext_next hx
    have hp : s.bp.phase = .expectImageData := eq_of_beq hc
    exact returnBlock_follows hx (by rw [hp]; rfl)
  | blockGraphicControl op =>
    obtain ⟨-, -, hx⟩ := inBlockContext_next hx
    have hp : s.bp.phase = .expectBody := eq_of_beq hc
    cases op with
    | wrongSize size => exact raiseBp_follows hx
    | fields r terminator =>
      dsimp only at hx
      split_ifs at hx
      · exact raiseBp_follows hx
      · exact returnBlock_follows hx (by rw [hp]; rfl)
  | blockAppExt op =>
    obtain ⟨-, -, hx⟩ := inBlockContext_next hx
    have hp : s.bp.phase = .expectBody := eq_of_beq hc
    cases op with
    | wrongSize size => exact raiseBp_follows hx
    | fields r => exact returnBlock_follows hx (by rw [hp]; rfl)
  | blockComment | blockPlainText | blockImageDesc | blockTrailer =>
    obtain ⟨-, -, hx⟩ := inBlockContext_next hx
    have hp : s.bp.phase = .expectBody := eq_of_beq hc
    exact returnBlock_follows hx (by rw [hp]; rfl)
  | blockUnknownExt | blockInvalidIntroducer =>
    obtain ⟨-, -, hx⟩ := inBlockContext_next hx
    exact raiseBp_follows hx
  | _ => cases hc

theorem step_bp_follows (ha : s.active = some .bp) (hx : step s = .next t) :
    FollowsGrammar s.bp.phase s.results t := by
  rcases read1_cases s with ⟨b, rest, hs, -⟩ | ⟨-, hr⟩ | ⟨rest, -, hr⟩ | ⟨e, rest, -, hr⟩
  · cases hf : bufferFull s with
    | true =>
      rw [step_bp_full ha hf hs] at hx
      cases hx
      exact ReturnsNoBlock.follows (.inr ⟨_, rfl, nofun⟩)
    | false =>
      rw [step_bp_byte ha hf hs] at hx
      split at hx
      · cases hx
        exact ReturnsNoBlock.follows (.inl rfl)
      · have hfollows := exec_block_follows hx (decodeBlock_complete ‹_›).2
        exact hfollows
      · cases hx
  all_goals
    rw [step_bp_error ha hr] at hx
    cases hx
    exact ReturnsNoBlock.follows (.inr ⟨_, rfl, nofun⟩)

/-- Settles O24: by the unit that runs; only BP returns a block. -/
theorem returnedBlocksFollowTheGrammar : Obligations.ReturnedBlocksFollowTheGrammar := by
  unfold Obligations.ReturnedBlocksFollowTheGrammar
  intro s t b hx
  refine (?_ : FollowsGrammar s.bp.phase s.results t) b
  match ha : s.active with
  | none => exact (step_idle_returnsNoBlock ha hx).follows
  | some .bp => exact step_bp_follows ha hx
  | some .bf => exact (step_bf_returnsNoBlock ha hx).follows
  | some .ld => exact (step_ld_returnsNoBlock ha hx).follows
  | some .le => exact (step_le_returnsNoBlock ha hx).follows

end Sys2Proof.Machine

/-! The Block Parser (40_block_parser.md): what a pull reads, what each block form returns or raises, and the fields of
the records. -/

namespace Sys2Proof.Machine

variable {s : State}

/-! ### BP_PULL (40_block_parser.md R96 to R98) -/

/-- A pull begins in every phase that expects a block. -/
theorem execBpPull_begins (ha : s.active = none) (hd : s.bp.phase ≠ .done) (hf : s.bp.phase ≠ .failed) :
    execBpPull s = .next ((s.withBp { s.bp with buf := [] }).withActive (some .bp)) := by
  rw [execBpPull, whenIdle_idle ha]
  split
  · exact absurd ‹_› hf
  · exact absurd ‹_› hd
  · rfl

/-- Settles O18: by the phase. -/
theorem pullDispatchesOnThePhase : Obligations.PullDispatchesOnThePhase := by
  unfold Obligations.PullDispatchesOnThePhase
  intro s ha
  refine ⟨fun k hp hk => ?_, fun hp => ?_, execBpPull_begins ha⟩
  · simp only [exec, execBpPull, whenIdle_idle ha, hp, hk, repeatFail]
  · simp only [exec, execBpPull, whenIdle_idle ha, hp]

/-- The pull that began in `s` has read these bytes, and SRC has these answers to come. -/
def State.pulling (s : State) (read : List Byte) (answers : List SrcAnswer) : State :=
  ((s.withBp { s.bp with pos := s.bp.pos + read.length, buf := read }).withSrc answers).withActive (some .bp)

/-- A byte that the buffer's bound lets in is read, and runs the form it completes. -/
theorem step_pulling {read : List Byte} (b : Byte) (answers : List SrcAnswer)
    (hfits : ∀ n, s.params.maxBlockBytes = some n → read.length + 1 ≤ n) :
    step (s.pulling read (.byte b :: answers)) =
      match decodeBlock s.bp.phase (read ++ [b]) with
      | .incomplete => .next (s.pulling (read ++ [b]) answers)
      | .complete i _ => exec i (s.pulling (read ++ [b]) answers)
      | .noBlock => .refused .noBlockExpected := by
  have hread : s.pulling (read ++ [b]) answers = ((s.pulling read (.byte b :: answers)).withSrc answers).withBp
      { s.bp with pos := s.bp.pos + read.length + 1, buf := read ++ [b] } := by
    rw [State.pulling, List.length_append]
    rfl
  rw [step_bp_byte rfl (bufferFull_of_fits hfits) rfl, hread]
  rfl

theorem stepN_one (s : State) : stepN 1 s = step s := by
  simp only [stepN]
  cases step s <;> rfl

theorem stepN_succ_of_next {t : State} (h : step s = .next t) (n : Nat) : stepN (n + 1) s = stepN n t := by
  rw [stepN, h]

/-- A pull that has read the beginning of a form reads what is left of it, and runs the form at its last byte. -/
theorem stepN_pulling {i : Instr} {read left : List Byte} (rest : List SrcAnswer) (hw : i.wf = true)
    (hc : admits (.block s.bp.phase) i = true) (he : encode i = .bytes (read ++ left)) (hl : left ≠ [])
    (hfits : ∀ n, s.params.maxBlockBytes = some n → (read ++ left).length ≤ n) :
    stepN left.length (s.pulling read (srcOf left ++ rest)) = exec i (s.pulling (read ++ left) rest) := by
  induction left generalizing read with
  | nil => contradiction
  | cons b left ih =>
    have hstep := step_pulling (s := s) (read := read) b (srcOf left ++ rest) fun n hn => by
      have := hfits n hn
      simp only [List.length_append, List.length_cons] at this
      omega
    rw [List.append_cons] at he hfits ⊢
    cases left with
    | nil =>
      rw [List.append_nil] at he ⊢
      have hdecode := blockFormsDecodeWhatTheyEncode _ _ _ [] hw hc he
      rw [List.append_nil] at hdecode
      simp only [hdecode] at hstep
      exact (stepN_one _).trans hstep
    | cons c left =>
      have hdecode := blockFormsEndAtTheirLastByte _ _ _ hw hc he (read ++ [b]).length (by simp)
      rw [List.take_left] at hdecode
      simp only [hdecode] at hstep
      exact (stepN_succ_of_next hstep _).trans (ih he nofun hfits)

theorem bytes_ne_nil_of_encode {i : Instr} {phase : BpPhase} {bs : List Byte} (hw : i.wf = true)
    (hc : admits (.block phase) i = true) (he : encode i = .bytes bs) : bs ≠ [] := by
  rintro rfl
  have hdecode := blockFormsDecodeWhatTheyEncode phase i [] [] hw hc he
  obtain ⟨hd, hf⟩ := phase_of_admits hc
  cases (decodeBlock_nil hd hf).symm.trans hdecode

/-- Settles O13: the pull begins with nothing read, and every byte but the last leaves the form incomplete. -/
theorem pullReadsExactlyOneForm : Obligations.PullReadsExactlyOneForm := by
  unfold Obligations.PullReadsExactlyOneForm
  intro s i bs rest ha hw hc he hfits hsrc
  obtain ⟨hd, hf⟩ := phase_of_admits hc
  refine ⟨_, execBpPull_begins ha hd hf, ?_⟩
  have hbegun : (s.withBp { s.bp with buf := [] }).withActive (some .bp) = s.pulling [] (srcOf bs ++ rest) := by
    rw [← hsrc]
    rfl
  rw [hbegun]
  exact stepN_pulling rest hw hc he (bytes_ne_nil_of_encode hw hc he) hfits

/-! ### Block forms (40_block_parser.md R99 to R113) -/

/-- A string begins with another and ends with a third exactly when it is the two joined. -/
theorem eq_append_iff_take_drop {α : Type} {raw first last : List α} :
    raw = first ++ last ↔ raw.take first.length = first ∧ raw.drop first.length = last := by
  constructor
  · rintro rfl
    exact ⟨List.take_left, List.drop_left⟩
  · rintro ⟨hfirst, hlast⟩
    rw [← hfirst, ← hlast]
    simp

/-- Settles O19: the six bytes are the signature and a version. -/
theorem headerIsCheckedWhole : Obligations.HeaderIsCheckedWhole := by
  unfold Obligations.HeaderIsCheckedWhole
  intro s raw ha hp
  have h87 : raw = headerBytes .v87a ↔ raw.take 3 = gifSignature ∧ raw.drop 3 = version87a :=
    eq_append_iff_take_drop (first := gifSignature)
  have h89 : raw = headerBytes .v89a ↔ raw.take 3 = gifSignature ∧ raw.drop 3 = version89a :=
    eq_append_iff_take_drop (first := gifSignature)
  rw [exec, execBlockHeader, inBlockContext_of ha (by rw [hp]; rfl), raiseBp, returnBlock, returnBlock]
  by_cases hgif : raw.take 3 = gifSignature
  · simp only [h87, h89, hgif, true_and, ne_eq, not_true_eq_false, if_false]
    split_ifs <;> rfl
  · simp only [h87, h89, hgif, false_and, ne_eq, not_false_eq_true, if_true, if_false]

/-- Settles O20: each form in the phase that selects it. -/
theorem descriptorsAnnounceTheirTables : Obligations.DescriptorsAnnounceTheirTables := by
  unfold Obligations.DescriptorsAnnounceTheirTables
  intro s ha
  refine ⟨fun r hp => ?_, fun k es hp hl => ?_, fun r hp => ?_, fun k es hp hl => ?_⟩
  · exact inBlockContext_of ha (by rw [hp]; rfl)
  · exact inBlockContext_of ha (announcesGlobal_iff.2 ⟨k, hp, hl⟩)
  · exact inBlockContext_of ha (by rw [hp]; rfl)
  · exact inBlockContext_of ha (announcesLocal_iff.2 ⟨k, hp, hl⟩)

/-- A block returned from a phase that it does not change. -/
theorem returnBlock_same_phase {phase : BpPhase} (hp : s.bp.phase = phase) (b : Block) :
    returnBlock b phase s = .next ((s.withBp { s.bp with buf := [] }).finish (.block b)) := by
  subst hp
  rfl

/-- Settles O21: BP stays in ExpectBody, or fails where it stands. -/
theorem extensionsReturnOrFailAtTheByte : Obligations.ExtensionsReturnOrFailAtTheByte := by
  unfold Obligations.ExtensionsReturnOrFailAtTheByte
  intro s ha hp
  have returned {i b} (hc : admits (.block .expectBody) i = true) : inBlockContext i s (returnBlock b .expectBody s) =
      .next ((s.withBp { s.bp with buf := [] }).finish (.block b)) := by
    rw [inBlockContext_of ha (by rw [hp]; exact hc), returnBlock_same_phase hp]
  refine ⟨fun r => returned rfl, fun r z hz => ?_, fun n => ?_, fun subs => returned rfl, fun r => returned rfl,
    fun n => ?_, fun subs => returned rfl⟩
  · rw [exec, execBlockGraphicControl, inBlockContext_of ha (by rw [hp]; rfl)]
    exact if_pos hz
  · exact inBlockContext_of ha (by rw [hp]; rfl)
  · exact inBlockContext_of ha (by rw [hp]; rfl)

theorem knownLabel_eq_false_iff {l : Byte} :
    knownLabel l = false ↔ l ≠ 0xF9#8 ∧ l ≠ 0xFE#8 ∧ l ≠ 0xFF#8 ∧ l ≠ 0x01#8 := by
  simp [knownLabel, and_assoc]

theorem knownIntroducer_eq_false_iff {b : Byte} :
    knownIntroducer b = false ↔ b ≠ 0x21#8 ∧ b ≠ 0x2C#8 ∧ b ≠ 0x3B#8 := by
  simp [knownIntroducer, and_assoc]

/-- In the body, an unknown extension and an invalid introducer fail where BP stands. -/
theorem exec_unknownForm {i : Instr} (ha : s.active = some .bp) (hp : s.bp.phase = .expectBody)
    (hi : (∃ l, i = .blockUnknownExt l) ∨ ∃ b, i = .blockInvalidIntroducer b) :
    exec i s = .next (raiseFail .bp .invalidBlockTag s.bp.pos s) := by
  rcases hi with ⟨l, rfl⟩ | ⟨b, rfl⟩ <;> exact inBlockContext_of ha (by rw [hp]; rfl)

/-- Settles O22: the label or the introducer completes a form at once, and the form fails. -/
theorem unknownLabelAndIntroducerFail : Obligations.UnknownLabelAndIntroducerFail := by
  unfold Obligations.UnknownLabelAndIntroducerFail
  refine ⟨fun s l ha hp _ _ _ _ => exec_unknownForm ha hp (.inl ⟨l, rfl⟩),
    fun s b ha hp _ _ _ => exec_unknownForm ha hp (.inr ⟨b, rfl⟩), fun s b rest ha hp hbound hs hb => ?_⟩
  obtain ⟨i, hi, hdecode⟩ : ∃ i, ((∃ l, i = .blockUnknownExt l) ∨ ∃ b, i = .blockInvalidIntroducer b) ∧
      decodeBlock s.bp.phase (s.bp.buf ++ [b]) = .complete i [] := by
    rw [hp]
    rcases hb with ⟨hbuf, hlabel⟩ | ⟨hbuf, hintroducer⟩ <;> rw [hbuf]
    · exact ⟨_, .inl ⟨b, rfl⟩, decodeExtension_unknown (knownLabel_eq_false_iff.2 hlabel) []⟩
    · exact ⟨_, .inr ⟨b, rfl⟩, decodeBody_invalidIntroducer (knownIntroducer_eq_false_iff.2 hintroducer) []⟩
  have hstep := step_bp_byte ha (bufferFull_of_fits (by simp [hbound])) hs
  simp only [hdecode] at hstep
  exact ⟨_, hstep.trans (exec_unknownForm ha hp hi), rfl, rfl, rfl, rfl⟩

/-- Settles O23: each form in the phase that selects it. -/
theorem imageDataAndTrailerReturn : Obligations.ImageDataAndTrailerReturn := by
  unfold Obligations.ImageDataAndTrailerReturn
  refine ⟨fun s m subs ha hp => ?_, fun s ha hp => ?_⟩ <;> exact inBlockContext_of ha (by rw [hp]; rfl)

/-! ### Fields of the records (40_block_parser.md R117 to R121) -/

/-- A three-bit field as a number. -/
theorem toNat_extractLsb'_three (b : Byte) (i : Nat) : (b.extractLsb' i 3).toNat = b.toNat / 2 ^ i % 8 := by
  rw [BitVec.extractLsb'_toNat, Nat.shiftRight_eq_div_pow]

theorem toNat_sizeField (b : Byte) : (b.extractLsb' 0 3).toNat = b.toNat % 8 := by
  rw [toNat_extractLsb'_three, pow_zero, Nat.div_one]

theorem tableEntries_sizeField (b : Byte) : tableEntries (b.extractLsb' 0 3) = 2 ^ (b.toNat % 8 + 1) := by
  rw [tableEntries, toNat_sizeField]

/-- The disposal method by the number in bits [4:2] (30_encoding.md R74). -/
theorem disposal_eq (g : GraphicControl) : disposal g = disposalOf (BitVec.ofNat 3 (g.packed.toNat / 4 % 8)) := by
  have hfield : (g.packed.extractLsb' 2 3).toNat = g.packed.toNat / 4 % 8 := toNat_extractLsb'_three g.packed 2
  rw [disposal, ← hfield, BitVec.ofNat_toNat, BitVec.setWidth_eq]

theorem disposalOf_reserved : ∀ d : BitVec 3, 4 ≤ d.toNat → disposalOf d = .reserved d := by decide

theorem transparencyFlag_eq (g : GraphicControl) : transparencyFlag g = decide (g.packed.toNat % 2 = 1) := by
  rw [transparencyFlag, BitVec.getLsbD, Nat.testBit_zero]

/-- Settles O56: the flags by definition, the fields as numbers. -/
theorem packedFieldsStandAtTheirBits : Obligations.PackedFieldsStandAtTheirBits := by
  unfold Obligations.PackedFieldsStandAtTheirBits
  refine ⟨fun r => ⟨rfl, toNat_extractLsb'_three _ 4, rfl, toNat_sizeField _, tableEntries_sizeField _⟩,
    fun g => ⟨rfl, rfl, ?_, fun h => ?_, fun h => ?_, fun h => ?_, fun h => ?_, fun h => ?_⟩,
    fun r => ⟨rfl, rfl, rfl, toNat_sizeField _, tableEntries_sizeField _⟩⟩
  · simp only [transparentColor, transparencyFlag_eq, decide_eq_true_eq]
  · rw [disposal_eq, h]; rfl
  · rw [disposal_eq, h]; rfl
  · rw [disposal_eq, h]; rfl
  · rw [disposal_eq, h]; rfl
  · rw [disposal_eq]
    exact disposalOf_reserved _ (by simpa using h)

theorem le16_eq_iff {lo hi : Byte} {n : U16} : le16 lo hi = n ↔ n.toNat = lo.toNat + 256 * hi.toNat := by
  rw [← BitVec.toNat_inj, le16_toNat, eq_comm]

/-- Settles O57: by the shape of the first sub-block. -/
theorem loopCountNeedsTheNetscapeBlock : Obligations.LoopCountNeedsTheNetscapeBlock := by
  unfold Obligations.LoopCountNeedsTheNetscapeBlock
  intro a n
  constructor
  · intro h
    unfold loopCount at h
    split_ifs at h with hname
    obtain ⟨hid, hauth⟩ := hname
    refine ⟨hid, hauth, ?_⟩
    split at h
    · rename_i one lo hi rest hsubs
      split_ifs at h with hone
      subst hone
      exact ⟨lo, hi, rest, hsubs, le16_eq_iff.1 (Option.some.inj h)⟩
    · cases h
  · rintro ⟨hid, hauth, lo, hi, rest, hsubs, hn⟩
    rw [loopCount, if_pos ⟨hid, hauth⟩, hsubs]
    exact congrArg some (le16_eq_iff.2 hn)

end Sys2Proof.Machine


/-! The Block Framer (41_block_framer.md): the sub-blocks of a payload, what a push checks and writes, and that BP reads
back what BF wrote. -/

namespace Sys2Proof.Machine

variable {s : State}

/-! ### `chunk255` (41_block_framer.md R136) -/

theorem length_drop_chunk_le {fuel : Nat} {b : Byte} {p : List Byte} (h : (b :: p).length ≤ fuel + 1) :
    ((b :: p).drop 255).length ≤ fuel := by
  rw [List.length_drop]
  omega

/-- Fuel for every byte is enough to keep every byte. -/
theorem flatten_chunkFuel {fuel : Nat} {p : List Byte} (h : p.length ≤ fuel) : (chunkFuel fuel p).flatten = p := by
  induction fuel, p using chunkFuel.induct with
  | case1 p => exact (List.length_eq_zero_iff.1 (Nat.le_zero.1 h)).symm
  | case2 => rfl
  | case3 fuel b p ih =>
    rw [chunkFuel, List.flatten_cons, ih (length_drop_chunk_le h), List.take_append_drop]

theorem subWf_of_mem_chunkFuel {fuel : Nat} {p d : List Byte} (h : d ∈ chunkFuel fuel p) : subWf d = true := by
  induction fuel, p using chunkFuel.induct with
  | case1 => cases h
  | case2 => cases h
  | case3 fuel b p ih =>
    rcases List.mem_cons.1 h with rfl | h
    · simp [subWf, Config.subMax]
    · exact ih h

theorem chunkFuel_nil (fuel : Nat) : chunkFuel fuel [] = [] := by cases fuel <;> rfl

/-- A sub-block before the last one left bytes over, so it is full. -/
theorem length_of_mem_dropLast_chunkFuel {fuel : Nat} {p d : List Byte} (h : d ∈ (chunkFuel fuel p).dropLast) :
    d.length = 255 := by
  induction fuel, p using chunkFuel.induct with
  | case1 => cases h
  | case2 => cases h
  | case3 fuel b p ih =>
    rw [chunkFuel] at h
    by_cases hmore : chunkFuel fuel ((b :: p).drop 255) = []
    · rw [hmore] at h
      cases h
    · rw [List.dropLast_cons_of_ne_nil hmore] at h
      rcases List.mem_cons.1 h with rfl | h
      · have hover : ¬(b :: p).length ≤ 255 := fun hle =>
          hmore (List.drop_eq_nil_of_le hle ▸ chunkFuel_nil fuel)
        exact List.length_take_of_le (Nat.le_of_not_le hover)
      · exact ih h

/-- One sub-block more for up to 255 bytes more. -/
theorem chunkCount_succ {n : Nat} (hn : 0 < n) : (n - 255) / 255 + (if (n - 255) % 255 = 0 then 0 else 1) + 1 =
    n / 255 + (if n % 255 = 0 then 0 else 1) := by
  split_ifs <;> omega

theorem length_chunkFuel {fuel : Nat} {p : List Byte} (h : p.length ≤ fuel) :
    (chunkFuel fuel p).length = p.length / 255 + (if p.length % 255 = 0 then 0 else 1) := by
  induction fuel, p using chunkFuel.induct with
  | case1 p => rw [Nat.le_zero.1 h]; rfl
  | case2 => rfl
  | case3 fuel b p ih =>
    rw [chunkFuel, List.length_cons, ih (length_drop_chunk_le h), List.length_drop]
    exact chunkCount_succ (Nat.succ_pos _)

theorem flatten_chunk255 (p : List Byte) : (chunk255 p).flatten = p := flatten_chunkFuel le_rfl

theorem subsWf_chunk255 (p : List Byte) : subsWf (chunk255 p) = true :=
  List.all_eq_true.2 fun _ => subWf_of_mem_chunkFuel

theorem subWf_iff {d : List Byte} : subWf d = true ↔ 1 ≤ d.length ∧ d.length ≤ 255 := by
  rw [subWf, Bool.and_eq_true, decide_eq_true_eq, decide_eq_true_eq]
  rfl

/-- Settles O28: by the cut that takes 255 bytes at a time. -/
theorem chunksHoldThePayload : Obligations.ChunksHoldThePayload := by
  unfold Obligations.ChunksHoldThePayload
  intro p
  exact ⟨flatten_chunk255 p, fun d hd => subWf_iff.1 (subWf_of_mem_chunkFuel hd),
    fun d => length_of_mem_dropLast_chunkFuel, length_chunkFuel le_rfl⟩

/-! ### What a push checks (R122, R123, R127) -/

theorem tableCountLegal_iff {n : Nat} : tableCountLegal n = true ↔ n ∈ [2, 4, 8, 16, 32, 64, 128, 256] :=
  List.contains_iff_mem

/-- The records BF refuses to set out are the colour tables of another size (R127). -/
theorem badTableSize_iff {b : Block} : badTableSize b = true ↔
    ∃ es, (b = .globalTable es ∨ b = .localTable es) ∧ es.length ∉ [2, 4, 8, 16, 32, 64, 128, 256] := by
  cases b with
  | globalTable es | localTable es =>
    simp only [badTableSize, ← tableCountLegal_iff, Block.globalTable.injEq, Block.localTable.injEq, reduceCtorEq,
      or_false, false_or, exists_eq_left', Bool.not_eq_true', Bool.not_eq_true]
  | _ => simp only [badTableSize, reduceCtorEq, or_self, false_and, exists_false, Bool.false_eq_true]

section ready
variable {b : Block} (ha : s.active = none) (hp : s.bf.phase = .ready)
include ha hp

theorem execBfPush_illFormed (hw : b.wf = false) : execBfPush b s = .refused .illFormedRecord := by
  simp only [execBfPush, whenIdle_idle ha, hp, hw, if_true]

theorem execBfPush_badTableSize (hw : b.wf = true) (hbad : badTableSize b = true) :
    execBfPush b s = .next (raiseFail .bf .invalidColorTableSize s.bf.pos s) := by
  simp [execBfPush, whenIdle_idle ha, hp, hw, hbad]

theorem execBfPush_begins (hw : b.wf = true) (hbad : badTableSize b = false) :
    execBfPush b s = .next ((s.withBf { s.bf with pending := frameBytes b }).withActive (some .bf)) := by
  simp [execBfPush, whenIdle_idle ha, hp, hw, hbad]

end ready

/-- Settles O25: by BF's phase, the record's form and its table size; a colour table is a well-formed record. -/
theorem pushChecksBeforeItWrites : Obligations.PushChecksBeforeItWrites := by
  unfold Obligations.PushChecksBeforeItWrites
  intro s b ha
  refine ⟨fun k hp hk => ?_, execBfPush_illFormed ha, fun es hp hb hes => ?_, fun hp hw hlegal => ?_⟩
  · simp only [exec, execBfPush, whenIdle_idle ha, hp, hk, repeatFail]
  · have hw : b.wf = true := by rcases hb with rfl | rfl <;> rfl
    exact execBfPush_badTableSize ha hp hw (badTableSize_iff.2 ⟨es, hb, hes⟩)
  · refine execBfPush_begins ha hp hw (Bool.eq_false_iff.2 fun hbad => ?_)
    obtain ⟨es, hb, hes⟩ := badTableSize_iff.1 hbad
    exact hes (hlegal es hb)

/-! ### What a push writes (R122, R137) -/

/-- The push that began in `s` has written these bytes, has these left to write, and SINK has these answers to come. -/
def State.pushing (s : State) (written left : List Byte) (answers : List SinkAnswer) : State :=
  ((s.withSink (s.sink ++ written) answers).withBf
    { s.bf with pos := s.bf.pos + written.length, pending := left }).withActive (some .bf)

@[simp] theorem State.pushing_pending (s : State) (written left : List Byte) (answers : List SinkAnswer) :
    (s.pushing written left answers).bf.pending = left := rfl

/-- A write that SINK answers Ok, with an answer to come or after the last one. -/
theorem write1_ok {b : Byte} (h : ∀ a ∈ s.sinkAnswers.head?, a = .ok) : write1 b s =
    .ok ((s.withSink (s.sink ++ [b]) s.sinkAnswers.tail).withBf { s.bf with pos := s.bf.pos + 1 }) := by
  rcases write1_cases s b with ⟨rest, hs, hw⟩ | ⟨e, kept, rest, hs, -⟩
  · have hrest : s.sinkAnswers.tail = rest := by rcases hs with ⟨hs, rfl⟩ | hs <;> rw [hs] <;> rfl
    rw [hw, hrest]
  · rw [hs] at h
    cases h _ rfl

section pushing
variable {written left : List Byte} {answers : List SinkAnswer} {b : Byte}

/-- A byte written stands in SINK and is counted. -/
theorem write1_pushing (h : ∀ a ∈ answers.head?, a = .ok) :
    write1 b (s.pushing written left answers) = .ok (s.pushing (written ++ [b]) left answers.tail) := by
  rw [write1_ok h]
  simp only [State.pushing, List.length_append, ← List.append_assoc]
  rfl

theorem step_pushing {c : Byte} (h : ∀ a ∈ answers.head?, a = .ok) :
    step (s.pushing written (b :: c :: left) answers) =
      .next (s.pushing (written ++ [b]) (c :: left) answers.tail) := by
  rw [step_bf rfl, bfMicroStep]
  simp only [State.pushing_pending, write1_pushing h]
  rfl

/-- After the last byte the push returns Ok (R122). -/
theorem step_pushing_last (h : ∀ a ∈ answers.head?, a = .ok) :
    step (s.pushing written [b] answers) = .next ((s.pushing (written ++ [b]) [] answers.tail).finish .ok) := by
  rw [step_bf rfl, bfMicroStep]
  simp only [State.pushing_pending, write1_pushing h]
  rfl

/-- A write that fails ends the push (R137); SINK has kept the byte or not (20_memory.md R52). -/
theorem step_pushing_fail {e : IoError} {kept : Bool} :
    step (s.pushing written (b :: left) (.ioErr e kept :: answers)) =
      .next (raiseFail .bf (.ioFailure e) (s.bf.pos + written.length)
        ((s.pushing written (b :: left) answers).withSink
          (s.sink ++ (written ++ if kept then [b] else [])) answers)) := by
  rw [step_bf rfl, bfMicroStep]
  cases kept
  · rw [if_neg Bool.false_ne_true, List.append_nil]
    rfl
  · rw [if_pos rfl, ← List.append_assoc]
    rfl

theorem answers_ok_of_take {n : Nat} (h : ∀ a ∈ answers.take (n + 1), a = .ok) :
    (∀ a ∈ answers.head?, a = .ok) ∧ ∀ a ∈ answers.tail.take n, a = .ok := by
  cases answers with
  | nil => simp
  | cons a answers => simpa using h

/-- While SINK answers Ok, bytes are written one a step, as long as others follow them. -/
theorem stepN_pushing {bytes more : List Byte} (hmore : more ≠ []) (h : ∀ a ∈ answers.take bytes.length, a = .ok) :
    stepN bytes.length (s.pushing written (bytes ++ more) answers) =
      .next (s.pushing (written ++ bytes) more (answers.drop bytes.length)) := by
  induction bytes generalizing written answers with
  | nil => rw [List.append_nil]; rfl
  | cons b bytes ih =>
    obtain ⟨c, left, hleft⟩ := List.exists_cons_of_ne_nil (List.append_ne_nil_of_right_ne_nil bytes hmore)
    obtain ⟨hhead, htail⟩ := answers_ok_of_take h
    have hstep := step_pushing (s := s) (written := written) (b := b) (c := c) (left := left) hhead
    rw [← hleft] at hstep
    rw [List.cons_append, List.length_cons, stepN_succ_of_next hstep, ih htail, List.append_assoc, List.drop_tail]
    rfl

end pushing

theorem stepN_add_of_next {t : State} {m : Nat} (h : stepN m s = .next t) (n : Nat) :
    stepN (m + n) s = stepN n t := by
  induction m generalizing s with
  | zero => cases h; rw [Nat.zero_add]
  | succ m ih =>
    cases hs : step s with
    | next s' =>
      rw [stepN_succ_of_next hs] at h
      rw [Nat.add_right_comm, stepN_succ_of_next hs, ih h]
    | fault | refused =>
      rw [stepN, hs] at h
      cases h

/-- A push whose writes all succeed writes its bytes and returns Ok. -/
theorem stepN_pushing_all {bytes : List Byte} {answers : List SinkAnswer} (hne : bytes ≠ [])
    (h : ∀ a ∈ answers, a = .ok) : stepN bytes.length (s.pushing [] bytes answers) =
      .next ((s.pushing bytes [] (answers.drop bytes.length)).finish .ok) := by
  obtain ⟨first, last, rfl⟩ := List.eq_nil_or_concat bytes |>.resolve_left hne
  have hfirst := stepN_pushing (s := s) (written := []) (more := [last]) nofun
    fun a ha => h a (List.mem_of_mem_take (i := first.length) ha)
  rw [List.concat_eq_append, List.length_append, stepN_add_of_next hfirst, List.length_singleton, stepN_one,
    step_pushing_last fun a ha => h a (List.mem_of_mem_drop (List.mem_of_mem_head? ha)), List.tail_drop]
  rfl

/-- A push whose write fails after `n` good ones fails at that count. -/
theorem stepN_pushing_fail {bytes : List Byte} {n : Nat} (hn : n < bytes.length) (e : IoError) (kept : Bool)
    (rest : List SinkAnswer) :
    stepN (n + 1) (s.pushing [] bytes (List.replicate n .ok ++ .ioErr e kept :: rest)) =
      .next (raiseFail .bf (.ioFailure e) (s.bf.pos + n) ((s.pushing (bytes.take n) (bytes.drop n) rest).withSink
        (s.sink ++ bytes.take (if kept then n + 1 else n)) rest)) := by
  have hlen : (bytes.take n).length = n := List.length_take_of_le hn.le
  have hgood := stepN_pushing (s := s) (written := []) (more := bytes.drop n) (bytes := bytes.take n)
    (answers := List.replicate n .ok ++ .ioErr e kept :: rest) (List.drop_eq_nil_iff.not.2 (Nat.not_le.2 hn)) (by
      rw [hlen, List.take_left' List.length_replicate]
      exact fun a => List.eq_of_mem_replicate)
  rw [hlen, List.take_append_drop, List.drop_left' List.length_replicate, List.nil_append] at hgood
  have hsink : bytes.take n ++ (if kept then [bytes[n]] else []) = bytes.take (if kept then n + 1 else n) := by
    split_ifs
    · exact List.take_append_getElem hn
    · exact List.append_nil _
  rw [stepN_add_of_next hgood, stepN_one, List.drop_eq_getElem_cons hn, step_pushing_fail, hlen, hsink]

/-- A push that passes the checks begins with nothing written. -/
theorem exec_bfPush_pushing {b : Block} (ha : s.active = none) (hp : s.bf.phase = .ready) (hw : b.wf = true)
    (hbad : badTableSize b = false) : exec (.bfPush b) s = .next (s.pushing [] (frameBytes b) s.sinkAnswers) := by
  rw [State.pushing, List.append_nil]
  exact execBfPush_begins ha hp hw hbad

/-- Settles O26: every byte but the last leaves others to write. -/
theorem pushWritesTheCanonicalBytes : Obligations.PushWritesTheCanonicalBytes := by
  unfold Obligations.PushWritesTheCanonicalBytes
  intro s b ha hp hw hbad hsink
  exact ⟨_, _, exec_bfPush_pushing ha hp hw hbad, stepN_pushing_all (frameBytes_ne_nil hbad) hsink, rfl, rfl, rfl, rfl,
    fun a ha => hsink a (List.mem_of_mem_drop ha), rfl, rfl, rfl, rfl, rfl, rfl, rfl⟩

/-- Settles O27: the byte that SINK refuses is the first of those the good writes leave. -/
theorem pushStopsAtAFailedWrite : Obligations.PushStopsAtAFailedWrite := by
  unfold Obligations.PushStopsAtAFailedWrite
  intro s b n e kept rest ha hp hw hbad hn hanswers
  have hfail := stepN_pushing_fail (s := s) hn e kept rest
  rw [← hanswers] at hfail
  exact ⟨_, _, exec_bfPush_pushing ha hp hw hbad, hfail, rfl, rfl, by simp [State.pushing, hn.le], rfl, rfl⟩

/-! ### BP reads what BF wrote (R138) -/

/-- The form BP reads where BF wrote this block. -/
def formOf : Block → Instr
  | .header v => .blockHeader (headerBytes v)
  | .screenDesc r => .blockScreenDesc r
  | .globalTable es => .blockGlobalTable es
  | .graphicControl r => .blockGraphicControl (.fields r 0x00#8)
  | .comment subs => .blockComment subs
  | .appExt r => .blockAppExt (.fields r)
  | .plainText subs => .blockPlainText subs
  | .imageDesc r => .blockImageDesc r
  | .localTable es => .blockLocalTable es
  | .imageData r => .blockImageData r.m (chunk255 r.payload)
  | .trailer => .blockTrailer

theorem encode_formOf (b : Block) : encode (formOf b) = .bytes (frameBytes b) := by cases b <;> rfl

theorem formOf_wf {b : Block} (hw : b.wf = true) (hbad : badTableSize b = false) : (formOf b).wf = true := by
  cases b with
  | header v => cases v <;> rfl
  | globalTable es | localTable es => exact (Bool.not_eq_false' _).mp hbad
  | comment subs | appExt r | plainText subs => exact hw
  | imageData r => exact subsWf_chunk255 r.payload
  | screenDesc | graphicControl | imageDesc | trailer => rfl

section grammar
variable {phase phase' : BpPhase}

theorem grammarNext_globalTable {es : List Rgb} (h : grammarNext phase (.globalTable es) = some phase') :
    ∃ k, phase = .expectGlobalTable k ∧ es.length = tableEntries k ∧ phase' = .expectBody := by
  cases phase with
  | expectGlobalTable k =>
    obtain ⟨hl, hphase⟩ := Option.ite_none_right_eq_some.1 h
    exact ⟨k, rfl, hl, (Option.some.inj hphase).symm⟩
  | _ => cases h

theorem grammarNext_localTable {es : List Rgb} (h : grammarNext phase (.localTable es) = some phase') :
    ∃ k, phase = .expectLocalTable k ∧ es.length = tableEntries k ∧ phase' = .expectImageData := by
  cases phase with
  | expectLocalTable k =>
    obtain ⟨hl, hphase⟩ := Option.ite_none_right_eq_some.1 h
    exact ⟨k, rfl, hl, (Option.some.inj hphase).symm⟩
  | _ => cases h

variable {b : Block} (h : grammarNext phase b = some phase')
include h

/-- The grammar allows a colour table only with an announced size (30_encoding.md R66, R71). -/
theorem badTableSize_of_grammarNext : badTableSize b = false := by
  cases b with
  | globalTable es =>
    obtain ⟨k, -, hl, -⟩ := grammarNext_globalTable h
    rw [badTableSize, hl, tableCountLegal_tableEntries, Bool.not_true]
  | localTable es =>
    obtain ⟨k, -, hl, -⟩ := grammarNext_localTable h
    rw [badTableSize, hl, tableCountLegal_tableEntries, Bool.not_true]
  | _ => rfl

/-- BP reads a block's form in the phases in which the grammar allows the block. -/
theorem admits_formOf : admits (.block phase) (formOf b) = true := by
  cases b with
  | globalTable es =>
    obtain ⟨k, hphase, hl, -⟩ := grammarNext_globalTable h
    exact announcesGlobal_iff.2 ⟨k, hphase, hl⟩
  | localTable es =>
    obtain ⟨k, hphase, hl, -⟩ := grammarNext_localTable h
    exact announcesLocal_iff.2 ⟨k, hphase, hl⟩
  | _ =>
    cases phase <;> cases h
    rfl

/-- There the form returns the block and goes on to the grammar's phase. -/
theorem exec_formOf (ha : s.active = some .bp) (hphase : s.bp.phase = phase) :
    exec (formOf b) s = returnBlock b phase' s := by
  have hread : ∀ o, inBlockContext (formOf b) s o = o := fun o => inBlockContext_of ha (hphase ▸ admits_formOf h)
  cases b with
  | globalTable es =>
    obtain ⟨-, -, -, rfl⟩ := grammarNext_globalTable h
    exact hread _
  | localTable es =>
    obtain ⟨-, -, -, rfl⟩ := grammarNext_localTable h
    exact hread _
  | header v =>
    cases phase <;> cases h
    cases v <;> exact hread _
  | imageData r =>
    cases phase <;> cases h
    exact (hread _).trans (by rw [flatten_chunk255])
  | _ =>
    cases phase <;> cases h
    exact hread _

end grammar

/-! ### What the grammar says of a sequence (30_encoding.md R66) -/

section sequence
variable {phase : BpPhase} {b : Block} {blocks : List Block}

theorem grammatical_nil (h : grammatical phase [] = true) : phase = .done := by
  cases phase with
  | done => rfl
  | _ => cases h

theorem grammatical_cons (h : grammatical phase (b :: blocks) = true) :
    ∃ phase', grammarNext phase b = some phase' ∧ grammatical phase' blocks = true := by
  rw [grammatical] at h
  split at h
  · exact ⟨_, ‹_›, h⟩
  · cases h

theorem badTableSize_of_grammatical (h : grammatical phase blocks = true) : ∀ b ∈ blocks, badTableSize b = false := by
  induction blocks generalizing phase with
  | nil => nofun
  | cons b blocks ih =>
    obtain ⟨phase', hb, hblocks⟩ := grammatical_cons h
    exact List.forall_mem_cons.2 ⟨badTableSize_of_grammarNext hb, ih hblocks⟩

end sequence

/-! ### The HOST's pushes and pulls (30_encoding.md R91) -/

/-- The HOST pushes a block. -/
def pushAction (b : Block) : HostAction := .command { word := 0x00000020#32, operand := .record b }

/-- The HOST pulls a block. -/
def pullAction : HostAction := .command { word := 0x00000010#32, operand := .none }

/-- The state after the push of a block that began in `s` and met no failing write. -/
def State.pushed (s : State) (b : Block) : State :=
  (s.pushing (frameBytes b) [] (s.sinkAnswers.drop (frameBytes b).length)).finish .ok

/-- The state after the pull of a block that began in `s`, went on to this phase and left these answers of SRC. -/
def State.pulled (s : State) (b : Block) (phase' : BpPhase) (answers : List SrcAnswer) : State :=
  ((s.pulling (frameBytes b) answers).withBp
    { s.bp with phase := phase', pos := s.bp.pos + (frameBytes b).length, buf := [] }).finish (.block b)

section actions
variable {b : Block} {blocks : List Block} {rest : List HostAction} (ha : s.active = none)
include ha

theorem step_pushAction (hh : s.host = pushAction b :: rest) : step s = exec (.bfPush b) (s.withHost rest) :=
  step_command ha hh ((decodeCommand_iff_eq (o := .bfPush) rfl rfl rfl rfl).2 rfl)

theorem step_pullAction (hh : s.host = pullAction :: rest) : step s = exec .bpPull (s.withHost rest) :=
  step_command ha hh ((decodeCommand_iff_eq (o := .bpPull) rfl rfl rfl rfl).2 rfl)

/-- A push to a SINK that never fails, from the command to its result. -/
theorem stepN_pushAction (hh : s.host = pushAction b :: rest) (hp : s.bf.phase = .ready) (hw : b.wf = true)
    (hbad : badTableSize b = false) (hsink : sinkNeverFails s) :
    stepN ((frameBytes b).length + 1) s = .next ((s.withHost rest).pushed b) := by
  have hbegin := (step_pushAction ha hh).trans (exec_bfPush_pushing (s := s.withHost rest) ha hp hw hbad)
  exact (stepN_succ_of_next hbegin _).trans (stepN_pushing_all (frameBytes_ne_nil hbad) hsink)

/-- Pushes to a SINK that never fails write the blocks' bytes one after the other. -/
theorem stepN_pushes (hh : s.host = blocks.map pushAction) (hp : s.bf.phase = .ready)
    (hw : ∀ b ∈ blocks, b.wf = true) (hbad : ∀ b ∈ blocks, badTableSize b = false) (hsink : sinkNeverFails s) :
    ∃ n t, stepN n s = .next t ∧ t.active = none ∧ t.host = [] ∧
      t.results = s.results ++ blocks.map (fun _ => .ok) ∧ t.sink = s.sink ++ blocks.flatMap frameBytes := by
  induction blocks generalizing s with
  | nil => exact ⟨0, s, rfl, ha, hh, (List.append_nil _).symm, (List.append_nil _).symm⟩
  | cons b blocks ih =>
    obtain ⟨hwb, hw⟩ := List.forall_mem_cons.1 hw
    obtain ⟨hbadb, hbad⟩ := List.forall_mem_cons.1 hbad
    have hpush := stepN_pushAction ha hh hp hwb hbadb hsink
    obtain ⟨n, t, hn, hta, hth, hresults, hbytes⟩ :=
      ih (s := (s.withHost (blocks.map pushAction)).pushed b) rfl rfl hp hw hbad
        fun a h => hsink a (List.mem_of_mem_drop h)
    refine ⟨_, t, (stepN_add_of_next hpush n).trans hn, hta, hth, ?_, ?_⟩
    · rw [hresults, List.map_cons, List.append_cons]
      rfl
    · rw [hbytes, List.flatMap_cons, ← List.append_assoc]
      rfl

/-- A pull of a block that the grammar allows and SRC offers in BF's bytes, from the command to its result. -/
theorem stepN_pullAction {answers : List SrcAnswer} {phase' : BpPhase} (hh : s.host = pullAction :: rest)
    (hg : grammarNext s.bp.phase b = some phase') (hw : b.wf = true) (hbound : s.params.maxBlockBytes = none)
    (hsrc : s.src = srcOf (frameBytes b) ++ answers) :
    stepN ((frameBytes b).length + 1) s = .next ((s.withHost rest).pulled b phase' answers) := by
  obtain ⟨t, hbegin, hread⟩ := pullReadsExactlyOneForm (s.withHost rest) (formOf b) (frameBytes b) answers ha
    (formOf_wf hw (badTableSize_of_grammarNext hg)) (admits_formOf hg) (encode_formOf b)
    (fun n hn => nomatch hbound.symm.trans hn) hsrc
  rw [stepN_succ_of_next ((step_pullAction ha hh).trans hbegin), hread]
  exact exec_formOf hg rfl rfl

/-- Pulls of a grammatical sequence in BF's bytes return its blocks and then End, and count the bytes. -/
theorem stepN_pulls (hh : s.host = List.replicate (blocks.length + 1) pullAction)
    (hg : grammatical s.bp.phase blocks = true) (hw : ∀ b ∈ blocks, b.wf = true)
    (hbound : s.params.maxBlockBytes = none) (hsrc : s.src = srcOf (blocks.flatMap frameBytes)) :
    ∃ n t, stepN n s = .next t ∧ t.active = none ∧ t.host = [] ∧
      t.results = s.results ++ blocks.map .block ++ [.endOfBlocks] ∧
      t.bp.pos = s.bp.pos + (blocks.flatMap frameBytes).length := by
  induction blocks generalizing s with
  | nil =>
    obtain ⟨-, hend, -⟩ := pullDispatchesOnThePhase (s.withHost []) ha
    have hstep := (step_pullAction ha hh).trans (hend (grammatical_nil hg))
    exact ⟨1, _, (stepN_one s).trans hstep, rfl, rfl, by simp, rfl⟩
  | cons b blocks ih =>
    obtain ⟨hwb, hw⟩ := List.forall_mem_cons.1 hw
    obtain ⟨phase', hgb, hg⟩ := grammatical_cons hg
    have hpull := stepN_pullAction (answers := srcOf (blocks.flatMap frameBytes)) ha hh hgb hwb hbound (by
      rw [hsrc, srcOf, List.flatMap_cons, List.map_append]
      rfl)
    obtain ⟨n, t, hn, hta, hth, hresults, hpos⟩ := ih (s := (s.withHost _).pulled b phase' _) rfl rfl hg hw hbound rfl
    refine ⟨_, t, (stepN_add_of_next hpull n).trans hn, hta, hth, ?_, ?_⟩
    · rw [hresults, List.map_cons, List.append_cons s.results]
      rfl
    · rw [hpos, List.flatMap_cons, List.length_append, ← Nat.add_assoc]
      rfl

end actions

/-- Settles O54: the pushes write the blocks' bytes one after the other, and each pull reads one block of them. -/
theorem framingAndParsingAgree : Obligations.FramingAndParsingAgree := by
  unfold Obligations.FramingAndParsingAgree
  intro blocks s hg hw ha hp hsink hempty hh
  obtain ⟨n, t, hn, hta, hth, hresults, hbytes⟩ :=
    stepN_pushes ha hh hp hw (badTableSize_of_grammatical hg) hsink
  rw [hempty, List.nil_append] at hbytes
  refine ⟨n, t, hn, hta, hth, hresults, fun u hua hbound hphase hsrc huh => ?_⟩
  rw [hbytes] at hsrc ⊢
  exact stepN_pulls hua huh (hphase ▸ hg) hw hbound hsrc

end Sys2Proof.Machine

/-! The LZW Decoder (42_lzw_decoder.md): the strings of a dictionary, what each code class does, that no run of LD
depends on the bytes after its last code, and that each run ends. -/

namespace Sys2Proof.Machine

variable {s t : State}

/-- Settles O7: the decoders compute these words. -/
theorem wordsOfTheSpecDecode : Obligations.WordsOfTheSpecDecode := by
  unfold Obligations.WordsOfTheSpecDecode
  decide

/-! ### Strings (42_lzw_decoder.md R153, R154) -/

/-- A stored code has its cell, with an older data code before it, and its string goes on from that code's. -/
theorem seqOf_stored {m next : Nat} {a : Arena} {c : Code} (h : Arena.wf m next a = true)
    (hc : firstFree m ≤ c.toNat) (hn : c.toNat < next) :
    ∃ e, entryAt a c = some e ∧ dataCode m c.toNat e.prefixCode = true ∧
      seqOf a c = seqOf a e.prefixCode ++ [e.suffix] ∧ firstOf a c = firstOf a e.prefixCode := by
  induction a generalizing next with
  | nil =>
    have : next = firstFree m := by simpa [Arena.wf] using h
    omega
  | cons x older ih =>
    obtain ⟨hnext, -, hprefix, -, hold⟩ := arena_cons_iff.1 h
    have ne_of_lt {p : Code} (hp : p.toNat < x.code.toNat) : x.code ≠ p := by rintro rfl; omega
    by_cases hx : x.code = c
    · have hne := ne_of_lt (dataCode_iff.1 hprefix).1
      rw [hx] at hprefix
      exact ⟨x, by rw [entryAt, if_pos hx], hprefix, by rw [seqOf, if_pos hx, seqOf, if_neg hne],
        by rw [firstOf, if_pos hx, firstOf, if_neg hne]⟩
    · have hlt : c.toNat < x.code.toNat := by
        have : x.code.toNat ≠ c.toNat := fun he => hx (BitVec.eq_of_toNat_eq he)
        omega
      obtain ⟨e, he, hdata, hseq, hfirst⟩ := ih hold hlt
      have hne : x.code ≠ e.prefixCode := ne_of_lt ((dataCode_iff.1 hdata).1.trans hlt)
      exact ⟨e, by rw [entryAt, if_neg hx, he], hdata, by rw [seqOf, if_neg hx, seqOf, if_neg hne, hseq],
        by rw [firstOf, if_neg hx, firstOf, if_neg hne, hfirst]⟩

/-- Each index of a string but its first has a code of its own above the EOI code. -/
theorem length_seqOf_le {m next : Nat} {a : Arena} {c : Code} (h : Arena.wf m next a = true)
    (hc : dataCode m next c = true) : (seqOf a c).length ≤ c.toNat - eoiOf m + 1 := by
  induction hn : c.toNat using Nat.strong_induction_on generalizing c with
  | _ n ih =>
    subst hn
    rcases dataCode_cases hc with hroot | hfree
    · rw [(seqOf_root h (by simp only [firstFree]; omega)).1]
      simp
    · have hlt := (dataCode_iff.1 hc).1
      obtain ⟨e, -, hdata, hseq, -⟩ := seqOf_stored h hfree hlt
      have hprefix := (dataCode_iff.1 hdata).1
      have := ih _ hprefix (dataCode_mono hlt.le hdata) rfl
      rw [hseq, List.length_append, List.length_singleton]
      simp only [firstFree, eoiOf] at *
      omega

/-- Settles O37: by the cell of the code. -/
theorem stringsFollowThePrefixChain : Obligations.StringsFollowThePrefixChain := by
  unfold Obligations.StringsFollowThePrefixChain
  intro m next a _ hm _ h
  refine ⟨fun c hc => ?_, fun c hc hn => ?_, seqOf_head a, fun c => seqOf_range hm h⟩
  · have hc : c.toNat < firstFree m := by simp only [firstFree]; omega
    exact ⟨(seqOf_root h hc).1, entryAt_none h (.inl hc)⟩
  · have hdata : dataCode m next c = true := dataCode_iff.2 ⟨hn, by simp only [clearOf]; omega, hc.ne'⟩
    obtain ⟨e, he, hprefix, hseq, hfirst⟩ := seqOf_stored h hc hn
    exact ⟨e, he, (entryAt_some he).2, (dataCode_iff.1 hprefix).1, hseq, hfirst, length_seqOf_le h hdata⟩

/-! ### LD_RUN (42_lzw_decoder.md R139) -/

/-- With a min code size in its range LD starts to run. -/
theorem exec_ldRun_starts {m : Byte} (payload : List Byte) (ha : s.active = none) (hp : s.ld.phase ≠ .failed)
    (hm : codeSizeLegal m = true) : exec (.ldRun m payload) s =
      .next ((s.withLd (s.ld.start m payload s.maxPixels)).withActive (some .ld)) := by
  rw [exec, execLdRun, whenIdle_idle ha]
  split
  · contradiction
  · rw [if_pos hm]

/-- Settles O29: by the phase and the min code size. -/
theorem decoderRunStarts : Obligations.DecoderRunStarts := by
  unfold Obligations.DecoderRunStarts
  intro s m payload ha
  refine ⟨fun k hp hk => ?_, fun hp hm => ?_, fun hp h2 h8 => ?_⟩
  · simp only [exec, execLdRun, whenIdle_idle ha, hp, hk, repeatFail]
  · rw [exec, execLdRun, whenIdle_idle ha]
    split
    · contradiction
    · rw [if_neg (mt (codeSizeLegal_iff m).1 hm)]
  · exact ⟨_, exec_ldRun_starts payload ha hp ((codeSizeLegal_iff m).2 ⟨h2, h8⟩), rfl, codeSize_m h8,
      codeSize_width h8, firstFree_next h8, rfl, rfl, rfl, rfl, rfl, rfl, rfl, rfl⟩

/-! ### The code classes (42_lzw_decoder.md R140 to R151) -/

/-- Settles O30: the step that has too few bits. -/
theorem decoderFailsWithoutEoi : Obligations.DecoderFailsWithoutEoi := fun _ => step_ld_short

/-- Settles O31: both codes are the classes that R89 gives them. -/
theorem clearAndEoiTakeEffect : Obligations.ClearAndEoiTakeEffect := by
  unfold Obligations.ClearAndEoiTakeEffect
  intro s c ha _ hm
  refine ⟨fun hc => ?_, fun hc => inCodeContext_of ha (admits_of_decodeCode (decodeCode_eoi hc))⟩
  have hwidth : (s.ld.m + 1#4).toNat = s.ld.m.toNat + 1 := width_succ (lt_of_le_of_lt hm (by decide))
  exact ⟨_, inCodeContext_of ha (admits_of_decodeCode (decodeCode_clear hc)), hwidth, firstFree_next hm, rfl⟩

/-- A string goes out within the limit, and fails where the code started above it (R151). -/
theorem outputString_eq (e : List Byte) (c : Code) (u : LdUnit) (s : State) : outputString e c u s = .next
    (if s.ld.out.length + e.length ≤ s.ld.maxOut.toNat then s.withLd { u with out := u.out ++ e, prev := some c }
    else raiseFail .ld .imageTooLarge s.ld.bitpos s) := by
  rcases outputString_cases e c u s with ⟨hl, h⟩ | ⟨hl, h⟩
  · rw [h, if_pos hl]
  · rw [h, if_neg hl.not_ge]

/-- Settles O32: its class puts the index out. -/
theorem firstRootIsOutput : Obligations.FirstRootIsOutput := by
  unfold Obligations.FirstRootIsOutput
  intro s c ha hc hp
  rw [exec, execCodeRootFirst,
    inCodeContext_of ha (admits_of_decodeCode (decodeCode_eq_codeRootFirst_iff.2 ⟨hc, hp⟩))]
  exact outputString_eq _ c _ s

section known
variable {c p : Code} {i : Instr} (ha : s.active = some .ld) (hp : s.ld.prev = some p)

/-- With room in the dictionary the pair is inserted at the next code and the width follows (R148, R149). -/
theorem insertAndOutput_room (k : Byte) (e : List Byte) (c : Code) (hn : s.ld.next.toNat ≤ 4095) :
    insertAndOutput p k e c s = .next
      (if s.ld.out.length + e.length ≤ s.ld.maxOut.toNat then
        s.withLd { s.ld with
          bitpos := s.ld.bitpos + s.ld.width.toNat
          arena  := { code := s.ld.next.setWidth 12, prefixCode := p, suffix := k } :: s.ld.arena
          next   := s.ld.next + 1#13
          width  := if s.ld.next.toNat + 1 = 2 ^ s.ld.width.toNat ∧ s.ld.width.toNat < 12 then s.ld.width + 1#4
                    else s.ld.width
          out    := s.ld.out ++ e
          prev   := some c }
      else raiseFail .ld .imageTooLarge s.ld.bitpos s) := by
  rw [insertAndOutput]
  rcases s.ld.advance.insert_cases s.params.fullDictPolicy p k with ⟨-, h⟩ | ⟨hfull, -, -⟩ | ⟨hfull, -, -⟩
  · rw [h, ← next_succ (n := s.ld.next) (by omega)]
    exact outputString_eq e c _ s
  all_goals
    simp only [LdUnit.advance, Config.dictCap] at hfull
    omega

include ha hp

/-- ROOT and DEFINED share one meaning (R145). -/
theorem exec_known (hi : i = .codeRoot c ∧ c.toNat < 2 ^ s.ld.m.toNat ∨
      i = .codeDefined c ∧ 2 ^ s.ld.m.toNat + 1 < c.toNat ∧ c.toNat < s.ld.next.toNat) :
    exec i s = insertAndOutput p (firstOf s.ld.arena c) (seqOf s.ld.arena c) c s := by
  have hprev : s.ld.prev ≠ none := by simp [hp]
  have hknown : exec i s = knownCode c s := by
    rcases hi with ⟨rfl, hroot⟩ | ⟨rfl, hgt, hlt⟩
    · exact inCodeContext_of ha (admits_of_decodeCode (decodeCode_eq_codeRoot_iff.2 ⟨hroot, hprev⟩))
    · exact inCodeContext_of ha (admits_of_decodeCode (decodeCode_eq_codeDefined_iff.2 ⟨hgt, hlt, hprev⟩))
  rw [hknown, knownCode, hp]

/-- KWKWK (R146). -/
theorem exec_kwkwk (hc : c.toNat = s.ld.next.toNat) (hgt : eoiOf s.ld.m.toNat < c.toNat) : exec (.codeKwkwk c) s =
    insertAndOutput p (firstOf s.ld.arena p) (seqOf s.ld.arena p ++ [firstOf s.ld.arena p]) c s := by
  have hprev : s.ld.prev ≠ none := by simp [hp]
  have hle : s.ld.next.toNat ≤ 4095 := by have := c.isLt; omega
  have hclass := (decodeCode_eq_codeKwkwk_iff (hc ▸ hgt)).2 ⟨hc, hprev, hle⟩
  rw [exec, execCodeKwkwk, inCodeContext_of ha (admits_of_decodeCode hclass), hp]

end known

/-- Settles O33: there is room for the pair. -/
theorem knownCodeInsertsAndOutputs : Obligations.KnownCodeInsertsAndOutputs := by
  unfold Obligations.KnownCodeInsertsAndOutputs
  intro s c p i ha hp hn hi
  rw [exec_known ha hp hi, insertAndOutput_room _ _ c hn]

/-- Settles O34: a 12-bit code equal to the next one leaves room for itself. -/
theorem kwkwkRepeatsTheFirstIndex : Obligations.KwkwkRepeatsTheFirstIndex := by
  unfold Obligations.KwkwkRepeatsTheFirstIndex
  intro s c p ha hp hc hgt
  have hle : s.ld.next.toNat ≤ 4095 := by have := c.isLt; omega
  have hcode : s.ld.next.setWidth 12 = c := BitVec.eq_of_toNat_eq ((next_code (by omega)).trans hc.symm)
  rw [exec_kwkwk ha hp hc hgt, insertAndOutput_room _ _ c hle, hcode, List.length_append, List.length_singleton]

/-- Settles O35: the insertion fails or does nothing, by the policy. -/
theorem fullDictionaryFollowsThePolicy : Obligations.FullDictionaryFollowsThePolicy := by
  unfold Obligations.FullDictionaryFollowsThePolicy
  intro s c p i ha hp hn hi
  have hfull : ¬s.ld.advance.next.toNat < Config.dictCap := by simp only [LdUnit.advance, Config.dictCap]; omega
  rw [exec_known ha hp hi, insertAndOutput, LdUnit.insert.eq_def, if_neg hfull]
  refine ⟨fun hpolicy => ?_, fun hpolicy => ?_⟩ <;> rw [hpolicy]
  · rfl
  · exact outputString_eq _ c _ s

/-- Settles O36: its class raises the failure. -/
theorem undefinedCodeFails : Obligations.UndefinedCodeFails := fun _ _ ha hc hu =>
  inCodeContext_of ha (admits_of_decodeCode (decodeCode_eq_codeUndefined_iff.2 ⟨hc, hu⟩))

/-! ### What a code does depends on the registers of the run alone -/

/-- The registers of the run of `u`, beside the payload, the phase and the error record of `v`. -/
def LdUnit.rerun (v u : LdUnit) : LdUnit :=
  { u with phase := v.phase, input := v.input, err := v.err, errPos := v.errPos }

/-- What a code can do: the run goes on with new registers, it returns its output, or it fails. -/
inductive CodeEffect where
  | goesOn (u : LdUnit)
  | returns
  | fails (k : ErrorKind)

/-- The state after a code did this to a run with the registers of `u`, in the LD `v` of the machine `r`. -/
def CodeEffect.apply (e : CodeEffect) (u v : LdUnit) (r : State) : State :=
  match e with
  | goesOn u' => r.withLd (v.rerun u')
  | returns => (r.withLd { (v.rerun u).advance with phase := .done }).finish (.indices u.out)
  | fails k => raiseFail .ld k u.bitpos (r.withLd (v.rerun u))

/-- The registers `u'` have the bits of one more code consumed than `u`, and its min code size and limit. -/
def LdUnit.ConsumedTo (u u' : LdUnit) : Prop :=
  u'.bitpos = u.bitpos + u.width.toNat ∧ u'.m = u.m ∧ u'.maxOut = u.maxOut

/-- A run that goes on has consumed the code's bits. -/
def CodeEffect.Consumes (e : CodeEffect) (u : LdUnit) : Prop := ∀ u', e = goesOn u' → u.ConsumedTo u'

section effect
variable {u : LdUnit}

theorem LdUnit.insert_rerun (v u : LdUnit) (policy : Config.FullDictPolicy) (p : Code) (k : Byte) :
    (v.rerun u).advance.insert policy p k = (u.advance.insert policy p k).map v.rerun := by
  simp only [LdUnit.insert, LdUnit.growWidth_eq, LdUnit.advance, LdUnit.rerun]
  split
  · rfl
  · cases policy <;> rfl

/-- The output and the limit are registers of the run. -/
theorem outputString_effect (e : List Byte) (c : Code) {u' : LdUnit} (hu' : u.ConsumedTo u') :
    ∃ f : CodeEffect, f.Consumes u ∧
      ∀ v r, outputString e c (v.rerun u') (r.withLd (v.rerun u)) = .next (f.apply u v r) := by
  by_cases hl : u.out.length + e.length ≤ u.maxOut.toNat
  · exact ⟨.goesOn { u' with out := u'.out ++ e, prev := some c }, by rintro _ ⟨⟩; exact hu', fun v r =>
      (outputString_eq ..).trans (congrArg Host.Outcome.next (if_pos hl))⟩
  · exact ⟨.fails .imageTooLarge, nofun, fun v r =>
      (outputString_eq ..).trans (congrArg Host.Outcome.next (if_neg hl))⟩

/-- The dictionary is a register of the run. -/
theorem insertAndOutput_effect (policy : Config.FullDictPolicy) (p : Code) (k : Byte) (e : List Byte) (c : Code) :
    ∃ f : CodeEffect, f.Consumes u ∧ ∀ v r, r.params.fullDictPolicy = policy →
      insertAndOutput p k e c (r.withLd (v.rerun u)) = .next (f.apply u v r) := by
  cases hu' : u.advance.insert policy p k with
  | none =>
    refine ⟨.fails .lzwCodeOutOfRange, nofun, fun v r hr => ?_⟩
    simp only [insertAndOutput, State.withLd_ld, State.withLd_params, hr, LdUnit.insert_rerun, hu']
    rfl
  | some u' =>
    have hsame : u.ConsumedTo u' := by
      rw [LdUnit.insert_frame hu']
      exact ⟨rfl, rfl, rfl⟩
    obtain ⟨f, hf, hout⟩ := outputString_effect e c hsame
    refine ⟨f, hf, fun v r hr => ?_⟩
    simp only [insertAndOutput, State.withLd_ld, State.withLd_params, hr, LdUnit.insert_rerun, hu']
    exact hout v r

/-- A code class does the same in every machine of the same policy, whatever its payload and its error record. -/
theorem exec_code_effect {i : Instr} (policy : Config.FullDictPolicy) (hc : admits u.context i = true) :
    ∃ f : CodeEffect, f.Consumes u ∧ ∀ v r, r.active = some .ld → r.params.fullDictPolicy = policy →
      exec i (r.withLd (v.rerun u)) = .next (f.apply u v r) := by
  have hin (v : LdUnit) {r : State} (ha : r.active = some .ld) (o : StepOutcome) :
      inCodeContext i (r.withLd (v.rerun u)) o = o := inCodeContext_of ha hc
  cases i with
  | codeClear c =>
    refine ⟨.goesOn { u.advance with
      width := u.m + 1#4, next := BitVec.ofNat 13 (firstFree u.m.toNat), prev := none, arena := [] }, ?_,
      fun v r ha _ => hin v ha _⟩
    rintro _ ⟨⟩
    exact ⟨rfl, rfl, rfl⟩
  | codeEoi c => exact ⟨.returns, nofun, fun v r ha _ => hin v ha _⟩
  | codeUndefined c => exact ⟨.fails .lzwCodeOutOfRange, nofun, fun v r ha _ => hin v ha _⟩
  | codeRootFirst c =>
    obtain ⟨f, hf, h⟩ := outputString_effect (u := u) [c.setWidth 8] c (u' := u.advance) ⟨rfl, rfl, rfl⟩
    exact ⟨f, hf, fun v r ha _ => (hin v ha _).trans (h v r)⟩
  | codeRoot c | codeDefined c =>
    obtain ⟨p, hp⟩ := Option.isSome_iff_exists.1 (prev_isSome_of_admits (c := c) hc (by simp))
    obtain ⟨f, hf, h⟩ := insertAndOutput_effect (u := u) policy p (firstOf u.arena c) (seqOf u.arena c) c
    refine ⟨f, hf, fun v r ha hr => (hin v ha _).trans ?_⟩
    rw [← h v r hr, knownCode, show (r.withLd (v.rerun u)).ld.prev = some p from hp]
    rfl
  | codeKwkwk c =>
    obtain ⟨p, hp⟩ := Option.isSome_iff_exists.1 (prev_isSome_of_admits (c := c) hc (by simp))
    obtain ⟨f, hf, h⟩ := insertAndOutput_effect (u := u) policy p (firstOf u.arena p)
      (seqOf u.arena p ++ [firstOf u.arena p]) c
    refine ⟨f, hf, fun v r ha hr => (hin v ha _).trans ?_⟩
    rw [← h v r hr, show (r.withLd (v.rerun u)).ld.prev = some p from hp]
    rfl
  | _ => cases hc

end effect

theorem bitAt_append {bs : List Byte} (junk : List Byte) {k : Nat} (h : k < 8 * bs.length) :
    bitAt (bs ++ junk) k = bitAt bs k := by
  rw [bitAt, bitAt, List.getD_append _ _ _ _ (by omega)]

theorem codeAt_append {bs : List Byte} (junk : List Byte) {p w : Nat} (h : p + w ≤ 8 * bs.length) :
    codeAt (bs ++ junk) p w = codeAt bs p w := by
  induction w generalizing p with
  | zero => rfl
  | succ w ih => rw [codeAt, codeAt, bitAt_append junk (by omega), ih (by omega)]

/-- A micro-step of LD that has its bits does the same in every machine of the same policy, whatever follows the
payload. -/
theorem step_ld_effect (hb : s.ld.bitpos + s.ld.width.toNat ≤ 8 * s.ld.input.length) :
    ∃ f : CodeEffect, f.Consumes s.ld ∧ ∀ (junk : List Byte) (v : LdUnit) (r : State),
      v.input = s.ld.input ++ junk → r.active = some .ld → r.params = s.params →
        step (r.withLd (v.rerun s.ld)) = .next (f.apply s.ld v r) := by
  obtain ⟨f, hf, h⟩ := exec_code_effect (u := s.ld) s.params.fullDictPolicy (admits_decodeCode s.ld.m.toNat
    s.ld.next.toNat s.ld.prev (BitVec.ofNat 12 (codeAt s.ld.input s.ld.bitpos s.ld.width.toNat)))
  refine ⟨f, hf, fun junk v r hv ha hr => ?_⟩
  have hbits : s.ld.bitpos + s.ld.width.toNat ≤ 8 * v.input.length := by
    rw [hv, List.length_append]
    omega
  have hstep := step_ld_code (s := r.withLd (v.rerun s.ld)) ha hbits
  rw [hstep, ← h v r ha (by rw [hr]), ← codeAt_append junk hb, ← hv]
  rfl

/-! ### Results are only added -/

/-- A step adds at most one result, and without one the unit that runs runs on. -/
theorem step_results (hx : step s = .next t) :
    t.results = s.results ∧ (s.active ≠ none → t.active = s.active) ∨ ∃ r, t.results = s.results ++ [r] := by
  by_cases ha : s.active = none
  · rcases step_idle_returnsNoBlock ha hx with h | ⟨r, h, -⟩
    · exact .inl ⟨h, absurd ha⟩
    · exact .inr ⟨r, h⟩
  · obtain ⟨-, -, -, -, -, -, ⟨h, hact⟩ | ⟨-, r⟩⟩ := streamsMoveOneByteAStep s t ha hx
    · exact .inl ⟨h, fun _ => hact⟩
    · exact .inr r

/-- A unit that stops running has added a result. -/
theorem stepN_results {n : Nat} (hx : stepN n s = .next t) :
    ∃ l, t.results = s.results ++ l ∧ (s.active ≠ none → t.active = none → l ≠ []) := by
  induction n generalizing s with
  | zero =>
    cases hx
    exact ⟨[], (List.append_nil _).symm, fun ha hn => absurd hn ha⟩
  | succ n ih =>
    cases hs : step s with
    | next s' =>
      obtain ⟨l, hl, hne⟩ := ih (stepN_succ_of_next hs n ▸ hx)
      rcases step_results hs with ⟨hr, hact⟩ | ⟨r, hr⟩
      · exact ⟨l, hr ▸ hl, fun ha => hne (hact ha ▸ ha)⟩
      · exact ⟨r :: l, by rw [hl, hr, ← List.append_cons], fun _ _ => nofun⟩
    | fault | refused => rw [stepN, hs] at hx; cases hx

/-- A command of the HOST begins to run, or it ends with one result. -/
theorem exec_command_outcome {i : Instr} (hc : admits .command i = true) (hx : exec i s = .next t) :
    t.active ≠ none ∨ ∃ r, t.results = s.results ++ [r] := by
  have outcome {v : UnitId} {s' : State} (h : RunsOrEnds v s' t) (hs : s'.results = s.results) :
      t.active ≠ none ∨ ∃ r, t.results = s.results ++ [r] := by
    rcases h.outcome with ⟨-, ha⟩ | ⟨-, hr⟩
    · exact .inl (by simp [ha])
    · exact .inr (hs ▸ hr)
  cases i with
  | reset u all =>
    obtain ⟨-, ⟨⟩⟩ := whenIdle_next hx
    cases all <;> cases u <;> exact .inr ⟨.ok, rfl⟩
  | cfgWrite | cfgRead | statusRead =>
    obtain ⟨-, ⟨⟩⟩ := whenIdle_next hx
    exact .inr ⟨_, rfl⟩
  | bpPull =>
    obtain ⟨u, h, -⟩ := execBpPull_writes hx
    exact outcome h rfl
  | bfPush b =>
    obtain ⟨u, h, -⟩ := execBfPush_writes hx
    exact outcome h rfl
  | ldRun m payload =>
    obtain ⟨u, h⟩ := execLdRun_writes hx
    exact outcome h rfl
  | leRun m indices =>
    obtain ⟨u, h⟩ := execLeRun_writes hx
    exact outcome h rfl
  | _ => cases hc

/-! ### Bytes after the last code (42_lzw_decoder.md R152) -/

/-- The same state with more bytes in LD's payload. -/
def State.withJunk (s : State) (junk : List Byte) : State := s.withLd { s.ld with input := s.ld.input ++ junk }

/-- A step of LD that does not fail does the same with more bytes in the payload. -/
theorem step_ld_withJunk (junk : List Byte) (ha : s.active = some .ld) (hx : step s = .next t)
    (hok : ∀ k, t.results ≠ s.results ++ [.fail k]) : step (s.withJunk junk) = .next (t.withJunk junk) := by
  rcases Nat.lt_or_ge (8 * s.ld.input.length) (s.ld.bitpos + s.ld.width.toNat) with hb | hb
  · rw [step_ld_short ha hb] at hx
    cases hx
    exact absurd (raiseFail_results ..) (hok _)
  · obtain ⟨f, -, h⟩ := step_ld_effect hb
    have hshort : step s = .next (f.apply s.ld s.ld s) := h [] s.ld s (List.append_nil _).symm ha rfl
    have hlong : step (s.withJunk junk) = .next (f.apply s.ld (s.withJunk junk).ld s) :=
      h junk (s.withJunk junk).ld s rfl ha rfl
    cases hx.symm.trans hshort
    rw [hlong]
    cases f <;> rfl

/-- A step that runs no command and starts no unit has no use for LD. -/
theorem step_idle_withJunk (junk : List Byte) (ha : s.active = none) (hx : step s = .next t) (hta : t.active = none)
    (hr : t.results = s.results) : step (s.withJunk junk) = .next (t.withJunk junk) := by
  have ha' : (s.withJunk junk).active = none := ha
  rcases hh : s.host with _ | ⟨q | answers | answers, rest⟩
  · rw [step_idle ha hh] at hx
    cases hx
    exact step_idle ha' hh
  · cases hd : decodeCommand q with
    | command i =>
      rw [step_command ha hh hd] at hx
      rcases exec_command_outcome (decodeCommand_admits hd) hx with hact | ⟨r, hres⟩
      · exact absurd hta hact
      · simp [hr] at hres
    | reject r =>
      rw [step_reject ha hh hd] at hx
      cases hx
  · rw [step_bindSrc ha hh] at hx
    cases hx
    exact step_bindSrc ha' hh
  · rw [step_bindSink ha hh] at hx
    cases hx
    exact step_bindSink ha' hh

/-- What is left of a run that returns `x`: LD runs and `x` is the one result to come, or it has returned and no result
is to come. -/
def ReturnsFrom (x : List Byte) (s t : State) : Prop :=
  s.active = some .ld ∧ t.results = s.results ++ [.indices x] ∨ s.active = none ∧ t.results = s.results

/-- A step of such a run is the same with more bytes in the payload. -/
theorem ReturnsFrom.step_withJunk {x : List Byte} {n : Nat} {s' : State} (junk : List Byte) (h : ReturnsFrom x s t)
    (hs : step s = .next s') (hx : stepN n s' = .next t) (hta : t.active = none) :
    step (s.withJunk junk) = .next (s'.withJunk junk) ∧ ReturnsFrom x s' t := by
  obtain ⟨l, hl, hne⟩ := stepN_results hx
  have idle_of (h : t.results = s'.results) : s'.active = none := by
    by_contra ha
    exact hne ha hta (List.self_eq_append_right.1 (h.symm.trans hl))
  rcases h with ⟨ha, hr⟩ | ⟨ha, hr⟩ <;> rcases step_results hs with ⟨hs', hact⟩ | ⟨r, hs'⟩
  · -- LD runs on
    refine ⟨step_ld_withJunk junk ha hs (by simp [hs']), .inl ⟨?_, hs' ▸ hr⟩⟩
    rw [hact (by simp [ha]), ha]
  · -- LD returns, and `x` is what it returns
    rw [hl, hs', List.append_assoc, List.append_cancel_left_eq, List.singleton_append, List.cons.injEq] at hr
    obtain ⟨rfl, rfl⟩ := hr
    rw [List.append_nil] at hl
    exact ⟨step_ld_withJunk junk ha hs (by simp [hs']), .inr ⟨idle_of hl, hl⟩⟩
  · -- the machine waits or binds a stream
    have hl' := hr.trans hs'.symm
    exact ⟨step_idle_withJunk junk ha hs (idle_of hl') hs', .inr ⟨idle_of hl', hl'⟩⟩
  · -- a second result cannot come
    rw [hl, hs'] at hr
    simp at hr

/-- The whole of such a run is the same with more bytes in the payload. -/
theorem ReturnsFrom.stepN_withJunk {n : Nat} {x : List Byte} (junk : List Byte) (h : ReturnsFrom x s t)
    (hx : stepN n s = .next t) (hta : t.active = none) : stepN n (s.withJunk junk) = .next (t.withJunk junk) := by
  induction n generalizing s with
  | zero =>
    cases hx
    rfl
  | succ n ih =>
    cases hs : step s with
    | next s' =>
      rw [stepN_succ_of_next hs] at hx
      obtain ⟨hstep, h'⟩ := h.step_withJunk junk hs hx hta
      rw [stepN_succ_of_next hstep]
      exact ih h' hx
    | fault | refused => rw [stepN, hs] at hx; cases hx

/-- Settles O38: the run is step for step the same, and so is what follows it until a next command. -/
theorem bytesAfterEoiAreIgnored : Obligations.BytesAfterEoiAreIgnored := by
  unfold Obligations.BytesAfterEoiAreIgnored
  intro n s t x junk ha hx hta hr
  have h : ReturnsFrom x s t := .inl ⟨ha, hr⟩
  exact ⟨t.withJunk junk, h.stepN_withJunk junk hx hta, hta, hr, rfl⟩

/-! ### The end of a run (42_lzw_decoder.md R156) -/

/-- A code of a run is at least one bit longer than an index. -/
theorem LdUnit.RunInv.lt_width {u : LdUnit} (h : u.RunInv) : u.m.toNat < u.width.toNat := by
  have hm : u.m.toNat ≤ 8 := h.m_range.2
  have hnext := h.next_range.1
  have hlen : ¬bitlen u.next.toNat ≤ u.m.toNat := by
    rw [bitlen_le_iff]
    simp only [firstFree] at hnext
    omega
  rw [h.width_eq]
  simp only [Config.wMax]
  omega

/-- LD's run beside units just reset: a state that meets the invariant whatever the rest of the machine was. -/
def State.ldAlone (s : State) : State :=
  { State.reset with
    params := s.params, active := some .ld, ld := { s.ld with phase := .running, err := none } }

theorem State.ldAlone_inv (h : s.ld.RunInv) : s.ldAlone.Inv where
  bp := BpUnit.reset_inv nofun
  bf := BfUnit.reset_inv nofun
  ld := .of_ok nofun rfl (by simp [State.ldAlone]) { h with }
  le := LeUnit.reset_inv nofun
  blocks := nofun

/-- One micro-step of a run: it fails, it returns its output, or it goes on after the bits of a code. -/
theorem step_ld_run (ha : s.active = some .ld) (h : s.ld.RunInv) :
    (∃ k n, step s = .next (raiseFail .ld k n s)) ∨
    step s = .next ((s.withLd { s.ld.advance with phase := .done }).finish (.indices s.ld.out)) ∨
    (∃ u, step s = .next (s.withLd u) ∧ u.RunInv ∧ s.ld.ConsumedTo u ∧ u.input = s.ld.input) := by
  rcases Nat.lt_or_ge (8 * s.ld.input.length) (s.ld.bitpos + s.ld.width.toNat) with hb | hb
  · exact .inl ⟨_, _, step_ld_short ha hb⟩
  · obtain ⟨f, hf, hstep⟩ := step_ld_effect hb
    have hs : step s = .next (f.apply s.ld s.ld s) := hstep [] s.ld s (List.append_nil _).symm ha rfl
    cases f with
    | fails k => exact .inl ⟨k, _, hs⟩
    | returns => exact .inr (.inl hs)
    | goesOn u =>
      have halone : step s.ldAlone = .next (s.ldAlone.withLd (s.ldAlone.ld.rerun u)) :=
        hstep [] s.ldAlone.ld s.ldAlone (List.append_nil _).symm rfl rfl
      have hrun := (step_ld_keeps (State.ldAlone_inv h) rfl halone).ld.run (.inl rfl)
      exact .inr (.inr ⟨s.ld.rerun u, hs, { hrun with }, hf u rfl, rfl⟩)

/-- The run of `s` has ended in `u`: with indices in their range and within the limit, or with a failure recorded. -/
def RunEnded (s u : State) : Prop :=
  u.active = none ∧
    ((∃ x, u.results = s.results ++ [.indices x] ∧ u.ld.phase = .done ∧ u.ld.out = x ∧
        (∀ i ∈ x, i.toNat < 2 ^ s.ld.m.toNat) ∧ x.length ≤ s.ld.maxOut.toNat) ∨
      (∃ k, u.results = s.results ++ [.fail k] ∧ u.ld.phase = .failed ∧ u.ld.err = some k))

/-- Each code takes at least `m + 1` bits, so a run with fewer than `N` times as many left ends within `N` steps. -/
theorem stepN_ld_ends {N : Nat} (ha : s.active = some .ld) (h : s.ld.RunInv)
    (hleft : 8 * s.ld.input.length < s.ld.bitpos + N * (s.ld.m.toNat + 1)) :
    ∃ n u, n ≤ N ∧ stepN n s = .next u ∧ RunEnded s u := by
  induction N generalizing s with
  | zero =>
    have := h.bitpos_le
    omega
  | succ N ih =>
    rcases step_ld_run ha h with ⟨k, n, hs⟩ | hs | ⟨u, hs, hu, ⟨hbits, hm, hmax⟩, hin⟩
    · exact ⟨1, _, by omega, (stepN_one s).trans hs, rfl, .inr ⟨k, rfl, rfl, rfl⟩⟩
    · exact ⟨1, _, by omega, (stepN_one s).trans hs, rfl, .inl ⟨_, rfl, rfl, rfl, h.out_range, h.out_limit⟩⟩
    · have hleft' : 8 * u.input.length < u.bitpos + N * (u.m.toNat + 1) := by
        have hwidth := h.lt_width
        rw [Nat.add_one_mul N] at hleft
        rw [hin, hbits, hm]
        omega
      obtain ⟨n, v, hn, hv, hend⟩ := ih (s := s.withLd u) ha hu hleft'
      rw [RunEnded, State.withLd_ld, hm, hmax] at hend
      exact ⟨n + 1, v, by omega, (stepN_succ_of_next hs n).trans hv, hend⟩

/-- Settles O39: the run starts with all bits of the payload left. -/
theorem decoderRunEnds : Obligations.DecoderRunEnds := by
  unfold Obligations.DecoderRunEnds
  intro s t m payload ha hp h2 h8 hx
  have hlegal : codeSizeLegal m = true := (codeSizeLegal_iff m).2 ⟨h2, h8⟩
  have hm : (s.ld.start m payload s.maxPixels).m.toNat = m.toNat := codeSize_m h8
  have hleft : 8 * payload.length < 0 + (8 * payload.length / (m.toNat + 1) + 1) * (m.toNat + 1) := by
    rw [Nat.zero_add, Nat.mul_comm _ (m.toNat + 1)]
    exact Nat.lt_mul_div_succ _ (Nat.succ_pos _)
  rw [exec_ldRun_starts payload ha hp hlegal] at hx
  cases hx
  obtain ⟨n, u, hn, hu, hend⟩ := stepN_ld_ends
    (s := (s.withLd (s.ld.start m payload s.maxPixels)).withActive (some .ld)) rfl
    (s.ld.start_runInv payload s.maxPixels hlegal) (hm.symm ▸ hleft)
  exact ⟨n, u, hm ▸ hn, hu, hm ▸ hend⟩

end Sys2Proof.Machine

/-! The LZW Encoder (43_lzw_encoder.md): the bits it emits, what each micro-step does, and that LD decompresses what it
compresses. -/

namespace Sys2Proof.Machine

variable {s : State}

/-! ### Bits (20_memory.md R56) -/

/-- The low `w` bits of a number, least significant first. -/
def codeBits (w c : Nat) : List Bool := (List.range w).map fun j => c.testBit j

/-- The bits of a payload, in the order in which LD reads them. -/
def bitsOf (bs : List Byte) : List Bool := bs.flatMap fun b => (List.range 8).map fun j => b.getLsbD j

@[simp] theorem length_codeBits (w c : Nat) : (codeBits w c).length = w := by simp [codeBits]

theorem codeBits_succ (w c : Nat) : codeBits (w + 1) c = c.testBit 0 :: codeBits w (c / 2) := by
  simp [codeBits, List.range_succ_eq_map, Nat.testBit_succ]

theorem codeBits_add (v w c : Nat) : codeBits (v + w) c = codeBits v c ++ codeBits w (c >>> v) := by
  simp [codeBits, List.range_add, Nat.testBit_shiftRight]

theorem codeBits_zero (w : Nat) : codeBits w 0 = List.replicate w false := by
  simp [codeBits]

/-- Bits above the ones of a number do not show in its low bits. -/
theorem codeBits_or_shiftLeft (w a c : Nat) : codeBits w (a ||| c <<< w) = codeBits w a := by
  refine List.map_congr_left fun j hj => ?_
  have hlow : ¬j ≥ w := Nat.not_le.2 (List.mem_range.1 hj)
  simp [Nat.testBit_shiftLeft, hlow]

theorem or_shiftLeft_shiftRight {w a : Nat} (c : Nat) (ha : a < 2 ^ w) : (a ||| c <<< w) >>> w = c := by
  rw [Nat.shiftRight_or_distrib, Nat.shiftRight_eq_zero a w ha, Nat.zero_or, Nat.shiftLeft_shiftRight]

@[simp] theorem bitsOf_append (bs cs : List Byte) : bitsOf (bs ++ cs) = bitsOf bs ++ bitsOf cs := List.flatMap_append

theorem bitsOf_byte (n : Nat) : bitsOf [BitVec.ofNat 8 n] = codeBits 8 n := by
  rw [bitsOf, List.flatMap_singleton]
  refine List.map_congr_left fun j hj => ?_
  rw [BitVec.getLsbD_ofNat, decide_eq_true (List.mem_range.1 hj), Bool.true_and]

@[simp] theorem length_bitsOf (bs : List Byte) : (bitsOf bs).length = 8 * bs.length := by
  simp [bitsOf, Nat.mul_comm]

theorem bitAt_of_bitsOf {bs : List Byte} {k : Nat} {b : Bool} (h : (bitsOf bs)[k]? = some b) : bitAt bs k = b := by
  induction bs generalizing k with
  | nil => simp [bitsOf] at h
  | cons x bs ih =>
    rw [bitsOf, List.flatMap_cons] at h
    rcases Nat.lt_or_ge k 8 with hk | hk
    · rw [List.getElem?_append_left (by simpa using hk)] at h
      simpa [bitAt, Nat.div_eq_of_lt hk, Nat.mod_eq_of_lt hk, List.getElem?_range hk] using h
    · rw [List.getElem?_append_right (by simpa using hk)] at h
      obtain ⟨j, rfl⟩ := Nat.exists_eq_add_of_le' hk
      have := ih (k := j) (by simpa [bitsOf] using h)
      simpa [bitAt] using this

/-- LD reads the code whose bits stand at its position (R56). -/
theorem codeAt_of_bitsOf {bs : List Byte} {w c : Nat} {read rest : List Bool}
    (h : bitsOf bs = read ++ codeBits w c ++ rest) (hc : c < 2 ^ w) : codeAt bs read.length w = c := by
  induction w generalizing read c with
  | zero => exact (Nat.lt_one_iff.1 hc).symm
  | succ w ih =>
    rw [codeBits_succ] at h
    have hfirst : bitAt bs read.length = c.testBit 0 := bitAt_of_bitsOf (by simp [h])
    have hrest := ih (read := read ++ [c.testBit 0]) (c := c / 2) (by simpa using h) (by omega)
    rw [List.length_append, List.length_singleton] at hrest
    rw [codeAt, hfirst, hrest, Nat.toNat_testBit]
    omega

/-! ### `emit` and `flush` (43_lzw_encoder.md R158, R166) -/

theorem emittedBits_eq (u : LeUnit) : emittedBits u = bitsOf u.out ++ codeBits u.nacc u.acc := rfl

/-- A byte that leaves the accumulator has been emitted before. -/
theorem emittedBits_drain (fuel : Nat) (u : LeUnit) : emittedBits (LeUnit.drain fuel u) = emittedBits u := by
  induction fuel generalizing u with
  | zero => rfl
  | succ fuel ih =>
    unfold LeUnit.drain
    split
    · rename_i h8
      have hbits : codeBits u.nacc u.acc = codeBits 8 u.acc ++ codeBits (u.nacc - 8) (u.acc >>> 8) := by
        rw [← codeBits_add, Nat.add_sub_cancel' h8]
      rw [ih, emittedBits_eq, emittedBits_eq, bitsOf_append, bitsOf_byte, hbits, List.append_assoc]
    · rfl

theorem emittedBits_emit {u : LeUnit} (c : Nat) (ha : u.acc < 2 ^ u.nacc) :
    emittedBits (u.emit c) = emittedBits u ++ codeBits u.width.toNat c := by
  rw [LeUnit.emit, emittedBits_drain, emittedBits_eq, emittedBits_eq, codeBits_add, codeBits_or_shiftLeft,
    or_shiftLeft_shiftRight c ha, List.append_assoc]

/-- The bits that fill the last byte are zeros (R166). -/
theorem emittedBits_flush {u : LeUnit} (hn : u.nacc < 8) (ha : u.acc < 2 ^ u.nacc) :
    ∃ pad < 8, emittedBits u.flush = emittedBits u ++ List.replicate pad false ∧
      bitsOf u.flush.out = emittedBits u.flush := by
  have hflushed : bitsOf u.flush.out = emittedBits u.flush := (List.append_nil _).symm
  rcases Nat.eq_zero_or_pos u.nacc with h0 | hpos
  · refine ⟨0, by omega, ?_, hflushed⟩
    simp [emittedBits_eq, LeUnit.flush, h0, codeBits]
  · refine ⟨8 - u.nacc, by omega, ?_, hflushed⟩
    have hbyte : codeBits 8 u.acc = codeBits u.nacc u.acc ++ List.replicate (8 - u.nacc) false := by
      rw [← codeBits_zero, ← Nat.shiftRight_eq_zero _ _ ha, ← codeBits_add, Nat.add_sub_cancel' hn.le]
    rw [← hflushed, LeUnit.flush, if_pos hpos, bitsOf_append, bitsOf_byte, hbyte, emittedBits_eq, List.append_assoc]

/-- Settles O40: by the bytes that leave the accumulator. -/
theorem emitAppendsTheCodeBits : Obligations.EmitAppendsTheCodeBits := by
  unfold Obligations.EmitAppendsTheCodeBits
  intro u c ha hc
  exact ⟨emittedBits_emit c ha, u.emit_nacc c, LeUnit.emit_acc ha hc, u.emit_frame c⟩

/-! ### LE_RUN (43_lzw_encoder.md R157) -/

/-- LE's registers after the leading clear of a run. -/
def LeUnit.begin (u : LeUnit) (m : Byte) (indices : List Byte) : LeUnit := (u.start m indices).leadingClear

/-- With a min code size in its range LE starts to run. -/
theorem exec_leRun_begins {m : Byte} (x : List Byte) (ha : s.active = none) (hp : s.le.phase ≠ .failed)
    (hm : codeSizeLegal m = true) :
    exec (.leRun m x) s = .next ((s.withLe (s.le.begin m x)).withActive (some .le)) := by
  rw [exec, execLeRun, whenIdle_idle ha]
  split
  · contradiction
  · rw [if_pos hm]
    rfl

/-- What a run has emitted at its start is the clear code. -/
theorem LeUnit.begin_emitted (u : LeUnit) {m : Byte} (x : List Byte) (hm : m.toNat ≤ 8) :
    emittedBits (u.begin m x) = codeBits (m.toNat + 1) (clearOf m.toNat) := by
  have hm4 : (u.start m x).m.toNat = m.toNat := codeSize_m hm
  have hw : (u.start m x).width.toNat = m.toNat + 1 := codeSize_width hm
  rw [LeUnit.begin, LeUnit.leadingClear_eq, emittedBits_emit _ Nat.zero_lt_one, hm4, hw]
  rfl

/-- LE's registers at the start of a run (R157). -/
theorem LeUnit.begin_registers (u : LeUnit) {m : Byte} (x : List Byte) (hm : m.toNat ≤ 8) :
    (u.begin m x).phase = .running ∧ (u.begin m x).m.toNat = m.toNat ∧ (u.begin m x).width.toNat = m.toNat + 1 ∧
      (u.begin m x).next.toNat = firstFree m.toNat ∧ (u.begin m x).cand = none ∧ (u.begin m x).dict = [] ∧
      (u.begin m x).input = x ∧ (u.begin m x).inpos = 0 ∧ (u.begin m x).err = u.err ∧
      (u.begin m x).errPos = u.errPos := by
  rw [LeUnit.begin, LeUnit.leadingClear_eq, LeUnit.emit_frame]
  exact ⟨rfl, codeSize_m hm, codeSize_width hm, firstFree_next hm, rfl, rfl, rfl, rfl, rfl, rfl⟩

/-- Emitting a code leaves the registers of a run in lockstep. -/
theorem LeUnit.Going.emit {u : LeUnit} {c : Nat} (h : u.Going) (hc : c < 2 ^ u.width.toNat) : (u.emit c).Going :=
  ⟨h.1.emit hc, by simpa [LeUnit.Lockstep] using h.2⟩

theorem LeUnit.begin_going (u : LeUnit) {m : Byte} (x : List Byte) (hm : codeSizeLegal m = true) :
    (u.begin m x).Going := by
  have h := u.start_going x hm
  exact h.emit (clear_eoi_lt h.1.m_range.1 h.1.width_range.1).1

/-- Settles O41: by the phase and the min code size. -/
theorem encoderRunStarts : Obligations.EncoderRunStarts := by
  unfold Obligations.EncoderRunStarts
  intro s m x ha
  refine ⟨fun k hp hk => ?_, fun hp hm => ?_, fun hp h2 h8 => ?_⟩
  · simp only [exec, execLeRun, whenIdle_idle ha, hp, hk, repeatFail]
  · rw [exec, execLeRun, whenIdle_idle ha]
    split
    · contradiction
    · rw [if_neg (mt (codeSizeLegal_iff m).1 hm)]
  · obtain ⟨hphase, hm, hwidth, hnext, hcand, hdict, hinput, hinpos, herr, herrPos⟩ := s.le.begin_registers x h8
    exact ⟨_, exec_leRun_begins x ha hp ((codeSizeLegal_iff m).2 ⟨h2, h8⟩), hphase, hm, hwidth, hnext, hcand, hdict,
      hinput, hinpos, herr, herrPos, s.le.begin_emitted x h8⟩

/-! ### LE's micro-steps (43_lzw_encoder.md R159 to R167) -/

/-- LE's registers after a miss (R162 to R164). -/
def LeUnit.miss (p : Code) (i : Byte) (u : LeUnit) : LeUnit :=
  { ((u.emit p.toNat).insert p i).clearIfFull with cand := some (i.setWidth 12), inpos := u.inpos + 1 }

/-- LE's registers when the EOI code of a run is due: the candidate emitted, if there is one, and LD's width test made
(R159, R165). -/
def LeUnit.sendCand (u : LeUnit) : LeUnit :=
  match u.cand with
  | none => u
  | some p => (u.emit p.toNat).widenAt u.next.toNat

/-- LE's registers after the EOI code and the last byte (R165, R166). -/
def LeUnit.returned (u : LeUnit) : LeUnit := { (u.emit (eoiOf u.m.toNat)).flush with phase := .done }

section step
variable (ha : s.active = some .le)
include ha

section index
variable {i : Byte} (hi : s.le.input[s.le.inpos]? = some i)
include hi

/-- An index of `2^m` or more (R160 to R162). -/
theorem step_le_outOfRange (hge : 2 ^ s.le.m.toNat ≤ i.toNat) :
    step s = .next (raiseFail .le .lzwCodeOutOfRange s.le.inpos s) := by
  simp only [step_le ha, leMicroStep, hi, if_pos hge, raiseLe]

variable (hlt : i.toNat < 2 ^ s.le.m.toNat)
include hlt

/-- The first index (R160). -/
theorem step_le_first (hc : s.le.cand = none) :
    step s = .next (s.withLe { s.le with cand := some (i.setWidth 12), inpos := s.le.inpos + 1 }) := by
  simp only [step_le ha, leMicroStep, hi, if_neg hlt.not_ge, hc, leFirstIndex]

/-- A stored pair (R161). -/
theorem step_le_extend {p c : Code} (hc : s.le.cand = some p) (hf : findPair s.le.dict p i = some c) :
    step s = .next (s.withLe { s.le with cand := some c, inpos := s.le.inpos + 1 }) := by
  simp only [step_le ha, leMicroStep, hi, if_neg hlt.not_ge, hc, hf, leExtend]

/-- A miss (R162). -/
theorem step_le_miss {p : Code} (hc : s.le.cand = some p) (hf : findPair s.le.dict p i = none) :
    step s = .next (s.withLe (s.le.miss p i)) := by
  simp only [step_le ha, leMicroStep, hi, if_neg hlt.not_ge, hc, hf, leMiss, LeUnit.miss]

end index

/-- The end of the input (R159, R165, R167). -/
theorem step_le_end (hend : s.le.input.length ≤ s.le.inpos) :
    step s = .next ((s.withLe s.le.sendCand.returned).finish (.payload s.le.sendCand.returned.out)) := by
  have hi : s.le.input[s.le.inpos]? = none := List.getElem?_eq_none hend
  rw [step_le ha, leMicroStep, hi, LeUnit.sendCand]
  cases s.le.cand with
  | none => rfl
  | some p =>
    simp only [leEndOfInput, LeUnit.emit_next]
    rfl

end step

/-- Settles O42: the three answers to an index that emit nothing. -/
theorem encoderTakesAnIndex : Obligations.EncoderTakesAnIndex := by
  unfold Obligations.EncoderTakesAnIndex
  intro s i ha hi
  exact ⟨step_le_outOfRange ha hi, step_le_first ha hi, fun _ _ hlt => step_le_extend ha hi hlt⟩

/-! ### What a miss and the end of the input leave -/

section registers
variable {u : LeUnit}

/-- A miss that leaves room (R162, R163). -/
theorem LeUnit.miss_room (p : Code) (i : Byte) (hroom : u.next.toNat + 1 < 4096) :
    u.miss p i = { u.emit p.toNat with
      width := (u.widenAt u.next.toNat).width
      dict  := { code := u.next.setWidth 12, prefixCode := p, suffix := i } :: u.dict
      next  := u.next + 1#13
      cand  := some (i.setWidth 12)
      inpos := u.inpos + 1 } := by
  have hsucc : (u.next + 1#13).toNat = u.next.toNat + 1 := next_succ (by omega)
  rw [LeUnit.miss, LeUnit.insert_eq, LeUnit.clearIfFull, if_neg]
  · simp [LeUnit.widenAt_eq]
  · simp only [LeUnit.emit_next, hsucc, Config.dictCap]
    omega

/-- A miss that fills the dictionary (R164). -/
theorem LeUnit.miss_full (p : Code) (i : Byte) (hfull : u.next.toNat + 1 = 4096) :
    u.miss p i = { ((u.emit p.toNat).insert p i).emit (clearOf u.m.toNat) with
      width := u.m + 1#4
      dict  := []
      next  := BitVec.ofNat 13 (firstFree u.m.toNat)
      cand  := some (i.setWidth 12)
      inpos := u.inpos + 1 } := by
  have hsucc : (u.next + 1#13).toNat = u.next.toNat + 1 := next_succ (by omega)
  have hm : ((u.emit p.toNat).insert p i).m = u.m := by simp [LeUnit.insert_eq]
  rw [LeUnit.miss, LeUnit.clearIfFull, if_pos, hm]
  rw [LeUnit.insert_eq, LeUnit.emit_next, hsucc, hfull]
  rfl

/-- A miss takes one index. -/
theorem LeUnit.miss_takes (p : Code) (i : Byte) :
    (u.miss p i).cand = some (i.setWidth 12) ∧ (u.miss p i).inpos = u.inpos + 1 ∧ (u.miss p i).input = u.input ∧
      (u.miss p i).m = u.m ∧ (u.miss p i).phase = u.phase := by
  refine ⟨rfl, rfl, ?_⟩
  rw [LeUnit.miss, LeUnit.insert_eq]
  unfold LeUnit.clearIfFull
  split <;> simp

variable (h : u.Going)
include h

/-- A full dictionary is met at the greatest width (R164). -/
theorem LeUnit.Going.width_of_full (hfull : u.next.toNat + 1 = 4096) :
    u.width.toNat = 12 ∧ (u.widenAt u.next.toNat).width.toNat = 12 := by
  have hnext : u.next.toNat = 4095 := by omega
  have hwidened := h.1.widenAt_next h.2
  have hw := h.2
  rw [LeUnit.Lockstep, hnext] at hw
  rw [hnext] at hwidened ⊢
  rw [hw, hwidened]
  decide

/-- After a miss the registers are in lockstep again. -/
theorem LeUnit.Going.miss {p : Code} {i : Byte} (hc : u.cand = some p) (hi : u.input[u.inpos]? = some i)
    (hlt : i.toNat < 2 ^ u.m.toNat) (hf : findPair u.dict p i = none) : (u.miss p i).Going := by
  have hdata := h.1.cand_data p hc
  have hpos : u.inpos + 1 ≤ u.input.length := (List.getElem?_eq_some_iff.1 hi).1
  have hgoing := h.emit (h.2.data_lt hdata)
  exact hgoing.1.miss hgoing.2 (by simpa using hdata) (by simpa using hlt) (by simpa using hf)
    (by simpa using setWidth_code_lt hlt) (by simpa using hpos)

/-- The bits of a miss are those of the candidate. -/
theorem LeUnit.Going.emittedBits_miss_room (p : Code) (i : Byte) (hroom : u.next.toNat + 1 < 4096) :
    emittedBits (u.miss p i) = emittedBits u ++ codeBits u.width.toNat p.toNat := by
  rw [LeUnit.miss_room p i hroom, ← emittedBits_emit _ h.1.acc_lt]
  rfl

/-- The bits of a miss that fills the dictionary are those of the candidate and, at the width after growth, of the clear
code. -/
theorem LeUnit.Going.emittedBits_miss_full {p : Code} (hc : u.cand = some p) (i : Byte)
    (hfull : u.next.toNat + 1 = 4096) :
    emittedBits (u.miss p i) = emittedBits u ++ codeBits u.width.toNat p.toNat ++
      codeBits (u.widenAt u.next.toNat).width.toNat (clearOf u.m.toNat) := by
  have hacc := (h.emit (h.2.data_lt (h.1.cand_data p hc))).1.acc_lt
  have hinsert : (u.emit p.toNat).insert p i = { u.emit p.toNat with
      width := (u.widenAt u.next.toNat).width
      dict  := { code := u.next.setWidth 12, prefixCode := p, suffix := i } :: u.dict
      next  := u.next + 1#13 } := by simp [LeUnit.insert_eq, LeUnit.widenAt_eq]
  have hclear := emittedBits_emit (u := (u.emit p.toNat).insert p i) (clearOf u.m.toNat) (by rw [hinsert]; exact hacc)
  rw [LeUnit.miss_full p i hfull, ← emittedBits_emit _ h.1.acc_lt]
  refine hclear.trans ?_
  rw [hinsert]
  rfl

/-- The candidate leaves as the last data code of a run (R165). -/
theorem LeUnit.Going.sendCand : u.sendCand.RunInv ∧ u.sendCand.m = u.m ∧
    emittedBits u.sendCand = emittedBits u ++ u.cand.elim [] fun p => codeBits u.width.toNat p.toNat := by
  unfold LeUnit.sendCand
  split
  · rename_i hc
    exact ⟨h.1, rfl, by simp [hc]⟩
  · rename_i p hc
    have hp := h.2.data_lt (h.1.cand_data p hc)
    refine ⟨(h.1.emit hp).widenAt _, by simp [LeUnit.widenAt_eq], ?_⟩
    rw [hc, Option.elim_some, ← emittedBits_emit _ h.1.acc_lt, LeUnit.widenAt_eq]
    rfl

/-- What a run returns: all its bits, the last byte filled with zeros (R166, R167). -/
theorem LeUnit.Going.emittedBits_returned : ∃ pad < 8,
    emittedBits u.sendCand.returned = emittedBits u.sendCand ++
      codeBits u.sendCand.width.toNat (eoiOf u.m.toNat) ++ List.replicate pad false ∧
    bitsOf u.sendCand.returned.out = emittedBits u.sendCand.returned := by
  obtain ⟨hrun, hm, -⟩ := h.sendCand
  have hlt := (clear_eoi_lt hrun.m_range.1 hrun.width_range.1).2
  obtain ⟨pad, hpad, hbits, hout⟩ := emittedBits_flush (u.sendCand.emit_nacc _) (LeUnit.emit_acc hrun.acc_lt hlt)
  rw [emittedBits_emit _ hrun.acc_lt, hm] at hbits
  refine ⟨pad, hpad, ?_, ?_⟩
  · rw [← hbits, ← hm]
    rfl
  · exact hout

end registers

/-- Settles O43: by whether the insertion leaves room. -/
theorem encoderMissEmitsAndInserts : Obligations.EncoderMissEmitsAndInserts := by
  unfold Obligations.EncoderMissEmitsAndInserts
  intro s i p ha hs hi hlt hc hf
  obtain ⟨hphase, -, hgoing⟩ := hs.le_running ha
  have h : s.le.Going := hgoing
  obtain ⟨hcand, hinpos, hinput, hm, hp⟩ := LeUnit.miss_takes (u := s.le) p i
  refine ⟨s.le.miss p i, step_le_miss ha hi hlt hc hf, hcand, hinpos, hinput, hm, hp.trans hphase, fun hroom => ?_,
    fun hfull => ?_⟩
  · have hbits := h.emittedBits_miss_room p i hroom
    rw [LeUnit.miss_room p i hroom] at hbits ⊢
    exact ⟨next_succ (by omega), s.le.widenAt_width _, rfl, hbits⟩
  · have hbits := h.emittedBits_miss_full hc i hfull
    obtain ⟨hw, hwidened⟩ := h.width_of_full hfull
    rw [hw, hwidened, LeUnit.miss_full p i hfull] at hbits
    rw [LeUnit.miss_full p i hfull]
    have hm8 : s.le.m.toNat ≤ 8 := h.1.m_range.2
    exact ⟨firstFree_next hm8, width_succ (by omega), rfl, hbits⟩

/-- Settles O44: by whether there is a candidate. -/
theorem encoderRunReturnsItsPayload : Obligations.EncoderRunReturnsItsPayload := by
  unfold Obligations.EncoderRunReturnsItsPayload
  intro s ha hs hend
  obtain ⟨-, -, hgoing⟩ := hs.le_running ha
  have h : s.le.Going := hgoing
  obtain ⟨pad, hpad, hbits, -⟩ := h.emittedBits_returned
  refine ⟨s.le.sendCand.returned, pad, step_le_end ha hend.ge, rfl, rfl, rfl, hpad, ?_⟩
  obtain ⟨-, -, hcand⟩ := h.sendCand
  rw [hbits, hcand, LeUnit.sendCand]
  cases s.le.cand with
  | none => simp [codeBits, eoiOf]
  | some p => simp [codeBits, eoiOf, LeUnit.widenAt_width, Config.wMax]

/-! ### LD reads the codes LE emitted (43_lzw_encoder.md R168) -/

/-- The bits that LD has not read yet. -/
def LdUnit.Pending (v : LdUnit) (bits : List Bool) : Prop :=
  ∃ read : List Bool, read.length = v.bitpos ∧ bitsOf v.input = read ++ bits

/-- Reading a code leaves the bits after it. -/
theorem LdUnit.Pending.advance {v v' : LdUnit} {c : Nat} {rest : List Bool}
    (h : v.Pending (codeBits v.width.toNat c ++ rest)) (hpos : v'.bitpos = v.bitpos + v.width.toNat)
    (hin : v'.input = v.input) : v'.Pending rest := by
  obtain ⟨read, hread, hbits⟩ := h
  exact ⟨read ++ codeBits v.width.toNat c, by simp [hread, hpos], by rw [hin, hbits, List.append_assoc]⟩

/-- The micro-step of LD on the bits of a code. -/
theorem step_ld_pending {c : Code} {rest : List Bool} (ha : s.active = some .ld)
    (h : s.ld.Pending (codeBits s.ld.width.toNat c.toNat ++ rest)) (hc : c.toNat < 2 ^ s.ld.width.toNat) :
    step s = exec (decodeCode s.ld.m.toNat s.ld.next.toNat s.ld.prev c) s := by
  obtain ⟨read, hread, hbits⟩ := h
  have hlen := congrArg List.length hbits
  simp only [length_bitsOf, List.length_append, length_codeBits] at hlen
  have hcode : codeAt s.ld.input s.ld.bitpos s.ld.width.toNat = c.toNat := by
    rw [← hread]
    exact codeAt_of_bitsOf (hbits.trans (List.append_assoc ..).symm) hc
  rw [step_ld_code ha (by omega), hcode, BitVec.ofNat_toNat, BitVec.setWidth_eq]

theorem exists_code {n : Nat} (h : n < 4096) : ∃ c : Code, c.toNat = n :=
  ⟨BitVec.ofNat 12 n, (BitVec.toNat_ofNat ..).trans (Nat.mod_eq_of_lt h)⟩

/-- The two special codes of a min code size in its range are codes. -/
theorem exists_clear_eoi {m : Nat} (hm : m ≤ 8) :
    (∃ c : Code, c.toNat = clearOf m) ∧ ∃ c : Code, c.toNat = eoiOf m := by
  have := firstFree_lt hm
  simp only [firstFree, clearOf, eoiOf] at *
  exact ⟨exists_code (by omega), exists_code (by omega)⟩

/-- LD's registers after the clear code (42_lzw_decoder.md R142). -/
def LdUnit.cleared (v : LdUnit) : LdUnit :=
  { v.advance with width := v.m + 1#4, next := BitVec.ofNat 13 (firstFree v.m.toNat), prev := none, arena := [] }

/-- LD reads the clear code. -/
theorem step_ld_clear {rest : List Bool} (ha : s.active = some .ld) (hm : s.ld.m.toNat ≤ 8)
    (hw : clearOf s.ld.m.toNat < 2 ^ s.ld.width.toNat)
    (h : s.ld.Pending (codeBits s.ld.width.toNat (clearOf s.ld.m.toNat) ++ rest)) :
    step s = .next (s.withLd s.ld.cleared) := by
  obtain ⟨c, hc⟩ := (exists_clear_eoi hm).1
  rw [← hc] at h hw
  rw [step_ld_pending ha h hw, decodeCode_clear hc]
  exact inCodeContext_of ha (admits_of_decodeCode (decodeCode_clear hc))

/-- LD reads the EOI code (42_lzw_decoder.md R143). -/
theorem step_ld_eoi {rest : List Bool} (ha : s.active = some .ld) (hm : s.ld.m.toNat ≤ 8)
    (hw : eoiOf s.ld.m.toNat < 2 ^ s.ld.width.toNat)
    (h : s.ld.Pending (codeBits s.ld.width.toNat (eoiOf s.ld.m.toNat) ++ rest)) :
    step s = .next ((s.withLd { s.ld.advance with phase := .done }).finish (.indices s.ld.out)) := by
  obtain ⟨c, hc⟩ := (exists_clear_eoi hm).2
  rw [← hc] at h hw
  rw [step_ld_pending ha h hw, decodeCode_eoi hc]
  exact inCodeContext_of ha (admits_of_decodeCode (decodeCode_eoi hc))

/-- LD lags behind LE by the candidate: it has read every code emitted. Either both have a dictionary just cleared, or
LE's newest entry is the one that LD makes on reading the candidate: LD's previous code, and the first index of the
candidate (R163). -/
structure LdUnit.Lags (v : LdUnit) (u : LeUnit) : Prop where
  m     : v.m = u.m
  width : v.width = u.width
  dict  : (v.arena = [] ∧ u.dict = [] ∧ v.next = u.next ∧ v.prev = none) ∨
    ∃ p q, u.cand = some p ∧ v.prev = some q ∧ v.next.toNat + 1 = u.next.toNat ∧
      u.dict = { code := v.next.setWidth 12, prefixCode := q, suffix := firstOf u.dict p } :: v.arena

/-- LD has caught up with LE by reading the candidate `p` that LE had with the registers `u`. -/
structure LdUnit.CaughtUp (v : LdUnit) (u : LeUnit) (p : Code) : Prop where
  m     : v.m = u.m
  width : v.width = (u.widenAt u.next.toNat).width
  next  : v.next = u.next
  arena : v.arena = u.dict
  prev  : v.prev = some p

/-! ### Strings of the newest entry and of the others (42_lzw_decoder.md R153, R154) -/

theorem strings_newest {e : Entry} {c : Code} (a : Arena) (h : e.code = c) :
    seqOf (e :: a) c = seqOf a e.prefixCode ++ [e.suffix] ∧ firstOf (e :: a) c = firstOf a e.prefixCode :=
  ⟨if_pos h, if_pos h⟩

theorem strings_older {e : Entry} {c : Code} (a : Arena) (h : e.code ≠ c) :
    seqOf (e :: a) c = seqOf a c ∧ firstOf (e :: a) c = firstOf a c := ⟨if_neg h, if_neg h⟩

/-- The string of a pair that `find` finds is that of its older code and its index. -/
theorem strings_of_findPair {m next : Nat} {a : Arena} {p c : Code} {i : Byte} (hn : next ≤ Config.dictCap)
    (h : Arena.wf m next a = true) (hd : pairsDistinct a) (hf : findPair a p i = some c) :
    seqOf a c = seqOf a p ++ [i] ∧ firstOf a c = firstOf a p := by
  have hentry := (findGivesTheStoredPair m next a p i c hn h hd).1 hf
  have hrange : ¬(c.toNat < firstFree m ∨ next ≤ c.toNat) := fun hc => by
    rw [entryAt_none h hc] at hentry
    cases hentry
  obtain ⟨e, he, -, hseq, hfirst⟩ := seqOf_stored h (c := c) (by omega) (by omega)
  cases hentry.symm.trans he
  exact ⟨hseq, hfirst⟩

/-- The string of an index's own code. -/
theorem strings_index {m next : Nat} {a : Arena} {i : Byte} (h : Arena.wf m next a = true) (hi : i.toNat < 2 ^ m) :
    seqOf a (i.setWidth 12) = [i] ∧ firstOf a (i.setWidth 12) = i := by
  have hroot := setWidth_code_lt hi
  have hsame : ((i.setWidth 12 : Code).setWidth 8 : Byte) = i := by simp
  have := seqOf_root h (c := i.setWidth 12) (by simp only [firstFree]; omega)
  rwa [hsame] at this

section reads
variable {u : LeUnit} {p : Code} {rest : List Bool} (ha : s.active = some .ld) (hu : u.Going) (hc : u.cand = some p)
  (hbits : s.ld.Pending (codeBits u.width.toNat p.toNat ++ rest))
include ha hu hc hbits

/-- The candidate after a previous code, whatever its class: LD inserts the entry it lags by, and puts the candidate's
string out (42_lzw_decoder.md R145, R146). -/
theorem step_ld_candidate {q : Code} (hm : s.ld.m = u.m) (hwidth : s.ld.width = u.width) (hprev : s.ld.prev = some q)
    (hnext : s.ld.next.toNat + 1 = u.next.toNat)
    (hdict : u.dict = { code := s.ld.next.setWidth 12, prefixCode := q, suffix := firstOf u.dict p } :: s.ld.arena) :
    step s = insertAndOutput q (firstOf u.dict p) (seqOf u.dict p) p s := by
  have hdata := hu.1.cand_data p hc
  have hlt := (dataCode_iff.1 hdata).1
  have hcap : u.next.toNat < 4096 := hu.1.next_range.2
  have hcode : (s.ld.next.setWidth 12 : Code).toNat = s.ld.next.toNat := next_code (by omega)
  rw [step_ld_pending ha (hwidth ▸ hbits) (hwidth ▸ hu.2.data_lt hdata)]
  by_cases hp : p.toNat = s.ld.next.toNat
  · -- the candidate is the entry LD has not made yet
    have hgt : eoiOf s.ld.m.toNat < p.toNat := by
      have hcases := dataCode_cases hdata
      have hfree := hu.1.next_range.1
      simp only [firstFree, eoiOf, hm] at *
      omega
    have hstrings := strings_newest (e := ⟨s.ld.next.setWidth 12, q, firstOf u.dict p⟩) s.ld.arena
      (BitVec.eq_of_toNat_eq (hcode.trans hp.symm))
    rw [← hdict] at hstrings
    obtain ⟨hseq, hfirst⟩ := hstrings
    rw [(decodeCode_eq_codeKwkwk_iff (hp ▸ hgt)).2 ⟨hp, by simp [hprev], by omega⟩, exec_kwkwk ha hprev hp hgt, hseq,
      hfirst]
  · have hstrings := strings_older (e := ⟨s.ld.next.setWidth 12, q, firstOf u.dict p⟩) (c := p) s.ld.arena
      fun h => hp (by rw [← hcode, ← h])
    rw [← hdict] at hstrings
    obtain ⟨hseq, hfirst⟩ := hstrings
    rw [hseq, hfirst]
    rcases dataCode_cases hdata with hroot | hfree
    · rw [← hm] at hroot
      rw [decodeCode_eq_codeRoot_iff.2 ⟨hroot, by simp [hprev]⟩]
      exact exec_known ha hprev (.inl ⟨rfl, hroot⟩)
    · rw [← hm] at hfree
      have hlt' : p.toNat < s.ld.next.toNat := by omega
      rw [decodeCode_eq_codeDefined_iff.2 ⟨hfree, hlt', by simp [hprev]⟩]
      exact exec_known ha hprev (.inr ⟨rfl, hfree, hlt'⟩)

/-- LD that lags behind LE catches up by reading the candidate. -/
theorem step_ld_catchUp (hl : s.ld.Lags u) (hlimit : s.ld.out.length + (seqOf u.dict p).length ≤ s.ld.maxOut.toNat) :
    ∃ v, step s = .next (s.withLd v) ∧ v.CaughtUp u p ∧ v.Pending rest ∧ v.out = s.ld.out ++ seqOf u.dict p ∧
      v.maxOut = s.ld.maxOut := by
  have hdata := hu.1.cand_data p hc
  have hpend := hbits
  rw [← hl.width] at hpend
  rcases hl.dict with ⟨harena, hdict, hnext, hprev⟩ | ⟨_, q, hc', hprev, hnext, hdict⟩
  · have hfree : u.next.toNat = firstFree u.m.toNat := by simpa [hdict, Arena.wf] using hu.1.dict_wf
    have hroot : p.toNat < 2 ^ s.ld.m.toNat := by
      have hlt := (dataCode_iff.1 hdata).1
      have := dataCode_cases hdata
      rw [hl.m]
      omega
    have hsame : (u.widenAt u.next.toNat).width = u.width := by
      have hlen := bitlen_firstFree hu.1.m_range.1
      refine BitVec.eq_of_toNat_eq ?_
      rw [hu.1.widenAt_next hu.2, hu.2, hfree, hlen.1, hlen.2]
    have hstep := firstRootIsOutput s p ha hroot hprev
    have hseq : seqOf u.dict p = [p.setWidth 8] := by rw [hdict]; rfl
    rw [hseq, List.length_singleton] at hlimit
    rw [if_pos hlimit, ← decodeCode_eq_codeRootFirst_iff.2 ⟨hroot, hprev⟩,
      ← step_ld_pending ha hpend (hl.width ▸ hu.2.data_lt hdata)] at hstep
    exact ⟨_, hstep, ⟨hl.m, hl.width.trans hsame.symm, hnext, harena.trans hdict.symm, rfl⟩, hpend.advance rfl rfl,
      hseq ▸ rfl, rfl⟩
  · cases hc.symm.trans hc'
    have hcap : u.next.toNat < 4096 := hu.1.next_range.2
    have hstep := step_ld_candidate ha hu hc hbits hl.m hl.width hprev hnext hdict
    rw [insertAndOutput_room _ _ _ (by omega), if_pos hlimit] at hstep
    refine ⟨_, hstep, ⟨hl.m, ?_, ?_, hdict.symm, rfl⟩, hpend.advance rfl rfl, rfl, rfl⟩
    · rw [LeUnit.widenAt_eq, ← hnext, ← hl.width]
      rfl
    · exact BitVec.eq_of_toNat_eq ((next_succ (by omega)).trans hnext)

end reads

/-! ### The run of LE and the run of LD (43_lzw_encoder.md R168) -/

/-- The run of LD in this state returns these indices. -/
def LdReturns (s : State) (x : List Byte) : Prop :=
  ∃ n t, stepN n s = .next t ∧ t.active = none ∧ t.results = s.results ++ [.indices x]

theorem LdReturns.of_step {v : LdUnit} {x : List Byte} (hs : step s = .next (s.withLd v))
    (h : LdReturns (s.withLd v) x) : LdReturns s x := by
  obtain ⟨n, t, ht, hta, hr⟩ := h
  exact ⟨n + 1, t, (stepN_succ_of_next hs n).trans ht, hta, hr⟩

/-- The indices LE has taken and not yet emitted: the candidate's string. -/
def LeUnit.unsent (u : LeUnit) : List Byte := u.cand.elim [] (seqOf u.dict)

theorem LeUnit.unsent_none {u : LeUnit} (hc : u.cand = none) : u.unsent = [] := by
  rw [LeUnit.unsent, hc, Option.elim_none]

theorem LeUnit.unsent_some {u : LeUnit} {p : Code} (hc : u.cand = some p) : u.unsent = seqOf u.dict p := by
  rw [LeUnit.unsent, hc, Option.elim_some]

/-- An LD that lags behind LE and has these bits to read puts out these indices and returns. -/
def LeUnit.DecodesTo (u : LeUnit) (bits : List Bool) (x : List Byte) : Prop :=
  ∀ r : State, r.active = some .ld → r.ld.Lags u → r.ld.Pending bits →
    r.ld.out.length + x.length ≤ r.ld.maxOut.toNat → LdReturns r (r.ld.out ++ x)

/-- LE has taken an index: it stays in lockstep, and the bits it emitted are those LD needs to stay behind it. -/
structure LeUnit.Takes (u : LeUnit) (i : Byte) (u' : LeUnit) : Prop where
  going   : u'.Going
  input   : u'.input = u.input
  inpos   : u'.inpos = u.inpos + 1
  m       : u'.m = u.m
  decodes : ∃ bits, emittedBits u' = emittedBits u ++ bits ∧
    ∀ rest x, u'.DecodesTo rest (u'.unsent ++ x) → u.DecodesTo (bits ++ rest) (u.unsent ++ i :: x)

/-- LD that lags by the candidate lags by a candidate with the same first index. -/
theorem LdUnit.Lags.withCand {u : LeUnit} {v : LdUnit} (h : v.Lags u) {c : Code} (n : Nat)
    (hfirst : ∀ p, u.cand = some p → firstOf u.dict c = firstOf u.dict p) :
    v.Lags { u with cand := some c, inpos := n } := by
  refine ⟨h.m, h.width, ?_⟩
  rcases h.dict with h | ⟨p, q, hc, hprev, hnext, hdict⟩
  · exact .inl h
  · exact .inr ⟨c, q, rfl, hprev, hnext, by rw [hfirst p hc]; exact hdict⟩

section takes
variable {u : LeUnit} (hu : u.Going)
include hu

/-- LD reads the candidate first, and then goes on from where it has caught up. -/
theorem LeUnit.Going.decodesTo_candidate {p : Code} {rest : List Bool} {x : List Byte} (hc : u.cand = some p)
    (h : ∀ r : State, r.active = some .ld → r.ld.CaughtUp u p → r.ld.Pending rest →
      r.ld.out.length + x.length ≤ r.ld.maxOut.toNat → LdReturns r (r.ld.out ++ x)) :
    u.DecodesTo (codeBits u.width.toNat p.toNat ++ rest) (u.unsent ++ x) := by
  intro r ha hl hbits hlimit
  rw [LeUnit.unsent_some hc, List.length_append] at hlimit
  obtain ⟨v, hs, hv, hpend, hout, hmax⟩ := step_ld_catchUp ha hu hc hbits hl (by omega)
  have hrun := h (r.withLd v) ha hv hpend (by simp only [State.withLd_ld, hout, hmax, List.length_append]; omega)
  rw [State.withLd_ld, hout, List.append_assoc, ← LeUnit.unsent_some hc] at hrun
  exact hrun.of_step hs

variable {i : Byte} (hi : u.input[u.inpos]? = some i)
include hi

/-- An index that only changes the candidate. -/
theorem LeUnit.Going.takes_withCand {c : Code} (hc : dataCode u.m.toNat u.next.toNat c = true)
    (hfirst : ∀ p, u.cand = some p → firstOf u.dict c = firstOf u.dict p) (hseq : seqOf u.dict c = u.unsent ++ [i]) :
    u.Takes i { u with cand := some c, inpos := u.inpos + 1 } where
  going := by
    refine ⟨{ hu.1 with cand_data := ?_, inpos_le := (List.getElem?_eq_some_iff.1 hi).1 }, hu.2⟩
    rintro _ ⟨⟩
    exact hc
  input := rfl
  inpos := rfl
  m := rfl
  decodes := by
    refine ⟨[], (List.append_nil _).symm, fun rest x h r ha hl => ?_⟩
    have hunsent : LeUnit.unsent { u with cand := some c, inpos := u.inpos + 1 } ++ x = u.unsent ++ i :: x := by
      rw [LeUnit.unsent_some rfl, hseq, List.append_assoc, List.singleton_append]
    rw [← hunsent]
    exact h r ha (hl.withCand _ hfirst)

variable (hlt : i.toNat < 2 ^ u.m.toNat)
include hlt

/-- The first index (R160). -/
theorem LeUnit.Going.takes_first (hc : u.cand = none) :
    u.Takes i { u with cand := some (i.setWidth 12), inpos := u.inpos + 1 } :=
  hu.takes_withCand hi (dataCode_root (setWidth_code_lt hlt) hu.1.next_range.1) (by simp [hc])
    (by rw [(strings_index hu.1.dict_wf hlt).1, LeUnit.unsent_none hc, List.nil_append])

omit hlt in
/-- A stored pair (R161). -/
theorem LeUnit.Going.takes_extend {p c : Code} (hc : u.cand = some p) (hf : findPair u.dict p i = some c) :
    u.Takes i { u with cand := some c, inpos := u.inpos + 1 } := by
  obtain ⟨hseq, hfirst⟩ := strings_of_findPair hu.1.next_range.2.le hu.1.dict_wf hu.1.dict_pairs hf
  refine hu.takes_withCand hi (arena_mem hu.1.dict_wf (findPair_some hf)).1 ?_ ?_
  · intro q hq
    cases hc.symm.trans hq
    exact hfirst
  · rw [hseq, LeUnit.unsent_some hc]

/-- A miss (R162 to R164): LD reads the candidate, and the clear code if the dictionary is full. -/
theorem LeUnit.Going.takes_miss {p : Code} (hc : u.cand = some p) (hf : findPair u.dict p i = none) :
    u.Takes i (u.miss p i) := by
  have hgoing := hu.miss hc hi hlt hf
  obtain ⟨hcand, hinpos, hinput, hm, -⟩ := LeUnit.miss_takes (u := u) p i
  refine ⟨hgoing, hinput, hinpos, hm, ?_⟩
  obtain ⟨hseq, hfirst⟩ := strings_index hgoing.1.dict_wf (hm ▸ hlt)
  rw [LeUnit.unsent_some hcand, hseq]
  have hcap : u.next.toNat < 4096 := hu.1.next_range.2
  rcases Nat.lt_or_ge (u.next.toNat + 1) 4096 with hroom | hfull
  · refine ⟨_, hu.emittedBits_miss_room p i hroom, fun rest x h => hu.decodesTo_candidate hc fun r ha hr => ?_⟩
    refine h r ha ⟨hr.m.trans hm.symm, ?_, .inr ⟨_, p, hcand, hr.prev, ?_, ?_⟩⟩
    · rw [hr.width, LeUnit.miss_room p i hroom]
    · rw [hr.next, LeUnit.miss_room p i hroom]
      exact (next_succ hcap.le).symm
    · rw [hfirst, hr.next, hr.arena, LeUnit.miss_room p i hroom]
  · have hfull : u.next.toNat + 1 = 4096 := by omega
    refine ⟨_, (hu.emittedBits_miss_full hc i hfull).trans (List.append_assoc ..), fun rest x h => ?_⟩
    rw [List.append_assoc]
    refine hu.decodesTo_candidate hc fun r ha hr hbits hlimit => ?_
    rw [← hr.m, ← hr.width] at hbits
    have hm8 : r.ld.m.toNat ≤ 8 := hr.m ▸ hu.1.m_range.2
    have hw : clearOf r.ld.m.toNat < 2 ^ r.ld.width.toNat := by
      rw [hr.m, hr.width]
      exact (clear_eoi_lt hu.1.m_range.1 (hu.1.widenAt_range _).1).1
    refine LdReturns.of_step (step_ld_clear ha hm8 hw hbits) (h _ ha ⟨hr.m.trans hm.symm, ?_, .inl ⟨rfl, ?_, ?_, rfl⟩⟩
      (hbits.advance rfl rfl) hlimit)
    all_goals simp [LdUnit.cleared, LeUnit.miss_full p i hfull, hr.m]

end takes

/-- At the end of the input LD reads the candidate, if there is one, and EOI (R159, R165). -/
theorem LeUnit.Going.decodesTo_end {u : LeUnit} (hu : u.Going) (pad : List Bool) :
    u.DecodesTo ((u.cand.elim [] fun p => codeBits u.width.toNat p.toNat) ++
      (codeBits u.sendCand.width.toNat (eoiOf u.m.toNat) ++ pad)) u.unsent := by
  obtain ⟨hrun, hm, -⟩ := hu.sendCand
  have hwidth := hrun.width_range.1
  rw [hm] at hwidth
  have hend (r : State) (ha : r.active = some .ld) (hm : r.ld.m = u.m) (hw : r.ld.width = u.sendCand.width)
      (hbits : r.ld.Pending (codeBits u.sendCand.width.toNat (eoiOf u.m.toNat) ++ pad)) : LdReturns r r.ld.out := by
    rw [← hm, ← hw] at hbits hwidth
    have hrange : 2 ≤ r.ld.m.toNat ∧ r.ld.m.toNat ≤ 8 := hm ▸ hu.1.m_range
    have hs := step_ld_eoi ha hrange.2 (clear_eoi_lt hrange.1 hwidth).2 hbits
    exact ⟨1, _, (stepN_one r).trans hs, rfl, rfl⟩
  cases hc : u.cand with
  | none =>
    intro r ha hl hbits _
    rw [LeUnit.unsent_none hc, List.append_nil]
    exact hend r ha hl.m (by rw [hl.width, LeUnit.sendCand, hc]) hbits
  | some p =>
    rw [← List.append_nil u.unsent]
    refine hu.decodesTo_candidate hc fun r ha hr hbits _ => ?_
    rw [List.append_nil]
    exact hend r ha hr.m (by rw [hr.width, LeUnit.sendCand, hc]; simp [LeUnit.widenAt_eq]) hbits

/-- An index in its range takes one micro-step of LE (R160 to R164). -/
theorem step_le_takes {i : Byte} (ha : s.active = some .le) (h : s.le.Going) (hi : s.le.input[s.le.inpos]? = some i)
    (hlt : i.toNat < 2 ^ s.le.m.toNat) : ∃ u, step s = .next (s.withLe u) ∧ s.le.Takes i u := by
  cases hc : s.le.cand with
  | none => exact ⟨_, step_le_first ha hi hlt hc, h.takes_first hi hlt hc⟩
  | some p =>
    cases hf : findPair s.le.dict p i with
    | none => exact ⟨_, step_le_miss ha hi hlt hc hf, h.takes_miss hi hlt hc hf⟩
    | some c => exact ⟨_, step_le_extend ha hi hlt hc hf, h.takes_extend hi hc hf⟩

/-- A run of LE takes a micro-step for each index left and one more, and LD puts out the indices its bits stand for. -/
theorem stepN_le_decodes {x : List Byte} (ha : s.active = some .le) (h : s.le.Going)
    (hin : s.le.input.drop s.le.inpos = x) (hx : ∀ i ∈ x, i.toNat < 2 ^ s.le.m.toNat) :
    ∃ u bits, stepN (x.length + 1) s = .next ((s.withLe u).finish (.payload u.out)) ∧
      bitsOf u.out = emittedBits s.le ++ bits ∧ s.le.DecodesTo bits (s.le.unsent ++ x) := by
  induction x generalizing s with
  | nil =>
    obtain ⟨pad, -, hbits, hout⟩ := h.emittedBits_returned
    rw [h.sendCand.2.2, List.append_assoc, List.append_assoc] at hbits
    refine ⟨s.le.sendCand.returned, _, (stepN_one s).trans (step_le_end ha (List.drop_eq_nil_iff.1 hin)),
      hout.trans hbits, ?_⟩
    rw [List.append_nil]
    exact h.decodesTo_end _
  | cons i x ih =>
    have hi : s.le.input[s.le.inpos]? = some i := by
      rw [← Nat.add_zero s.le.inpos, ← List.getElem?_drop, hin]
      rfl
    obtain ⟨u, hs, hu⟩ := step_le_takes ha h hi (hx i List.mem_cons_self)
    obtain ⟨bits, hbits, hdecodes⟩ := hu.decodes
    have hin' : u.input.drop u.inpos = x := by
      rw [hu.input, hu.inpos, ← List.drop_drop, hin]
      rfl
    obtain ⟨v, rest, hv, hout, hrest⟩ := ih (s := s.withLe u) ha hu.going hin' fun j hj => by
      rw [State.withLe_le, hu.m]
      exact hx j (List.mem_cons_of_mem i hj)
    refine ⟨v, bits ++ rest, (stepN_succ_of_next hs _).trans hv, ?_, hdecodes rest x hrest⟩
    rw [hout, State.withLe_le, hbits, List.append_assoc]

/-- LD_RUN of a payload that begins as LE does: LD reads the leading clear code, and is then behind LE. -/
theorem exec_ldRun_decodes {m : Byte} {payload x y : List Byte} {bits : List Bool} (u : LeUnit) (ha : s.active = none)
    (hp : s.ld.phase ≠ .failed) (h2 : 2 ≤ m.toNat) (h8 : m.toNat ≤ 8)
    (hbits : bitsOf payload = emittedBits (u.begin m y) ++ bits) (h : (u.begin m y).DecodesTo bits x)
    (hlimit : x.length ≤ s.maxPixels.toNat) :
    ∃ t, exec (.ldRun m payload) s = .next t ∧ t.results = s.results ∧ LdReturns t x := by
  obtain ⟨-, hum, huw, hunext, -, hudict, -⟩ := u.begin_registers y h8
  obtain ⟨v, hstart, -, hm, hw, -, -, -, hinput, hbitpos, hout, hmax, -⟩ :=
    (decoderRunStarts s m payload ha).2.2 hp h2 h8
  have hpending : v.Pending (codeBits v.width.toNat (clearOf v.m.toNat) ++ bits) := by
    rw [hm, hw, ← u.begin_emitted y h8]
    exact ⟨[], hbitpos.symm, hinput ▸ hbits⟩
  have hwidth : clearOf v.m.toNat < 2 ^ v.width.toNat := by
    rw [hm, hw]
    exact (clear_eoi_lt h2 le_rfl).1
  have hclear := step_ld_clear (s := (s.withLd v).withActive (some .ld)) rfl (hm.trans_le h8) hwidth hpending
  have hreturns := h (((s.withLd v).withActive (some .ld)).withLd v.cleared) rfl
    ⟨BitVec.eq_of_toNat_eq (hm.trans hum.symm), BitVec.eq_of_toNat_eq ?_,
      .inl ⟨rfl, hudict, BitVec.eq_of_toNat_eq ?_, rfl⟩⟩ (hpending.advance rfl rfl) ?_
  · refine ⟨_, hstart, rfl, .of_step hclear ?_⟩
    have hnil : v.cleared.out = [] := hout
    rwa [State.withLd_ld, hnil, List.nil_append] at hreturns
  · rw [huw, ← hm]
    exact width_succ (by omega)
  · rw [hunext, ← hm]
    exact firstFree_next (by omega)
  · simpa [LdUnit.cleared, LdUnit.advance, hout, hmax] using hlimit

/-- Settles O55: LD stays behind LE by the candidate, from the leading clear code to EOI. -/
theorem decompressionInvertsCompression : Obligations.DecompressionInvertsCompression := by
  unfold Obligations.DecompressionInvertsCompression
  intro s m x ha hld hle h2 h8 hx hlen
  have hlegal : codeSizeLegal m = true := (codeSizeLegal_iff m).2 ⟨h2, h8⟩
  obtain ⟨-, hm, -, -, hcand, -, hinput, hinpos, -⟩ := s.le.begin_registers x h8
  obtain ⟨u, bits, hrun, hout, hdecodes⟩ := stepN_le_decodes
    (s := (s.withLe (s.le.begin m x)).withActive (some .le)) (x := x) rfl (s.le.begin_going x hlegal)
    (by simp [hinput, hinpos]) (by simpa [hm] using hx)
  simp only [State.withActive_le, State.withLe_le, LeUnit.unsent_none hcand, List.nil_append] at hout hdecodes
  obtain ⟨r, hr, hresults, n, t, ht, hta, htr⟩ := exec_ldRun_decodes
    (s := (((s.withLe (s.le.begin m x)).withActive (some .le)).withLe u).finish (.payload u.out)) s.le rfl hld h2 h8
    hout hdecodes hlen
  exact ⟨_, _, r, t, n, u.out, exec_leRun_begins x ha hle hlegal, hrun, rfl, rfl, hr, ht, hta, by rw [htr, hresults]⟩

end Sys2Proof.Machine

/-! The commands of the HOST (44_host_commands.md): the configuration, STATUS, and the code size of a palette. -/

namespace Sys2Proof.Machine

variable {s : State}

/-! ### Commands that return a value (R171 to R173) -/

theorem exec_cfgWrite_idle (ha : s.active = none) (v : U32) :
    exec (.cfgWrite v) s = .next ((s.withMaxPixels v).finish .ok) :=
  whenIdle_idle ha

theorem exec_cfgRead_idle (ha : s.active = none) : exec .cfgRead s = .next (s.finish (.value s.maxPixels)) :=
  whenIdle_idle ha

theorem exec_statusRead_idle (ha : s.active = none) (u : UnitId) :
    exec (.statusRead u) s = .next (s.finish (.value (statusWord u s))) :=
  whenIdle_idle ha

/-- Settles O16: an idle state runs both commands, and the word of CFG_READ is its row of the opcode table. -/
theorem configIsWrittenAndReadBack : Obligations.ConfigIsWrittenAndReadBack := by
  unfold Obligations.ConfigIsWrittenAndReadBack
  exact ⟨fun _ v ha => exec_cfgWrite_idle ha v, fun _ => exec_cfgRead_idle,
    decodeCommand_encode (i := .cfgRead) rfl rfl rfl, exec_cfgRead_idle rfl⟩

/-! ### The fields of STATUS (R31) -/

section status
variable (ph : BitVec 2) (err : BitVec 4) (bph : BitVec 3)

/-- The three fields do not overlap: STATUS is they and two runs of zeros, side by side. -/
theorem statusBits_eq_append : statusBits ph err bph = 0#21 ++ (bph ++ err ++ 0#2 ++ ph) := by
  calc statusBits ph err bph
    _ = (bph ++ err ++ 0#2 ++ ph).setWidth 32 := by
      simp only [statusBits, BitVec.setWidth_append_append_append_eq_shiftLeft_setWidth_or, BitVec.setWidth_zero,
        BitVec.zero_shiftLeft, BitVec.or_zero]
      ac_rfl
    _ = 0#21 ++ (bph ++ err ++ 0#2 ++ ph) := BitVec.setWidth_eq_append (by decide)

@[simp] theorem statusBits_ph : (statusBits ph err bph).extractLsb' 0 2 = ph := by
  rw [statusBits_eq_append, BitVec.extractLsb'_append_eq_of_add_le (by decide)]
  exact BitVec.extractLsb'_append_eq_right

@[simp] theorem statusBits_zeros : (statusBits ph err bph).extractLsb' 2 2 = 0#2 := by
  rw [statusBits_eq_append, BitVec.extractLsb'_append_eq_of_add_le (by decide)]
  refine (BitVec.extractLsb'_append_eq_of_le (by decide)).trans ?_
  exact BitVec.extractLsb'_append_eq_right

@[simp] theorem statusBits_err : (statusBits ph err bph).extractLsb' 4 4 = err := by
  rw [statusBits_eq_append, BitVec.extractLsb'_append_eq_of_add_le (by decide)]
  refine (BitVec.extractLsb'_append_eq_of_le (by decide)).trans ?_
  refine (BitVec.extractLsb'_append_eq_of_le (by decide)).trans ?_
  exact BitVec.extractLsb'_append_eq_right

@[simp] theorem statusBits_bph : (statusBits ph err bph).extractLsb' 8 3 = bph := by
  rw [statusBits_eq_append, BitVec.extractLsb'_append_eq_of_add_le (by decide)]
  refine (BitVec.extractLsb'_append_eq_of_le (by decide)).trans ?_
  refine (BitVec.extractLsb'_append_eq_of_le (by decide)).trans ?_
  exact BitVec.extractLsb'_append_eq_left

@[simp] theorem statusBits_reserved : (statusBits ph err bph).extractLsb' 11 21 = 0#21 := by
  rw [statusBits_eq_append]
  exact BitVec.extractLsb'_append_eq_left

end status

theorem bpPh_eq_ite (p : BpPhase) : bpPh p = if p = .failed then 3#2 else if p = .done then 2#2 else 0#2 := by
  cases p <;> rfl

theorem bfPh_eq_ite (p : BfPhase) : bfPh p = if p = .failed then 3#2 else 0#2 := by
  cases p <;> rfl

/-- STATUS is 0 outside its fields, and has a sub-phase for BP only (R31). -/
theorem statusWord_zeros (u : UnitId) (s : State) :
    (statusWord u s).extractLsb' 2 2 = 0#2 ∧ (statusWord u s).extractLsb' 11 21 = 0#21 ∧
      (u ≠ .bp → (statusWord u s).extractLsb' 8 3 = 0#3) := by
  cases u with
  | bp => exact ⟨statusBits_zeros .., statusBits_reserved .., fun h => absurd rfl h⟩
  | bf | ld | le => exact ⟨statusBits_zeros .., statusBits_reserved .., fun _ => statusBits_bph ..⟩

/-- UNIT stands at bits [17:16] of the word of STATUS_READ (R90, R173). -/
theorem commandWord_statusRead (u : UnitId) :
    commandWord 0x04#8 0#8 (unitBits u) 0#1 = 0x00000004#32 ||| ((unitBits u).setWidth 32 <<< 16) := by
  cases u <;> rfl

/-- Settles O17: the word is the encoding of the command, and each field of STATUS is read off the word put together from
them. -/
theorem statusReadShowsPhaseAndError : Obligations.StatusReadShowsPhaseAndError := by
  unfold Obligations.StatusReadShowsPhaseAndError
  refine ⟨fun u => ?_, fun _ u ha => exec_statusRead_idle ha u, fun s u => statusWord_zeros u s, fun s => ?_,
    fun _ => rfl, fun _ => rfl⟩
  · rw [← commandWord_statusRead]
    exact decodeCommand_encode (i := .statusRead u) rfl rfl rfl
  · exact ⟨(statusBits_ph ..).trans (bpPh_eq_ite _), (statusBits_ph ..).trans (bfPh_eq_ite _), statusBits_ph ..,
      statusBits_ph .., rfl, statusBits_err .., statusBits_err .., statusBits_err .., statusBits_err ..,
      statusBits_bph ..⟩

/-! ### The code size of a palette (R11, R179) -/

theorem ceilLog2_le_iff (n k : Nat) : ceilLog2 n ≤ k ↔ n ≤ 2 ^ k := by
  unfold ceilLog2
  have hpos : 0 < 2 ^ k := Nat.two_pow_pos k
  split
  · omega
  · rw [Nat.succ_le_iff, Nat.log2_lt (by omega)]
    omega

theorem minCodeSize_le_iff (n k : Nat) : minCodeSize n ≤ k ↔ 2 ≤ k ∧ n ≤ 2 ^ k := by
  rw [minCodeSize, max_le_iff, ceilLog2_le_iff]

/-- Settles O58: the code sizes not below `minCodeSize n` are those of at least 2 that hold the palette. -/
theorem minCodeSizeFitsThePalette : Obligations.MinCodeSizeFitsThePalette := by
  unfold Obligations.MinCodeSizeFitsThePalette
  intro n _ hn
  obtain ⟨htwo, hfits⟩ := (minCodeSize_le_iff n _).1 le_rfl
  exact ⟨htwo, (minCodeSize_le_iff n 8).2 ⟨by decide, hn⟩, hfits, fun k hk hnk => (minCodeSize_le_iff n k).2 ⟨hk, hnk⟩⟩

end Sys2Proof.Machine

/-! Failures (60_exceptions.md): what failure entry writes, that a returned failure is a unit's record, and that only
RESET takes a unit out of Failed. -/

namespace Sys2Proof.Machine

variable {s t : State} {u : UnitId}

/-! ### The failure record of each unit (10_state.md R23) -/

/-- The error record of a unit. -/
def State.err (s : State) : UnitId → Option ErrorKind
  | .bp => s.bp.err
  | .bf => s.bf.err
  | .ld => s.ld.err
  | .le => s.le.err

/-- A unit's phase is Failed. -/
def State.Failed (s : State) : UnitId → Prop
  | .bp => s.bp.phase = .failed
  | .bf => s.bf.phase = .failed
  | .ld => s.ld.phase = .failed
  | .le => s.le.phase = .failed

theorem State.Inv.err_isSome_iff (h : s.Inv) (u : UnitId) : (s.err u).isSome = true ↔ s.Failed u :=
  match u with
  | .bp => h.bp.err_iff
  | .bf => h.bf.err_iff
  | .ld => h.ld.err_iff
  | .le => h.le.err_iff

theorem State.Inv.mayRaise_of_err (h : s.Inv) {k : ErrorKind} (hk : s.err u = some k) : mayRaise u k = true :=
  match u with
  | .bp => h.bp.err_kind k hk
  | .bf => h.bf.err_kind k hk
  | .ld => h.ld.err_kind k hk
  | .le => h.le.err_kind k hk

/-- A unit whose command runs has not failed. -/
theorem State.Inv.not_failed_of_running (h : s.Inv) (ha : s.active = some u) : ¬s.Failed u := by
  intro hf
  cases u with
  | bp =>
    have hu : s.bp.Inv True := by simpa [ha] using h.bp
    exact hu.err_none.1 hf
  | bf => exact absurd (hf.symm.trans (h.bf.writing ha).1) nofun
  | ld => exact absurd (hf.symm.trans (h.ld.run_iff.1 ha)) nofun
  | le => exact absurd (hf.symm.trans (h.le.run_iff.1 ha)) nofun

theorem raiseFail_err (s : State) (u : UnitId) (k : ErrorKind) (n : Nat) : (raiseFail u k n s).err u = some k := by
  cases u <;> rfl

/-- Settles O46: failure entry is an update of its unit, then the result (R186). -/
theorem failureEntryWritesTheRecord : Obligations.FailureEntryWritesTheRecord := by
  unfold Obligations.FailureEntryWritesTheRecord
  exact fun s k info => ⟨rfl, rfl, rfl, rfl⟩

/-! ### No command waiting (60_exceptions.md R199) -/

/-- Settles O10: with no action of the HOST waiting the fetch answers the state itself. -/
theorem idleStepChangesNothing : Obligations.IdleStepChangesNothing := fun _ => step_idle

/-! ### A returned failure is recorded (60_exceptions.md R186 to R188) -/

/-- If the result that came from `s` to `t` is a failure, some unit of `t` has it on record. -/
def ReturnedFailIsRecorded (s t : State) : Prop :=
  ∀ k, t.results = s.results ++ [.fail k] → ∃ u, t.err u = some k

theorem ReturnedFailIsRecorded.of_no_result (h : t.results = s.results) : ReturnedFailIsRecorded s t := by
  intro k hk
  simp [h] at hk

theorem ReturnedFailIsRecorded.of_result {r : Result} (h : t.results = s.results ++ [r])
    (hr : ∀ k, r = .fail k → ∃ u, t.err u = some k) : ReturnedFailIsRecorded s t := by
  intro k hk
  rw [h] at hk
  exact hr k (List.singleton_inj.1 (List.append_cancel_left hk))

/-- Failure entry records what it returns; `s'` is `s` with the stream side effects of the failing micro-step (R191). -/
theorem raiseFail_isRecorded {s' : State} {k : ErrorKind} {n : Nat} (hs : s'.results = s.results) :
    ReturnedFailIsRecorded s (raiseFail u k n s') :=
  .of_result (by rw [raiseFail_results, hs]) (by rintro _ ⟨⟩; exact ⟨u, raiseFail_err ..⟩)

/-- A command to a Failed unit returns what is on record already. -/
theorem repeatFail_isRecorded (u : UnitId) (hx : repeatFail (s.err u) s = .next t) : ReturnedFailIsRecorded s t := by
  obtain ⟨k, hk, rfl⟩ := repeatFail_next hx
  refine .of_result rfl ?_
  rintro _ ⟨⟩
  exact ⟨u, hk⟩

theorem exec_command_isRecorded {i : Instr} (hc : admits .command i = true) (hx : exec i s = .next t) :
    ReturnedFailIsRecorded s t := by
  cases i with
  | reset u all =>
    obtain ⟨-, ⟨⟩⟩ := whenIdle_next hx
    cases all <;> cases u <;> exact .of_result rfl nofun
  | cfgWrite | cfgRead | statusRead =>
    obtain ⟨-, ⟨⟩⟩ := whenIdle_next hx
    exact .of_result rfl nofun
  | bpPull =>
    obtain ⟨-, hx⟩ := whenIdle_next hx
    split at hx
    · exact repeatFail_isRecorded .bp hx
    · cases hx
      exact .of_result rfl nofun
    · cases hx
      exact .of_no_result rfl
  | bfPush b =>
    obtain ⟨-, hx⟩ := whenIdle_next hx
    split at hx
    · exact repeatFail_isRecorded .bf hx
    · split_ifs at hx
      · cases hx
        exact raiseFail_isRecorded rfl
      · cases hx
        exact .of_no_result rfl
  | ldRun m payload =>
    obtain ⟨-, hx⟩ := whenIdle_next hx
    split at hx
    · exact repeatFail_isRecorded .ld hx
    · split_ifs at hx
      · cases hx
        exact .of_no_result rfl
      · cases hx
        exact raiseFail_isRecorded rfl
  | leRun m indices =>
    obtain ⟨-, hx⟩ := whenIdle_next hx
    split at hx
    · exact repeatFail_isRecorded .le hx
    · split_ifs at hx
      · cases hx
        exact .of_no_result rfl
      · cases hx
        exact raiseFail_isRecorded rfl
  | _ => cases hc

theorem step_idle_isRecorded (ha : s.active = none) (hx : step s = .next t) : ReturnedFailIsRecorded s t := by
  rcases hh : s.host with _ | ⟨q | answers | answers, rest⟩
  · rw [step_idle ha hh] at hx
    cases hx
    exact .of_no_result rfl
  · cases hd : decodeCommand q with
    | command i =>
      rw [step_command ha hh hd] at hx
      exact exec_command_isRecorded (s := s.withHost rest) (decodeCommand_admits hd) hx
    | reject r =>
      rw [step_reject ha hh hd] at hx
      cases hx
  · rw [step_bindSrc ha hh] at hx
    cases hx
    exact .of_no_result rfl
  · rw [step_bindSink ha hh] at hx
    cases hx
    exact .of_no_result rfl

theorem step_bp_isRecorded (ha : s.active = some .bp) (hx : step s = .next t) : ReturnedFailIsRecorded s t := by
  rcases read1_cases s with ⟨b, rest, hs, -⟩ | ⟨-, hr⟩ | ⟨rest, -, hr⟩ | ⟨e, rest, -, hr⟩
  · cases hf : bufferFull s with
    | true =>
      rw [step_bp_full ha hf hs] at hx
      cases hx
      exact raiseFail_isRecorded rfl
    | false =>
      rw [step_bp_byte ha hf hs] at hx
      split at hx
      · cases hx
        exact .of_no_result rfl
      · obtain ⟨hw, hc⟩ := decodeBlock_complete ‹_›
        rcases exec_block_cases hc hw hx with ⟨k, -, rfl⟩ | ⟨blk, phase, -, -, rfl⟩
        · exact raiseFail_isRecorded rfl
        · exact .of_result rfl nofun
      · cases hx
  all_goals
    rw [step_bp_error ha hr] at hx
    cases hx
    exact raiseFail_isRecorded rfl

theorem step_bf_isRecorded (ha : s.active = some .bf) (hx : step s = .next t) : ReturnedFailIsRecorded s t := by
  rw [step_bf ha] at hx
  unfold bfMicroStep at hx
  split at hx
  · cases hx
    exact .of_result rfl nofun
  · rename_i b rest _
    rcases write1_cases s b with ⟨answers, -, hw⟩ | ⟨e, kept, answers, -, hw⟩ <;> simp only [hw] at hx
    · cases rest with
      | nil =>
        cases hx
        exact .of_result rfl nofun
      | cons b' rest' =>
        cases hx
        exact .of_no_result rfl
    · cases hx
      exact raiseFail_isRecorded rfl

theorem step_ld_isRecorded (ha : s.active = some .ld) (hx : step s = .next t) : ReturnedFailIsRecorded s t := by
  rcases Nat.lt_or_ge (8 * s.ld.input.length) (s.ld.bitpos + s.ld.width.toNat) with hb | hb
  · rw [step_ld_short ha hb] at hx
    cases hx
    exact raiseFail_isRecorded rfl
  · obtain ⟨f, -, h⟩ := step_ld_effect hb
    cases hx.symm.trans (h [] s.ld s (List.append_nil _).symm ha rfl)
    cases f with
    | goesOn u => exact .of_no_result rfl
    | returns => exact .of_result rfl nofun
    | fails k => exact raiseFail_isRecorded rfl

theorem step_le_isRecorded (ha : s.active = some .le) (hx : step s = .next t) : ReturnedFailIsRecorded s t := by
  rw [step_le ha] at hx
  unfold leMicroStep at hx
  split at hx
  · split at hx <;> cases hx <;> exact .of_result rfl nofun
  · split at hx
    · cases hx
      exact raiseFail_isRecorded rfl
    · split at hx
      · cases hx
        exact .of_no_result rfl
      · split at hx <;> cases hx <;> exact .of_no_result rfl

theorem step_isRecorded (hx : step s = .next t) : ReturnedFailIsRecorded s t :=
  match ha : s.active with
  | none => step_idle_isRecorded ha hx
  | some .bp => step_bp_isRecorded ha hx
  | some .bf => step_bf_isRecorded ha hx
  | some .ld => step_ld_isRecorded ha hx
  | some .le => step_le_isRecorded ha hx

/-- Settles O47: the failure returned is on record after the step, and the invariant, which the step keeps, says of the
unit that has it that it is Failed and may raise that kind. -/
theorem failResultsComeFromAFailedUnit : Obligations.FailResultsComeFromAFailedUnit := by
  unfold Obligations.FailResultsComeFromAFailedUnit
  intro s t k h hx hk
  obtain ⟨u, hu⟩ := step_isRecorded hx k hk
  have ht : t.Inv := everyStepKeepsTheInvariant s t h hx
  have hrecord : t.Failed u ∧ t.err u = some k ∧ mayRaise u k = true :=
    ⟨(ht.err_isSome_iff u).1 (by rw [hu]; rfl), hu, ht.mayRaise_of_err hu⟩
  cases u with
  | bp => exact .inl hrecord
  | bf => exact .inr (.inl hrecord)
  | ld => exact .inr (.inr (.inl hrecord))
  | le => exact .inr (.inr (.inr hrecord))

/-! ### The way out of Failed (60_exceptions.md R187) -/

/-- Every unit Failed in `s` is Failed in `t`. -/
def KeepsFailed (s t : State) : Prop := ∀ u, s.Failed u → t.Failed u

/-- Every unit but `v` that is Failed in `s` is Failed in `t`. -/
def KeepsOthersFailed (v : UnitId) (s t : State) : Prop := ∀ u, u ≠ v → s.Failed u → t.Failed u

theorem KeepsFailed.of_same_units (hbp : t.bp = s.bp) (hbf : t.bf = s.bf) (hld : t.ld = s.ld) (hle : t.le = s.le) :
    KeepsFailed s t
  | .bp, hf => (congrArg BpUnit.phase hbp).trans hf
  | .bf, hf => (congrArg BfUnit.phase hbf).trans hf
  | .ld, hf => (congrArg LdUnit.phase hld).trans hf
  | .le, hf => (congrArg LeUnit.phase hle).trans hf

/-- Whether a command goes on or ends is no matter of any unit's phase. -/
theorem RunsOrEnds.keepsFailed {v : UnitId} (h : RunsOrEnds v s t) : KeepsFailed s t := by
  rw [h.frame]
  exact .of_same_units rfl rfl rfl rfl

section others
variable {v : UnitId}

theorem KeepsOthersFailed.trans {r : State} (h : KeepsOthersFailed v r s) (h' : KeepsFailed s t) :
    KeepsOthersFailed v r t := fun u hne hf => h' u (h u hne hf)

/-- Writing a unit that has not failed takes no unit out of Failed. -/
theorem KeepsOthersFailed.keepsFailed (h : KeepsOthersFailed v s t) (hv : ¬s.Failed v) : KeepsFailed s t :=
  fun u hf => h u (fun hu => hv (hu ▸ hf)) hf

/-- A command that writes one unit alone, and repeats the failure of that unit when it has one, takes no unit out of
Failed. -/
theorem KeepsOthersFailed.keepsFailed_of_repeats (h : KeepsOthersFailed v s t) (err : Option ErrorKind)
    (hrep : s.Failed v → repeatFail err s = .next t) : KeepsFailed s t := by
  by_cases hv : s.Failed v
  · exact (repeatFail_ends (v := v) (hrep hv)).keepsFailed
  · exact h.keepsFailed hv

end others

theorem keepsOthersFailed_withBp (b : BpUnit) : KeepsOthersFailed .bp s (s.withBp b)
  | .bp, hne, _ => absurd rfl hne
  | .bf, _, hf | .ld, _, hf | .le, _, hf => hf

theorem keepsOthersFailed_withBf (b : BfUnit) : KeepsOthersFailed .bf s (s.withBf b)
  | .bf, hne, _ => absurd rfl hne
  | .bp, _, hf | .ld, _, hf | .le, _, hf => hf

theorem keepsOthersFailed_withLd (b : LdUnit) : KeepsOthersFailed .ld s (s.withLd b)
  | .ld, hne, _ => absurd rfl hne
  | .bp, _, hf | .bf, _, hf | .le, _, hf => hf

theorem keepsOthersFailed_withLe (b : LeUnit) : KeepsOthersFailed .le s (s.withLe b)
  | .le, hne, _ => absurd rfl hne
  | .bp, _, hf | .bf, _, hf | .ld, _, hf => hf

theorem keepsOthersFailed_resetUnit (s : State) : ∀ v, KeepsOthersFailed v s (resetUnit v s)
  | .bp => keepsOthersFailed_withBp _
  | .bf => keepsOthersFailed_withBf _
  | .ld => keepsOthersFailed_withLd _
  | .le => keepsOthersFailed_withLe _

/-- A step of a running unit writes that unit alone, and it has not failed. -/
theorem step_running_keepsFailed {v : UnitId} (h : s.Inv) (ha : s.active = some v) (hx : step s = .next t) :
    KeepsFailed s t := by
  refine KeepsOthersFailed.keepsFailed (v := v) ?_ (h.not_failed_of_running ha)
  cases v with
  | bp =>
    obtain ⟨answers, b, -, hb⟩ := step_bp_moves ha hx
    exact (keepsOthersFailed_withBp (s := s.withSrc answers) b).trans hb.keepsFailed
  | bf =>
    obtain ⟨bytes, answers, b, -, -, hb⟩ := step_bf_moves ha hx
    exact (keepsOthersFailed_withBf (s := s.withSink bytes answers) b).trans hb.keepsFailed
  | ld =>
    obtain ⟨b, hb⟩ := step_ld_writes ha hx
    exact (keepsOthersFailed_withLd b).trans hb.keepsFailed
  | le =>
    obtain ⟨b, hb⟩ := step_le_writes ha hx
    exact (keepsOthersFailed_withLe b).trans hb.keepsFailed

/-- Among the commands only RESET takes a unit out of Failed: a command to a Failed unit repeats its failure, and one to
another unit writes that one alone. -/
theorem exec_command_keepsFailed_or_resets {i : Instr} (hc : admits .command i = true) (hx : exec i s = .next t)
    (hf : s.Failed u) : t.Failed u ∨ i = .reset u false ∨ ∃ v, i = .reset v true := by
  cases i with
  | reset v all =>
    obtain ⟨-, ⟨⟩⟩ := whenIdle_next hx
    cases all with
    | true => exact .inr (.inr ⟨v, rfl⟩)
    | false =>
      by_cases hv : u = v
      · exact .inr (.inl (hv ▸ rfl))
      · have hend : RunsOrEnds v (resetUnit v s) ((resetUnit v s).finish .ok) := .inr ⟨_, rfl⟩
        exact .inl (hend.keepsFailed u (keepsOthersFailed_resetUnit s v u hv hf))
  | cfgWrite | cfgRead | statusRead =>
    obtain ⟨-, ⟨⟩⟩ := whenIdle_next hx
    exact .inl (KeepsFailed.of_same_units rfl rfl rfl rfl u hf)
  | bpPull =>
    obtain ⟨b, hb, -⟩ := execBpPull_writes hx
    obtain ⟨-, hx⟩ := whenIdle_next hx
    have hw := (keepsOthersFailed_withBp b).trans hb.keepsFailed
    exact .inl (hw.keepsFailed_of_repeats s.bp.err (fun (hp : s.bp.phase = .failed) => by rwa [hp] at hx) u hf)
  | bfPush r =>
    obtain ⟨b, hb, -⟩ := execBfPush_writes hx
    obtain ⟨-, hx⟩ := whenIdle_next hx
    have hw := (keepsOthersFailed_withBf b).trans hb.keepsFailed
    exact .inl (hw.keepsFailed_of_repeats s.bf.err (fun (hp : s.bf.phase = .failed) => by rwa [hp] at hx) u hf)
  | ldRun m payload =>
    obtain ⟨b, hb⟩ := execLdRun_writes hx
    obtain ⟨-, hx⟩ := whenIdle_next hx
    have hw := (keepsOthersFailed_withLd b).trans hb.keepsFailed
    exact .inl (hw.keepsFailed_of_repeats s.ld.err (fun (hp : s.ld.phase = .failed) => by rwa [hp] at hx) u hf)
  | leRun m indices =>
    obtain ⟨b, hb⟩ := execLeRun_writes hx
    obtain ⟨-, hx⟩ := whenIdle_next hx
    have hw := (keepsOthersFailed_withLe b).trans hb.keepsFailed
    exact .inl (hw.keepsFailed_of_repeats s.le.err (fun (hp : s.le.phase = .failed) => by rwa [hp] at hx) u hf)
  | _ => cases hc

/-- RESET with ALL = 1 is decoded with UNIT = 0 alone (30_encoding.md R92). -/
theorem unit_of_decodeCommand_resetAll {q : Request} {v : UnitId} (h : decodeCommand q = .command (.reset v true)) :
    v = .bp := by
  simpa [Instr.wf] using (encode_of_decodeCommand h).2

/-- While no unit runs, a unit stays Failed unless the HOST's next command is its RESET or RESET ALL. -/
theorem step_idle_keepsFailed_or_resets (ha : s.active = none) (hx : step s = .next t) (hf : s.Failed u) :
    t.Failed u ∨ ∃ q rest, s.host = .command q :: rest ∧
      (decodeCommand q = .command (.reset u false) ∨ decodeCommand q = .command (.reset .bp true)) := by
  rcases hh : s.host with _ | ⟨q | answers | answers, rest⟩
  · rw [step_idle ha hh] at hx
    cases hx
    exact .inl hf
  · cases hd : decodeCommand q with
    | command i =>
      rw [step_command ha hh hd] at hx
      have hf' : (s.withHost rest).Failed u := KeepsFailed.of_same_units rfl rfl rfl rfl u hf
      rcases exec_command_keepsFailed_or_resets (decodeCommand_admits hd) hx hf' with hfail | rfl | ⟨v, rfl⟩
      · exact .inl hfail
      · exact .inr ⟨q, rest, rfl, .inl hd⟩
      · obtain rfl := unit_of_decodeCommand_resetAll hd
        exact .inr ⟨q, rest, rfl, .inr hd⟩
    | reject r =>
      rw [step_reject ha hh hd] at hx
      cases hx
  · rw [step_bindSrc ha hh] at hx
    cases hx
    exact .inl (KeepsFailed.of_same_units rfl rfl rfl rfl u hf)
  · rw [step_bindSink ha hh] at hx
    cases hx
    exact .inl (KeepsFailed.of_same_units rfl rfl rfl rfl u hf)

/-- Settles O48: a running unit's step keeps every unit Failed, and so does every action of the HOST but RESET. -/
theorem onlyResetLeavesFailed : Obligations.OnlyResetLeavesFailed := by
  unfold Obligations.OnlyResetLeavesFailed
  intro s t h hx u hu
  obtain ⟨hf, hleft⟩ : s.Failed u ∧ ¬t.Failed u := by cases u <;> exact hu
  cases ha : s.active with
  | some v => exact absurd (step_running_keepsFailed h ha hx u hf) hleft
  | none => exact ⟨rfl, (step_idle_keepsFailed_or_resets ha hx hf).resolve_left hleft⟩

end Sys2Proof.Machine

/-! Reset and hazards (70_reset_and_hazards.md): what RESET leaves, that commands do not overlap, and when a run of LE
ends. -/

namespace Sys2Proof.Machine

variable {s : State}

/-! ### The end of a run of LE (R209) -/

/-- LE takes each index in its range in one micro-step (43_lzw_encoder.md R160 to R164). -/
theorem stepN_le_takes {n : Nat} (ha : s.active = some .le) (h : s.le.Going) (hn : s.le.inpos + n ≤ s.le.input.length)
    (hx : ∀ i ∈ (s.le.input.drop s.le.inpos).take n, i.toNat < 2 ^ s.le.m.toNat) :
    ∃ u, stepN n s = .next (s.withLe u) ∧ u.input = s.le.input ∧ u.inpos = s.le.inpos + n ∧ u.m = s.le.m := by
  induction n generalizing s with
  | zero => exact ⟨s.le, rfl, rfl, rfl, rfl⟩
  | succ n ih =>
    have hlt : s.le.inpos < s.le.input.length := by omega
    rw [List.drop_eq_getElem_cons hlt, List.take_succ_cons, List.forall_mem_cons] at hx
    obtain ⟨v, hs, hv⟩ := step_le_takes ha h (List.getElem?_eq_getElem hlt) hx.1
    obtain ⟨u, hu, hinput, hinpos, hm⟩ := ih (s := s.withLe v) ha hv.going
      (by rw [State.withLe_le, hv.input, hv.inpos]; omega)
      (by rw [State.withLe_le, hv.input, hv.inpos, hv.m]; exact hx.2)
    refine ⟨u, (stepN_succ_of_next hs n).trans hu, hinput.trans hv.input, ?_, hm.trans hv.m⟩
    rw [hinpos, State.withLe_le, hv.inpos]
    omega

/-- LE after an accepted LE_RUN, once it has taken `n` indices in their range. -/
theorem stepN_leRun_takes {m : Byte} {x : List Byte} {n : Nat} {t : State} (ha : s.active = none)
    (hp : s.le.phase ≠ .failed) (h2 : 2 ≤ m.toNat) (h8 : m.toNat ≤ 8) (ht : exec (.leRun m x) s = .next t)
    (hn : n ≤ x.length) (hx : ∀ i ∈ x.take n, i.toNat < 2 ^ m.toNat) :
    ∃ r, stepN n t = .next r ∧ r.active = some .le ∧ r.results = s.results ∧ r.le.input = x ∧ r.le.inpos = n ∧
      r.le.m.toNat = m.toNat := by
  have hlegal : codeSizeLegal m = true := (codeSizeLegal_iff m).2 ⟨h2, h8⟩
  obtain ⟨-, hm, -, -, -, -, hinput, hinpos, -⟩ := s.le.begin_registers x h8
  cases (exec_leRun_begins x ha hp hlegal).symm.trans ht
  obtain ⟨u, hu, huinput, huinpos, hum⟩ := stepN_le_takes (n := n)
    (s := (s.withLe (s.le.begin m x)).withActive (some .le)) rfl (s.le.begin_going x hlegal)
    (by simpa [hinput, hinpos] using hn) (by simpa [hinput, hinpos, hm] using hx)
  exact ⟨_, hu, rfl, rfl, huinput.trans hinput, by simpa [hinpos] using huinpos, (congrArg _ hum).trans hm⟩

/-- Settles O45: after the indices in their range LE meets the end of its input or the first bad index. -/
theorem encoderRunEnds : Obligations.EncoderRunEnds := by
  unfold Obligations.EncoderRunEnds
  intro s t m x ha hp h2 h8 ht
  refine ⟨fun hx => ?_, fun n hx hbad => ?_⟩
  · obtain ⟨r, hr, hra, hresults, hinput, hinpos, -⟩ :=
      stepN_leRun_takes ha hp h2 h8 ht le_rfl (by rwa [List.take_length])
    have hend := step_le_end hra (hinput ▸ hinpos.ge)
    exact ⟨_, _, ((stepN_add_of_next hr 1).trans (stepN_one r)).trans hend, rfl, congrArg (· ++ _) hresults, rfl, rfl⟩
  · obtain ⟨i, hi, hge⟩ := hbad
    obtain ⟨hn, -⟩ := List.getElem?_eq_some_iff.1 hi
    obtain ⟨r, hr, hra, hresults, hinput, hinpos, hm⟩ := stepN_leRun_takes ha hp h2 h8 ht hn.le hx
    have hfail := step_le_outOfRange hra (by rw [hinput, hinpos, hi]) (hm ▸ hge)
    exact ⟨_, ((stepN_add_of_next hr 1).trans (stepN_one r)).trans hfail, rfl, congrArg (· ++ _) hresults, rfl, hinpos,
      rfl⟩

/-! ### Overlapping commands (R206) -/

/-- Settles O11: every command has its meaning while no unit runs. -/
theorem overlappingCommandIsRefused : Obligations.OverlappingCommandIsRefused := by
  unfold Obligations.OverlappingCommandIsRefused
  intro s i hc ha
  cases i with
  | reset | cfgWrite | cfgRead | statusRead | bpPull | bfPush | ldRun | leRun => exact whenIdle_busy ha
  | _ => cases hc

/-! ### RESET (R200, R201) -/

theorem exec_reset_unit_idle (ha : s.active = none) (u : UnitId) :
    exec (.reset u false) s = .next ((resetUnit u s).finish .ok) :=
  whenIdle_idle ha

theorem exec_reset_all_idle (ha : s.active = none) (u : UnitId) :
    exec (.reset u true) s = .next ((resetAll s).finish .ok) :=
  whenIdle_idle ha

/-- Settles O14: RESET writes the reset state of its unit. -/
theorem resetOfOneUnitResetsOnlyIt : Obligations.ResetOfOneUnitResetsOnlyIt := by
  unfold Obligations.ResetOfOneUnitResetsOnlyIt
  exact fun s ha => ⟨exec_reset_unit_idle ha .bp, exec_reset_unit_idle ha .bf,
    ⟨LdUnit.reset, exec_reset_unit_idle ha .ld, rfl, rfl, rfl, rfl, rfl⟩,
    ⟨LeUnit.reset, exec_reset_unit_idle ha .le, rfl, rfl, rfl, rfl, rfl⟩⟩

/-- The creation of the machine leaves every STATUS 0 (R37). -/
theorem statusWord_reset (u : UnitId) : statusWord u State.reset = 0#32 := by cases u <;> decide

/-- Settles O15: RESET ALL writes the reset state of every unit, which is that of the machine's creation. -/
theorem resetAllGivesTheResetState : Obligations.ResetAllGivesTheResetState := by
  unfold Obligations.ResetAllGivesTheResetState
  refine ⟨fun s u ha => ⟨_, exec_reset_all_idle ha u, ?_⟩, rfl, rfl, rfl, rfl, rfl, rfl, rfl, rfl, rfl, rfl, rfl,
    statusWord_reset⟩
  rw [resetAll_eq]
  exact ⟨rfl, rfl, rfl, rfl, rfl, rfl, rfl, rfl, rfl, rfl, rfl, rfl⟩

end Sys2Proof.Machine
